-- ==== Sys2Proof/Word.lean ====
section
/-! DEFINITION. The widths of values in the block (`47_operation_laws.md` R217): words, counts, bytes, and
the 11-bit operation word of `30_encoding.md` R61. -/

namespace Sys2Proof

/-- A 32-bit word: every bus value, the pointers, and the word registers (R217). -/
abbrev Word := BitVec 32

/-- A 16-bit transfer count (R23, R217). -/
abbrev Count := BitVec 16

/-- A byte: the holding register and every delivered or emitted byte (R16, R217). -/
abbrev Byte := BitVec 8

/-- A bit position in a word; bit 0 is the least significant (R8). -/
abbrev BitPos := Fin 32

/-- The operation word `opw = kind[10:9] : offset[8:0]` of R61. -/
abbrev OpWord := BitVec 11

end Sys2Proof
end

