-- ==== Sys2Proof/Config.lean ====
section
/-! DEFINITION. What is fixed for one device: the names of registers, fields and commands, and the
implementation parameters of `00_scope.md` R7. The default values of the parameters stand in
`Sys2Proof/Machine/Defaults.lean`. -/

namespace Sys2Proof

/-- The twelve named bits of SR, IER, IDR and IMR (`10_state.md` R14, `30_encoding.md` R68). -/
inductive StatusFlag where
  | rxrdy | txrdy | endrx | endtx | ovre | frame | pare | txempty | txbufe | rxbuff | commtx | commrx
  deriving DecidableEq, Repr

/-- All twelve status names, in the order of R68. -/
def StatusFlag.all : List StatusFlag :=
  [.rxrdy, .txrdy, .endrx, .endtx, .ovre, .frame, .pare, .txempty, .txbufe, .rxbuff, .commtx, .commrx]

/-- The seven command bits of CR (R65). -/
inductive CrCommand where
  | rstrx | rsttx | rxen | rxdis | txen | txdis | rststa
  deriving DecidableEq, Repr

/-- All seven CR commands, in the row order of R66. -/
def CrCommand.all : List CrCommand := [.rstrx, .rsttx, .rxen, .rxdis, .txen, .txdis, .rststa]

/-- The four command bits of PTCR (R72). -/
inductive PtcrCommand where
  | rxten | rxtdis | txten | txtdis
  deriving DecidableEq, Repr

/-- All four PTCR commands, in the row order of R72. -/
def PtcrCommand.all : List PtcrCommand := [.rxten, .rxtdis, .txten, .txtdis]

/-- A direction of the descriptor unit (R23, R24). -/
inductive Direction where
  | rx | tx
  deriving DecidableEq, Repr

/-- The twelve UART registers of R62. -/
inductive UartReg where
  | cr | mr | ier | idr | imr | sr | rhr | thr | brgr | cidr | exid | fnr
  deriving DecidableEq, Repr

/-- All UART registers, in the row order of R62. -/
def UartReg.all : List UartReg :=
  [.cr, .mr, .ier, .idr, .imr, .sr, .rhr, .thr, .brgr, .cidr, .exid, .fnr]

/-- The ten registers of the PDC block (R70). -/
inductive PdcReg where
  | rpr | rcr | tpr | tcr | rnpr | rncr | tnpr | tncr | ptcr | ptsr
  deriving DecidableEq, Repr

/-- All PDC registers, in the row order of R70. -/
def PdcReg.all : List PdcReg :=
  [.rpr, .rcr, .tpr, .tcr, .rnpr, .rncr, .tnpr, .tncr, .ptcr, .ptsr]

/-- `BITPOS` for SR, IER, IDR and IMR (R68): a position for each of the twelve names. -/
structure StatusBits where
  rxrdy : BitPos
  txrdy : BitPos
  endrx : BitPos
  endtx : BitPos
  ovre : BitPos
  frame : BitPos
  pare : BitPos
  txempty : BitPos
  txbufe : BitPos
  rxbuff : BitPos
  commtx : BitPos
  commrx : BitPos
  deriving DecidableEq, Repr

/-- `BITPOS` for CR (R66). -/
structure CrBits where
  rstrx : BitPos
  rsttx : BitPos
  rxen : BitPos
  rxdis : BitPos
  txen : BitPos
  txdis : BitPos
  rststa : BitPos
  deriving DecidableEq, Repr

/-- `BITPOS` for PTCR (R72). -/
structure PtcrBits where
  rxten : BitPos
  rxtdis : BitPos
  txten : BitPos
  txtdis : BitPos
  deriving DecidableEq, Repr

/-- `BITPOS` for PTSR (R72). -/
structure PtsrBits where
  rxten : BitPos
  txten : BitPos
  deriving DecidableEq, Repr

/-- `PDC_OFFSETS` (R70): which of the ten word offsets 0x100 + 4k each PDC register has, given as its k. -/
structure PdcOffsets where
  rpr : Fin 10
  rcr : Fin 10
  tpr : Fin 10
  tcr : Fin 10
  rnpr : Fin 10
  rncr : Fin 10
  tnpr : Fin 10
  tncr : Fin 10
  ptcr : Fin 10
  ptsr : Fin 10
  deriving DecidableEq, Repr

/-- `PDC_NEXT_COUNT_ACTION` (R7, R167): what a next-count write returns. -/
inductive NextCountAction where
  | none | stateChanged | startStop
  deriving DecidableEq, Repr

/-- `XFER_ENGINE` (R7): the null engine of R213, or an external engine held to the bounds of R215. -/
inductive XferEngine where
  | null | external
  deriving DecidableEq, Repr

/-- The parameters of R7 a session is created with. `PDC_VARIANT` is not among them: the machine holds one
unit of each kind, and an operation names the unit it goes to. -/
structure Params where
  chipId : Word
  extId : Word
  statusBits : StatusBits
  crBits : CrBits
  ptcrBits : PtcrBits
  ptsrBits : PtsrBits
  pdcOffsets : PdcOffsets
  ierComplementDefect : Bool
  rxGate : Bool
  txGate : Bool
  imrDomain : Word
  pdcNextCountAction : NextCountAction
  xferEngine : XferEngine
  deriving DecidableEq, Repr

/-- `CHIP_ID` as the host supplies it: the spec gives no value (R7, R146, D19), so none is fixed here. -/
opaque Config.chipId : Word

/-- `EXT_ID` as the host supplies it: the spec gives no value (R7, R147, D19), so none is fixed here. -/
opaque Config.extId : Word

/-- `WINDOW_SIZE`, in bytes (R7, R40). -/
def windowSize : Nat := 0x200

/-- `ACCESS_SIZE`, the one legal access width in bytes (R7, R42). -/
def accessSize : Nat := 4

end Sys2Proof
end

