-- ==== Sys2Proof/Machine/Flags.lean ====
section
/-! DEFINITION. Bits and flags: reading, setting and clearing one bit of a word, the position of every named
field, the sets of commands a written value issues, and the interrupt level. -/

namespace Sys2Proof.Machine

/-- `bit(NAME)` for the position `p`: the word with only that bit set (`00_scope.md` R8). -/
def bitMask (p : BitPos) : Word := BitVec.twoPow 32 p.val

/-- `v[i]` (R8). -/
def testBit (v : Word) (p : BitPos) : Bool := v.getLsbD p.val

/-- Setting one bit, the others unchanged (R8, `47_operation_laws.md` R218 (c)). -/
def setBit (v : Word) (p : BitPos) : Word := v ||| bitMask p

/-- Clearing one bit, the others unchanged (R8, R218 (c)). -/
def clearBit (v : Word) (p : BitPos) : Word := v &&& ~~~ bitMask p

/-- Setting or clearing one bit. -/
def writeBit (v : Word) (p : BitPos) (b : Bool) : Word := if b then setBit v p else clearBit v p

/-- `BITPOS[NAME]` for the status names (`30_encoding.md` R68). -/
def statusPos (b : StatusBits) : StatusFlag → BitPos
  | .rxrdy => b.rxrdy
  | .txrdy => b.txrdy
  | .endrx => b.endrx
  | .endtx => b.endtx
  | .ovre => b.ovre
  | .frame => b.frame
  | .pare => b.pare
  | .txempty => b.txempty
  | .txbufe => b.txbufe
  | .rxbuff => b.rxbuff
  | .commtx => b.commtx
  | .commrx => b.commrx

/-- `BITPOS[NAME]` for the CR commands (R66). -/
def crPos (b : CrBits) : CrCommand → BitPos
  | .rstrx => b.rstrx
  | .rsttx => b.rsttx
  | .rxen => b.rxen
  | .rxdis => b.rxdis
  | .txen => b.txen
  | .txdis => b.txdis
  | .rststa => b.rststa

/-- `BITPOS[NAME]` for the PTCR commands (R72). -/
def ptcrPos (b : PtcrBits) : PtcrCommand → BitPos
  | .rxten => b.rxten
  | .rxtdis => b.rxtdis
  | .txten => b.txten
  | .txtdis => b.txtdis

/-- The slot k of a PDC register, whose offset is 0x100 + 4k (R70). -/
def pdcSlot (o : PdcOffsets) : PdcReg → Fin 10
  | .rpr => o.rpr
  | .rcr => o.rcr
  | .tpr => o.tpr
  | .tcr => o.tcr
  | .rnpr => o.rnpr
  | .rncr => o.rncr
  | .tnpr => o.tnpr
  | .tncr => o.tncr
  | .ptcr => o.ptcr
  | .ptsr => o.ptsr

/-- The OR of the masks of a list of positions. -/
def maskOf (ps : List BitPos) : Word := ps.foldr (fun p m => bitMask p ||| m) 0

/-- `STATUS_DEFINED`: the word with exactly the named status bits set (R68). -/
def statusDefined (b : StatusBits) : Word := maskOf (StatusFlag.all.map (statusPos b))

/-- `CR_DEFINED` (R66). -/
def crDefined (b : CrBits) : Word := maskOf (CrCommand.all.map (crPos b))

/-- `PTCR_DEFINED` (R72). -/
def ptcrDefined (b : PtcrBits) : Word := maskOf (PtcrCommand.all.map (ptcrPos b))

/-- The CR commands in the fixed order in which one write applies them (`40_uart_control.md` R90). -/
def crOrder : List CrCommand := [.rstrx, .rsttx, .rxen, .rxdis, .txen, .txdis, .rststa]

/-- The PTCR commands in the order in which one write applies them: each disable after its enable
(`44_pdc.md` R173). -/
def ptcrOrder : List PtcrCommand := [.rxten, .rxtdis, .txten, .txtdis]

/-- The commands a value written to CR issues, in the order they are applied (R65, R67, R90). -/
def crCommandsIn (c : Params) (v : Word) : List CrCommand :=
  crOrder.filter fun k => testBit v (crPos c.crBits k)

/-- The commands a value written to PTCR issues, in the order they are applied (R72, R73, R173). -/
def ptcrCommandsIn (c : Params) (v : Word) : List PtcrCommand :=
  ptcrOrder.filter fun k => testBit v (ptcrPos c.ptcrBits k)

/-- A value written to the half-duplex PTCR asks for both enables (`45_pdc_half_duplex.md` R199). -/
def dualEnable (c : Params) (v : Word) : Bool :=
  testBit v c.ptcrBits.rxten && testBit v c.ptcrBits.txten

/-- The word PTSR shows for the two enables (R176, R203). -/
def ptsrWord (b : PtsrBits) (rxOn txOn : Bool) : Word :=
  (if rxOn then bitMask b.rxten else 0) ||| (if txOn then bitMask b.txten else 0)

/-- The Interrupt Latch: `pending = (status & interrupt_mask) != 0` (`60_exceptions.md` R232). -/
def latch (status mask : Word) : Bool := (status &&& mask) != 0

end Sys2Proof.Machine
end

