-- ==== Sys2Proof/Machine/Defaults.lean ====
section
/-! DEFINITION. The default values of the parameters of `00_scope.md` R7. The numeric positions and offsets are
the spec's own defaults, which it marks as general knowledge (`93_implementation_defined.md` G1 to G4). -/

namespace Sys2Proof.Machine

/-- The default positions of the twelve status names (`30_encoding.md` R68). -/
def defaultStatusBits : StatusBits where
  rxrdy := 0
  txrdy := 1
  endrx := 3
  endtx := 4
  ovre := 5
  frame := 6
  pare := 7
  txempty := 9
  txbufe := 11
  rxbuff := 12
  commtx := 30
  commrx := 31

/-- The default positions of the CR commands (R66). -/
def defaultCrBits : CrBits where
  rstrx := 2
  rsttx := 3
  rxen := 4
  rxdis := 5
  txen := 6
  txdis := 7
  rststa := 8

/-- The default positions of the PTCR commands (R72). -/
def defaultPtcrBits : PtcrBits where
  rxten := 0
  rxtdis := 1
  txten := 8
  txtdis := 9

/-- The default positions of the PTSR bits (R72). -/
def defaultPtsrBits : PtsrBits where
  rxten := 0
  txten := 8

/-- The default `PDC_OFFSETS`: RPR, RCR, TPR, TCR, RNPR, RNCR, TNPR, TNCR, PTCR, PTSR at 0x100 + 4k (R70). -/
def defaultPdcOffsets : PdcOffsets where
  rpr := 0
  rcr := 1
  tpr := 2
  tcr := 3
  rnpr := 4
  rncr := 5
  tnpr := 6
  tncr := 7
  ptcr := 8
  ptsr := 9

/-- Every parameter at its default (R7); the two identification constants are the host's (D19). -/
def defaultParams : Params where
  chipId := Config.chipId
  extId := Config.extId
  statusBits := defaultStatusBits
  crBits := defaultCrBits
  ptcrBits := defaultPtcrBits
  ptsrBits := defaultPtsrBits
  pdcOffsets := defaultPdcOffsets
  ierComplementDefect := false
  rxGate := false
  txGate := false
  imrDomain := statusDefined defaultStatusBits
  pdcNextCountAction := .none
  xferEngine := .null

end Sys2Proof.Machine
end

