-- ==== Sys2Proof/Machine/Operands.lean ====
section
/-! DEFINITION. The conversions between the 32-bit bus value and narrower state (`30_encoding.md` R74), and the
part of a written value that takes part in a write to IER (`42_uart_irqmask.md` R130, R131). -/

namespace Sys2Proof.Machine

/-- `trunc_8(v) = v[7:0]` (R8): the byte a THR write sends. -/
def trunc8 (v : Word) : Byte := v.setWidth 8

/-- `trunc_16(v) = v[15:0]` (R8): the count a count write stores. -/
def trunc16 (v : Word) : Count := v.setWidth 16

/-- `zext_32` of a byte: what RHR reads (R8, R74). -/
def zextByte (b : Byte) : Word := b.setWidth 32

/-- `zext_32` of a count: what a count register reads (R8, R74). -/
def zextCount (n : Count) : Word := n.setWidth 32

/-- The mask bits a value written to IER sets: those in `IMR_DOMAIN`, of the value, or of its complement when
`IER_COMPLEMENT_DEFECT` is true (R130, R131). -/
def ierOperand (c : Params) (v : Word) : Word :=
  (if c.ierComplementDefect then ~~~ v else v) &&& c.imrDomain

end Sys2Proof.Machine
end

