-- ==== Sys2Proof/Machine/Ports.lean ====
section
/-! DEFINITION. What crosses the ports of the block (`00_scope.md` R4 to R6): the operations the environment
issues, the transfer-engine steps of `46_pdc_actions.md` R215, and the outputs. -/

namespace Sys2Proof.Machine

/-- The unit an operation goes to: the UART with its embedded full-duplex PDC, or the stand-alone
half-duplex unit (`PDC_VARIANT`, R7, R27, D26). -/
inductive Target where
  | uart | hdx
  deriving DecidableEq, Repr

/-- The direction of a bus access (R5). -/
inductive BusKind where
  | read | write
  deriving DecidableEq, Repr

/-- One operation as the environment issues it: the four kinds of R5, nothing yet checked. -/
inductive Request where
  | read (t : Target) (size offset : Nat)
  | write (t : Target) (size offset : Nat) (value : Word)
  | deliver (bytes : List Byte)
  | reset (t : Target)
  deriving DecidableEq, Repr

/-- The unit that reports a violation of the operation. Deliveries go to the UART (R75). -/
def Request.target : Request → Target
  | .read t _ _ => t
  | .write t _ _ _ => t
  | .deliver _ => .uart
  | .reset t => t

/-- The action a PDC write returns (`44_pdc.md` R156). -/
inductive Action where
  | none | stateChanged | startRx | stopRx | startTx | stopTx
  deriving DecidableEq, Repr

/-- The causes of a ProtocolViolation, each with what is reported (`60_exceptions.md` R228). -/
inductive Violation where
  | illegalWidth (kind : BusKind) (offset size : Nat)
  | illegalOffset (kind : BusKind) (offset : Nat)
  | badDeliverySize (delivered : Nat)
  | halfDuplexDualEnable (value : Word)
  deriving DecidableEq, Repr

/-- What an operation puts on the output ports, besides the combinational `irq` (R5, R6): the value returned
to the bus master, a transmitted byte, a PDC action, a log line (its text is free, U16; the action it is
about is recorded), a fault report. -/
inductive Event where
  | readData (t : Target) (value : Word)
  | tx (byte : Byte)
  | action (t : Target) (a : Action)
  | log (a : Action)
  | fault (t : Target) (v : Violation)
  deriving DecidableEq, Repr

/-- The four numeric fields of one channel that a transfer engine may change (R215 (b)). -/
structure Descriptor where
  currentPointer : Word
  currentCount : Count
  nextPointer : Word
  nextCount : Count
  deriving DecidableEq, Repr

/-- What an engine step does to the four status bits it may change (R215 (b)): `some b` writes `b`. -/
structure EngineFlags where
  endrx : Option Bool
  endtx : Option Bool
  txbufe : Option Bool
  rxbuff : Option Bool
  deriving DecidableEq, Repr

/-- One atomic step of an external transfer engine, working for one channel (R215). Everything such a step may
do to the block is an argument, so every engine within the bounds is some sequence of these. -/
inductive EngineStep where
  | rx (d : Descriptor) (flags : EngineFlags) (consume : Bool)
  | tx (d : Descriptor) (flags : EngineFlags) (emit : Option Byte)
  deriving DecidableEq, Repr

/-- The channel an engine step works for. -/
def EngineStep.direction : EngineStep → Direction
  | .rx _ _ _ => .rx
  | .tx _ _ _ => .tx

/-- One item of the total order of R50 and R215 (a): an operation, or a step of an external engine. -/
inductive Input where
  | op (r : Request)
  | engine (e : EngineStep)
  deriving DecidableEq, Repr

end Sys2Proof.Machine
end

