-- ==== Sys2Proof/Syntax.lean ====
section
/-! DEFINITION. The instructions: one constructor per row of `spec/opcode_table.json` (R79). A write carries
the 32-bit written value; a row for one command bit of CR or PTCR carries the whole written value of the
write that issues it. -/

namespace Sys2Proof

/-- The 69 rows of the opcode table. Constructors starting `hdx` go to the half-duplex unit. -/
inductive Instr where
  -- BUSR: reads of the UART window
  | rMr | rImr | rSr | rRhr | rBrgr | rCidr | rExid | rFnr
  | rRpr | rRcr | rTpr | rTcr | rRnpr | rRncr | rTnpr | rTncr | rPtsr
  -- BUSW: writes of the UART window
  | wCr (value : Word)
  | wMr (value : Word)
  | wIer (value : Word)
  | wIdr (value : Word)
  | wThr (value : Word)
  | wBrgr (value : Word)
  | wFnr (value : Word)
  | wRpr (value : Word)
  | wRcr (value : Word)
  | wTpr (value : Word)
  | wTcr (value : Word)
  | wRnpr (value : Word)
  | wRncr (value : Word)
  | wTnpr (value : Word)
  | wTncr (value : Word)
  | wPtcr (value : Word)
  -- RXD and RST
  | rxDeliver (bytes : List Byte)
  | reset (t : Machine.Target)
  -- CRBIT: a CR write that issues one command
  | crRstrx (value : Word)
  | crRsttx (value : Word)
  | crRxen (value : Word)
  | crRxdis (value : Word)
  | crTxen (value : Word)
  | crTxdis (value : Word)
  | crRststa (value : Word)
  -- PTCRBIT: a PTCR write that issues one command, full-duplex unit
  | ptcrRxten (value : Word)
  | ptcrRxtdis (value : Word)
  | ptcrTxten (value : Word)
  | ptcrTxtdis (value : Word)
  -- HDX: the half-duplex unit
  | hdxWRpr (value : Word)
  | hdxWTpr (value : Word)
  | hdxRRpr
  | hdxRTpr
  | hdxWRcr (value : Word)
  | hdxWTcr (value : Word)
  | hdxRRcr
  | hdxRTcr
  | hdxWRnpr (value : Word)
  | hdxWTnpr (value : Word)
  | hdxRRnpr
  | hdxRTnpr
  | hdxWRncr (value : Word)
  | hdxWTncr (value : Word)
  | hdxRRncr
  | hdxRTncr
  | hdxWPtcr (value : Word)
  | hdxRPtsr
  | hdxPtcrDualen (value : Word)
  | hdxPtcrRxten (value : Word)
  | hdxPtcrTxten (value : Word)
  | hdxPtcrRxtdis (value : Word)
  | hdxPtcrTxtdis (value : Word)
  deriving DecidableEq, Repr

end Sys2Proof
end

