-- ==== Sys2Proof/WellFormed.lean ====
section
/-! DEFINITION. When parameters are legal, and when an instruction is one an operation of the environment can
issue. -/

namespace Sys2Proof

open Machine

/-- What R66, R68, R70 and R72 require of the parameters and nothing more: the positions of each register's
fields are distinct, and the ten PDC registers have distinct offsets. -/
def Params.wellFormed (c : Params) : Bool :=
  decide (StatusFlag.all.map (statusPos c.statusBits)).Nodup
    && decide (CrCommand.all.map (crPos c.crBits)).Nodup
    && decide (PtcrCommand.all.map (ptcrPos c.ptcrBits)).Nodup
    && decide (c.ptsrBits.rxten ≠ c.ptsrBits.txten)
    && decide (PdcReg.all.map (pdcSlot c.pdcOffsets)).Nodup

/-- A delivery carries exactly one byte (R75). A row for one command bit stands for a CR or PTCR write that
issues exactly that command, and the row of the write itself for any other value, so that every operation is
one instruction (R79). On the half-duplex PTCR the dual-enable row takes every value with both enables (R199). -/
def Instr.wellFormed (c : Params) : Instr → Bool
  | .rxDeliver bytes => bytes.length == 1
  | .wCr v => (crCommandsIn c v).length != 1
  | .crRstrx v => crCommandsIn c v == [.rstrx]
  | .crRsttx v => crCommandsIn c v == [.rsttx]
  | .crRxen v => crCommandsIn c v == [.rxen]
  | .crRxdis v => crCommandsIn c v == [.rxdis]
  | .crTxen v => crCommandsIn c v == [.txen]
  | .crTxdis v => crCommandsIn c v == [.txdis]
  | .crRststa v => crCommandsIn c v == [.rststa]
  | .wPtcr v => (ptcrCommandsIn c v).length != 1
  | .ptcrRxten v => ptcrCommandsIn c v == [.rxten]
  | .ptcrRxtdis v => ptcrCommandsIn c v == [.rxtdis]
  | .ptcrTxten v => ptcrCommandsIn c v == [.txten]
  | .ptcrTxtdis v => ptcrCommandsIn c v == [.txtdis]
  | .hdxWPtcr v => !dualEnable c v && (ptcrCommandsIn c v).length != 1
  | .hdxPtcrDualen v => dualEnable c v
  | .hdxPtcrRxten v => ptcrCommandsIn c v == [.rxten]
  | .hdxPtcrRxtdis v => ptcrCommandsIn c v == [.rxtdis]
  | .hdxPtcrTxten v => ptcrCommandsIn c v == [.txten]
  | .hdxPtcrTxtdis v => ptcrCommandsIn c v == [.txtdis]
  | .rMr | .rImr | .rSr | .rRhr | .rBrgr | .rCidr | .rExid | .rFnr
  | .rRpr | .rRcr | .rTpr | .rTcr | .rRnpr | .rRncr | .rTnpr | .rTncr | .rPtsr
  | .wMr _ | .wIer _ | .wIdr _ | .wThr _ | .wBrgr _ | .wFnr _
  | .wRpr _ | .wRcr _ | .wTpr _ | .wTcr _ | .wRnpr _ | .wRncr _ | .wTnpr _ | .wTncr _
  | .reset _
  | .hdxWRpr _ | .hdxWTpr _ | .hdxRRpr | .hdxRTpr | .hdxWRcr _ | .hdxWTcr _ | .hdxRRcr | .hdxRTcr
  | .hdxWRnpr _ | .hdxWTnpr _ | .hdxRRnpr | .hdxRTnpr | .hdxWRncr _ | .hdxWTncr _ | .hdxRRncr | .hdxRTncr
  | .hdxRPtsr => true

end Sys2Proof
end

