-- ==== Sys2Proof/Decode.lean ====
section
/-! DEFINITION. From an operation of the environment to an instruction, total and rejecting by name
(`30_encoding.md` R62 to R79), and back. The operation word and the data word are R61's. The bits beside them
in a packed operation are the model's own device (assumption log 3). -/

namespace Sys2Proof

open Machine

/-! ### The register map -/

/-- The offset of each UART register (R62). -/
def uartOffset : UartReg → Nat
  | .cr => 0x00
  | .mr => 0x04
  | .ier => 0x08
  | .idr => 0x0C
  | .imr => 0x10
  | .sr => 0x14
  | .rhr => 0x18
  | .thr => 0x1C
  | .brgr => 0x20
  | .cidr => 0x40
  | .exid => 0x44
  | .fnr => 0x48

/-- The offset of each PDC register: one of the ten word offsets 0x100 to 0x124 (R70). -/
def pdcOffset (o : PdcOffsets) (r : PdcReg) : Nat := 0x100 + 4 * (pdcSlot o r).val

/-- The UART register at an offset. -/
def uartRegAt (off : Nat) : Option UartReg := UartReg.all.find? fun r => uartOffset r == off

/-- The PDC register at an offset. -/
def pdcRegAt (o : PdcOffsets) (off : Nat) : Option PdcReg :=
  PdcReg.all.find? fun r => pdcOffset o r == off

/-- Reads of the UART registers; a write-only register has none (R62, R64). -/
def readOfUart : UartReg → Option Instr
  | .cr => none
  | .mr => some .rMr
  | .ier => none
  | .idr => none
  | .imr => some .rImr
  | .sr => some .rSr
  | .rhr => some .rRhr
  | .thr => none
  | .brgr => some .rBrgr
  | .cidr => some .rCidr
  | .exid => some .rExid
  | .fnr => some .rFnr

/-- Reads of the full-duplex PDC registers; PTCR is write-only (R64, R70). -/
def readOfPdc : PdcReg → Option Instr
  | .rpr => some .rRpr
  | .rcr => some .rRcr
  | .tpr => some .rTpr
  | .tcr => some .rTcr
  | .rnpr => some .rRnpr
  | .rncr => some .rRncr
  | .tnpr => some .rTnpr
  | .tncr => some .rTncr
  | .ptcr => none
  | .ptsr => some .rPtsr

/-- Reads of the half-duplex unit's registers (R70, R79). -/
def readOfHdx : PdcReg → Option Instr
  | .rpr => some .hdxRRpr
  | .rcr => some .hdxRRcr
  | .tpr => some .hdxRTpr
  | .tcr => some .hdxRTcr
  | .rnpr => some .hdxRRnpr
  | .rncr => some .hdxRRncr
  | .tnpr => some .hdxRTnpr
  | .tncr => some .hdxRTncr
  | .ptcr => none
  | .ptsr => some .hdxRPtsr

/-- The row of one CR command (R79 (c)). -/
def crInstr (v : Word) : CrCommand → Instr
  | .rstrx => .crRstrx v
  | .rsttx => .crRsttx v
  | .rxen => .crRxen v
  | .rxdis => .crRxdis v
  | .txen => .crTxen v
  | .txdis => .crTxdis v
  | .rststa => .crRststa v

/-- The row of one PTCR command, full-duplex unit (R79 (c)). -/
def ptcrInstr (v : Word) : PtcrCommand → Instr
  | .rxten => .ptcrRxten v
  | .rxtdis => .ptcrRxtdis v
  | .txten => .ptcrTxten v
  | .txtdis => .ptcrTxtdis v

/-- The row of one PTCR command, half-duplex unit (R79 (d)). -/
def hdxPtcrInstr (v : Word) : PtcrCommand → Instr
  | .rxten => .hdxPtcrRxten v
  | .rxtdis => .hdxPtcrRxtdis v
  | .txten => .hdxPtcrTxten v
  | .txtdis => .hdxPtcrTxtdis v

/-- A CR write: the row of the one command it issues, or W.CR for no command or several (R79). -/
def crForm (c : Params) (v : Word) : Instr :=
  match crCommandsIn c v with
  | [k] => crInstr v k
  | _ => .wCr v

/-- A PTCR write of the full-duplex unit, as `crForm`. -/
def ptcrForm (c : Params) (v : Word) : Instr :=
  match ptcrCommandsIn c v with
  | [k] => ptcrInstr v k
  | _ => .wPtcr v

/-- A PTCR write of the half-duplex unit: the dual-enable row first, then as `ptcrForm` (R79 (d), R199). -/
def hdxPtcrForm (c : Params) (v : Word) : Instr :=
  if dualEnable c v then .hdxPtcrDualen v
  else
    match ptcrCommandsIn c v with
    | [k] => hdxPtcrInstr v k
    | _ => .hdxWPtcr v

/-- Writes of the UART registers; a read-only register has none (R62, R64). -/
def writeOfUart (c : Params) (v : Word) : UartReg → Option Instr
  | .cr => some (crForm c v)
  | .mr => some (.wMr v)
  | .ier => some (.wIer v)
  | .idr => some (.wIdr v)
  | .imr => none
  | .sr => none
  | .rhr => none
  | .thr => some (.wThr v)
  | .brgr => some (.wBrgr v)
  | .cidr => none
  | .exid => none
  | .fnr => some (.wFnr v)

/-- Writes of the full-duplex PDC registers; PTSR is read-only (R64, R70). -/
def writeOfPdc (c : Params) (v : Word) : PdcReg → Option Instr
  | .rpr => some (.wRpr v)
  | .rcr => some (.wRcr v)
  | .tpr => some (.wTpr v)
  | .tcr => some (.wTcr v)
  | .rnpr => some (.wRnpr v)
  | .rncr => some (.wRncr v)
  | .tnpr => some (.wTnpr v)
  | .tncr => some (.wTncr v)
  | .ptcr => some (ptcrForm c v)
  | .ptsr => none

/-- Writes of the half-duplex unit's registers (R70, R79). -/
def writeOfHdx (c : Params) (v : Word) : PdcReg → Option Instr
  | .rpr => some (.hdxWRpr v)
  | .rcr => some (.hdxWRcr v)
  | .tpr => some (.hdxWTpr v)
  | .tcr => some (.hdxWTcr v)
  | .rnpr => some (.hdxWRnpr v)
  | .rncr => some (.hdxWRncr v)
  | .tnpr => some (.hdxWTnpr v)
  | .tncr => some (.hdxWTncr v)
  | .ptcr => some (hdxPtcrForm c v)
  | .ptsr => none

/-- The read at an offset of a unit's window, if there is one. -/
def readAt (c : Params) (t : Target) (off : Nat) : Option Instr :=
  match t with
  | .uart =>
    match uartRegAt off with
    | some r => readOfUart r
    | none => (pdcRegAt c.pdcOffsets off).bind readOfPdc
  | .hdx => (pdcRegAt c.pdcOffsets off).bind readOfHdx

/-- The write of a value at an offset of a unit's window, if there is one. -/
def writeAt (c : Params) (t : Target) (off : Nat) (v : Word) : Option Instr :=
  match t with
  | .uart =>
    match uartRegAt off with
    | some r => writeOfUart c v r
    | none => (pdcRegAt c.pdcOffsets off).bind (writeOfPdc c v)
  | .hdx => (pdcRegAt c.pdcOffsets off).bind (writeOfHdx c v)

/-! ### Decoding an operation -/

/-- Decoding with the checks of R63 in their order: the width, then the offset for the direction. What is
rejected is rejected with its cause (R228). A delivery's size is checked by the delivery itself (R116). -/
def decode (c : Params) : Request → Except Violation Instr
  | .read t size off =>
    if size = accessSize then
      match readAt c t off with
      | some i => .ok i
      | none => .error (.illegalOffset .read off)
    else .error (.illegalWidth .read off size)
  | .write t size off v =>
    if size = accessSize then
      match writeAt c t off v with
      | some i => .ok i
      | none => .error (.illegalOffset .write off)
    else .error (.illegalWidth .write off size)
  | .deliver bytes => .ok (.rxDeliver bytes)
  | .reset t => .ok (.reset t)

/-! ### Encoding -/

/-- A legal read of a UART register. -/
def uartRead (r : UartReg) : Request := .read .uart accessSize (uartOffset r)

/-- A legal write of a UART register. -/
def uartWrite (r : UartReg) (v : Word) : Request := .write .uart accessSize (uartOffset r) v

/-- A legal read of a PDC register of a unit. -/
def pdcRead (c : Params) (t : Target) (r : PdcReg) : Request :=
  .read t accessSize (pdcOffset c.pdcOffsets r)

/-- A legal write of a PDC register of a unit. -/
def pdcWrite (c : Params) (t : Target) (r : PdcReg) (v : Word) : Request :=
  .write t accessSize (pdcOffset c.pdcOffsets r) v

/-- The operation that issues an instruction (R60, R62, R70, R79). -/
def requestOf (c : Params) : Instr → Request
  | .rMr => uartRead .mr
  | .rImr => uartRead .imr
  | .rSr => uartRead .sr
  | .rRhr => uartRead .rhr
  | .rBrgr => uartRead .brgr
  | .rCidr => uartRead .cidr
  | .rExid => uartRead .exid
  | .rFnr => uartRead .fnr
  | .rRpr => pdcRead c .uart .rpr
  | .rRcr => pdcRead c .uart .rcr
  | .rTpr => pdcRead c .uart .tpr
  | .rTcr => pdcRead c .uart .tcr
  | .rRnpr => pdcRead c .uart .rnpr
  | .rRncr => pdcRead c .uart .rncr
  | .rTnpr => pdcRead c .uart .tnpr
  | .rTncr => pdcRead c .uart .tncr
  | .rPtsr => pdcRead c .uart .ptsr
  | .wCr v => uartWrite .cr v
  | .wMr v => uartWrite .mr v
  | .wIer v => uartWrite .ier v
  | .wIdr v => uartWrite .idr v
  | .wThr v => uartWrite .thr v
  | .wBrgr v => uartWrite .brgr v
  | .wFnr v => uartWrite .fnr v
  | .wRpr v => pdcWrite c .uart .rpr v
  | .wRcr v => pdcWrite c .uart .rcr v
  | .wTpr v => pdcWrite c .uart .tpr v
  | .wTcr v => pdcWrite c .uart .tcr v
  | .wRnpr v => pdcWrite c .uart .rnpr v
  | .wRncr v => pdcWrite c .uart .rncr v
  | .wTnpr v => pdcWrite c .uart .tnpr v
  | .wTncr v => pdcWrite c .uart .tncr v
  | .wPtcr v => pdcWrite c .uart .ptcr v
  | .rxDeliver bytes => .deliver bytes
  | .reset t => .reset t
  | .crRstrx v => uartWrite .cr v
  | .crRsttx v => uartWrite .cr v
  | .crRxen v => uartWrite .cr v
  | .crRxdis v => uartWrite .cr v
  | .crTxen v => uartWrite .cr v
  | .crTxdis v => uartWrite .cr v
  | .crRststa v => uartWrite .cr v
  | .ptcrRxten v => pdcWrite c .uart .ptcr v
  | .ptcrRxtdis v => pdcWrite c .uart .ptcr v
  | .ptcrTxten v => pdcWrite c .uart .ptcr v
  | .ptcrTxtdis v => pdcWrite c .uart .ptcr v
  | .hdxWRpr v => pdcWrite c .hdx .rpr v
  | .hdxWTpr v => pdcWrite c .hdx .tpr v
  | .hdxRRpr => pdcRead c .hdx .rpr
  | .hdxRTpr => pdcRead c .hdx .tpr
  | .hdxWRcr v => pdcWrite c .hdx .rcr v
  | .hdxWTcr v => pdcWrite c .hdx .tcr v
  | .hdxRRcr => pdcRead c .hdx .rcr
  | .hdxRTcr => pdcRead c .hdx .tcr
  | .hdxWRnpr v => pdcWrite c .hdx .rnpr v
  | .hdxWTnpr v => pdcWrite c .hdx .tnpr v
  | .hdxRRnpr => pdcRead c .hdx .rnpr
  | .hdxRTnpr => pdcRead c .hdx .tnpr
  | .hdxWRncr v => pdcWrite c .hdx .rncr v
  | .hdxWTncr v => pdcWrite c .hdx .tncr v
  | .hdxRRncr => pdcRead c .hdx .rncr
  | .hdxRTncr => pdcRead c .hdx .tncr
  | .hdxWPtcr v => pdcWrite c .hdx .ptcr v
  | .hdxRPtsr => pdcRead c .hdx .ptsr
  | .hdxPtcrDualen v => pdcWrite c .hdx .ptcr v
  | .hdxPtcrRxten v => pdcWrite c .hdx .ptcr v
  | .hdxPtcrTxten v => pdcWrite c .hdx .ptcr v
  | .hdxPtcrRxtdis v => pdcWrite c .hdx .ptcr v
  | .hdxPtcrTxtdis v => pdcWrite c .hdx .ptcr v

/-- A complete operation in encoded form: the pair (`opw`, `data`) of R61 and the unit it goes to. -/
structure OpCode where
  target : Target
  opw : OpWord
  data : Word
  deriving DecidableEq, Repr

/-- `opw = kind[10:9] : offset[8:0]` (R61). -/
def opwOf (kind off : Nat) : OpWord := BitVec.ofNat 11 (kind * 512 + off)

/-- The encoded form of a legal operation; `size` is no part of it (R61). Data the form gives no meaning
is 0. -/
def pack : Request → OpCode
  | .read t _ off => ⟨t, opwOf 0 off, 0⟩
  | .write t _ off v => ⟨t, opwOf 1 off, v⟩
  | .deliver bytes => ⟨.uart, opwOf 2 0, zextByte (bytes.headD 0)⟩
  | .reset t => ⟨t, opwOf 3 0, 0⟩

/-- The operation an encoded form stands for; `none` where the form is none of R61's: such a form is no operation
(DESIGN CHOICE, assumption log 23). -/
def unpack (x : OpCode) : Option Request :=
  let off := x.opw.toNat % 512
  match x.opw.toNat / 512 with
  | 0 => if x.data = 0 then some (.read x.target accessSize off) else none
  | 1 => some (.write x.target accessSize off x.data)
  | 2 =>
    if x.target = .uart ∧ off = 0 ∧ zextByte (trunc8 x.data) = x.data then
      some (.deliver [trunc8 x.data])
    else none
  | _ => if off = 0 ∧ x.data = 0 then some (.reset x.target) else none

/-- The words of a well-formed instruction. -/
def encode (c : Params) (i : Instr) : OpCode := pack (requestOf c i)

/-- The instruction of an encoded operation; `none` where the form or the operation is illegal. -/
def decodeOpCode (c : Params) (x : OpCode) : Option Instr :=
  (unpack x).bind fun r => (decode c r).toOption

/-! ### Numbers as the opcode table writes them -/

/-- An encoded operation as one number: `opw` in bits 10 to 0, the unit in bit 11 (0 the UART, 1 the
half-duplex unit), bits 15 to 12 zero, the data word in bits 47 to 16. -/
def opCodeNumber (x : OpCode) : Nat :=
  x.opw.toNat + (match x.target with | .uart => 0 | .hdx => 2048) + 65536 * x.data.toNat

/-- The encoded operation a number stands for. -/
def opCodeOfNumber (n : Nat) : Option OpCode :=
  if n / 4096 % 16 = 0 ∧ n / 65536 < 4294967296 then
    some ⟨if n / 2048 % 2 = 0 then .uart else .hdx, BitVec.ofNat 11 (n % 2048),
      BitVec.ofNat 32 (n / 65536)⟩
  else none

/-- The write a command-bit row of the table stands for: its `match` is over the written value (R79 (c),
(d)). A CR row is a CR write and a PTCR row a PTCR write of the UART with exactly that bit; the dual-enable
row, a PTCR write of the half-duplex unit. -/
def commandRequest (c : Params) (n : Nat) : Option Request :=
  let v := BitVec.ofNat 32 n
  if crOrder.any (fun k => bitMask (crPos c.crBits k) == v) then some (uartWrite .cr v)
  else if ptcrOrder.any (fun k => bitMask (ptcrPos c.ptcrBits k) == v) then
    some (pdcWrite c .uart .ptcr v)
  else if v == (bitMask c.ptcrBits.rxten ||| bitMask c.ptcrBits.txten) then
    some (pdcWrite c .hdx .ptcr v)
  else none

/-- An operation that decodes. -/
def legal (c : Params) (r : Request) : Bool := (decode c r).toOption.isSome

/-- The operation of a table row, from its bits; R79 does not say which of the two readings bits without their
row have, and this is the model's choice (DESIGN CHOICE, assumption log 3). Bits of width 8 or 32 are read as a
written value first. Bits of any other width are read as an operation word if that operation decodes; if it does
not but the number is the value of a command row (0x001, 0x002, 0x008, 0x080 and 0x101 at the default positions),
they are read as that command's write. Bits that are no command row's value are kept as the illegal operation they
are if they have one of R61's forms, and are no operation if they have none (assumption log 23). -/
def requestOfTableWord (c : Params) (nbits n : Nat) : Option Request :=
  let op := (opCodeOfNumber n).bind unpack
  let cmd := commandRequest c n
  if nbits = 8 ∨ nbits = 32 then (cmd <|> op) else (op.filter (legal c) <|> cmd <|> op)

/-- The instruction the decoder reads from a table row's bits, at the default parameters. -/
def decodeTableWord (nbits w : Nat) : Option Instr :=
  (requestOfTableWord defaultParams nbits w).bind fun r => (decode defaultParams r).toOption

end Sys2Proof
end

