-- ==== Sys2Proof/Machine/State.lean ====
section
/-! DEFINITION. The state of the machine: the device records of `10_state.md` (`UartDevice`, `DmaChannel`,
`HalfDuplexPdc`), and around them what the session supplies and observes: the parameters, the operations the
environment has issued and not yet had performed, and the history of outputs. -/

namespace Sys2Proof.Machine

/-- One direction's descriptor state (R23, R24). -/
structure DmaChannel where
  currentPointer : Word
  currentCount : Count
  nextPointer : Word
  nextCount : Count
  transferEnabled : Bool
  deriving DecidableEq, Repr

/-- The device state `S` (R12 to R20, R23, R24, R26). -/
structure UartDevice where
  mode : Word
  status : Word
  interruptMask : Word
  rxHolding : Byte
  baudDivisor : Word
  frameNumber : Word
  rxEnabled : Bool
  txEnabled : Bool
  rxChannel : DmaChannel
  txChannel : DmaChannel
  fault : Bool
  deriving DecidableEq, Repr

/-- The state `H` of the stand-alone half-duplex unit (R27). -/
structure HalfDuplexPdc where
  pointer : Word
  count : Count
  nextPointer : Word
  nextCount : Count
  rxEnabled : Bool
  txEnabled : Bool
  fault : Bool
  deriving DecidableEq, Repr

/-- The whole machine. `uart` and `hdx` are the device state; `cfg` is the constant input `cfg` (R6, R7);
`pending` is what the environment has issued, in the order of R50; `history` is what the outputs have
carried, oldest first (R28 (b)). No meaning reads `history`. -/
structure State where
  cfg : Params
  uart : UartDevice
  hdx : HalfDuplexPdc
  pending : List Input
  history : List Event
  deriving DecidableEq, Repr

/-- Why the machine stops. -/
inductive Fault where
  /-- Raised by every operation and engine step once a ProtocolViolation has ended the session: no operation
  has a step, reset included (R227, R264). Safe: the spec gives no step there either. -/
  | sessionOver
  deriving DecidableEq, Repr

/-- Why the machine gives a step no meaning. -/
inductive Refusal where
  /-- Raised by `exec` for an instruction without a meaning: there is none. Safe. -/
  | notModelled (mnemonic : String)
  /-- Raised by an engine step when `XFER_ENGINE` is the null engine, which has no steps (R213). Safe. -/
  | noTransferEngine
  /-- Raised by an engine step for a channel that is not armed: "A disarmed channel's engine has no step"
  (R215 (e)). Safe. -/
  | channelDisarmed
  deriving DecidableEq, Repr

/-- A disarmed, empty channel (R29). -/
def DmaChannel.reset : DmaChannel where
  currentPointer := 0
  currentCount := 0
  nextPointer := 0
  nextCount := 0
  transferEnabled := false

/-- The UART at creation: all zero but TXEMPTY (R29, R261). -/
def UartDevice.created (c : Params) : UartDevice where
  mode := 0
  status := bitMask c.statusBits.txempty
  interruptMask := 0
  rxHolding := 0
  baudDivisor := 0
  frameNumber := 0
  rxEnabled := false
  txEnabled := false
  rxChannel := .reset
  txChannel := .reset
  fault := false

/-- The half-duplex unit at creation: all zero, both enables off (R27, R265). -/
def HalfDuplexPdc.created : HalfDuplexPdc where
  pointer := 0
  count := 0
  nextPointer := 0
  nextCount := 0
  rxEnabled := false
  txEnabled := false
  fault := false

/-- The machine right after creation with the given parameters: nothing issued, nothing output (R261). -/
def State.createdWith (c : Params) : State where
  cfg := c
  uart := .created c
  hdx := .created
  pending := []
  history := []

/-- The machine right after reset, at the default parameters (R29, R261). -/
def State.reset : State := .createdWith defaultParams

end Sys2Proof.Machine
end

