-- ==== Sys2Proof/Machine/Ops.lean ====
section
/-! DEFINITION. The operations the meanings share: the guard of the fault state, raising a ProtocolViolation,
the outputs, the status bits, the channels, the reset of a unit, and taking the next input. -/

namespace Sys2Proof.Machine

/-- The outcome of one step of this machine. -/
abbrev Result := Host.Outcome State Fault Refusal

/-! ### The fault state -/

/-- A ProtocolViolation has ended the session: in either unit, since the host then halts the whole emulated
machine (`60_exceptions.md` R226, R227). -/
def State.sessionOver (s : State) : Bool := s.uart.fault || s.hdx.fault

/-- One operation: in the fault state it has no step (R227), otherwise it completes (R223). -/
def operate (f : State → State) (s : State) : Result :=
  if s.sessionOver then .fault .sessionOver else .next (f s)

/-- Puts one event on the output ports. -/
def State.record (s : State) (e : Event) : State := { s with history := s.history ++ [e] }

/-- `raise ProtocolViolation(reason)`: the unit's sticky fault flag is set and the reason reported, and the
operation has no other effect (R226, R231). -/
def raiseViolation (t : Target) (v : Violation) (s : State) : State :=
  match t with
  | .uart => { s with uart := { s.uart with fault := true } }.record (.fault .uart v)
  | .hdx => { s with hdx := { s.hdx with fault := true } }.record (.fault .hdx v)

/-! ### Outputs -/

/-- The value of a read goes back to the bus master (R5). -/
def returnValue (t : Target) (v : Word) (s : State) : State := s.record (.readData t v)

/-- A read without side effect (`20_memory.md` R46). -/
def readPlain (t : Target) (f : State → Word) : State → Result :=
  operate fun s => returnValue t (f s) s

/-- `TxEmit(b)` (R8). -/
def emitByte (b : Byte) (s : State) : State := s.record (.tx b)

/-- `Action(a)`: the action goes on `pdc_action` (R8, R156). -/
def putAction (t : Target) (a : Action) (s : State) : State := s.record (.action t a)

/-- The actions a transfer engine acts on (`46_pdc_actions.md` R211). -/
def Action.isTransfer : Action → Bool
  | .none => false
  | .stateChanged => false
  | .startRx => true
  | .stopRx => true
  | .startTx => true
  | .stopTx => true

/-- What the UART core does with an action: a start or stop is handed to the engine, and the null engine
only logs it (R211, R213). -/
def handleAction (a : Action) (s : State) : State :=
  if a.isTransfer = true ∧ s.cfg.xferEngine = .null then s.record (.log a) else s

/-- The end of a PDC write of the UART: the action goes out and the core handles it (R210 (2), (3)). -/
def uartAction (a : Action) (s : State) : State := handleAction a (putAction .uart a s)

/-! ### Status bits and the interrupt line -/

/-- `S.status.NAME`. -/
def State.flag (s : State) (f : StatusFlag) : Bool := testBit s.uart.status (statusPos s.cfg.statusBits f)

/-- Writes one status bit and leaves every other bit as it was (R8). -/
def State.writeFlag (s : State) (f : StatusFlag) (b : Bool) : State :=
  { s with uart := { s.uart with status := writeBit s.uart.status (statusPos s.cfg.statusBits f) b } }

/-- `IrqLevel(S)`, the `irq` output at every moment (R232). -/
def irqLevel (s : State) : Bool := latch s.uart.status s.uart.interruptMask

/-- `rx_ready`, the constant 1 (`41_uart_data.md` R120). -/
def rxReady (_ : State) : Bool := true

/-! ### The descriptor unit -/

/-- `START_RX` or `START_TX`. -/
def startAction : Direction → Action
  | .rx => .startRx
  | .tx => .startTx

/-- `STOP_RX` or `STOP_TX`. -/
def stopAction : Direction → Action
  | .rx => .stopRx
  | .tx => .stopTx

/-- The classification of a current-count write, by the stored count and the enable of the direction
(`44_pdc.md` R159, R163; `45_pdc_half_duplex.md` R193, R194). -/
def classifyCount (d : Direction) (armed : Bool) (n : Count) : Action :=
  if armed then (if n = 0 then stopAction d else startAction d) else .none

/-- `next_count_action` (R167). -/
def nextCountAction (c : Params) (d : Direction) (armed : Bool) (n : Count) : Action :=
  match c.pdcNextCountAction with
  | .none => .none
  | .stateChanged => .stateChanged
  | .startStop => classifyCount d armed n

/-- The UART's channel of a direction. -/
def State.channel (s : State) : Direction → DmaChannel
  | .rx => s.uart.rxChannel
  | .tx => s.uart.txChannel

/-- Changes the UART's channel of a direction. -/
def State.mapChannel (s : State) (d : Direction) (f : DmaChannel → DmaChannel) : State :=
  match d with
  | .rx => { s with uart := { s.uart with rxChannel := f s.uart.rxChannel } }
  | .tx => { s with uart := { s.uart with txChannel := f s.uart.txChannel } }

/-- The half-duplex unit's enable of a direction. -/
def State.hdxEnabled (s : State) : Direction → Bool
  | .rx => s.hdx.rxEnabled
  | .tx => s.hdx.txEnabled

/-- Sets both enables of the half-duplex unit. -/
def State.setHdxEnables (s : State) (rxOn txOn : Bool) : State :=
  { s with hdx := { s.hdx with rxEnabled := rxOn, txEnabled := txOn } }

/-! ### Reset of a unit -/

/-- The reset of the UART: every field but the fault flag (`70_reset_and_hazards.md` R260). -/
def resetUart (s : State) : State :=
  { s with
    uart :=
      { mode := 0
        status := bitMask s.cfg.statusBits.txempty
        interruptMask := 0
        rxHolding := 0
        baudDivisor := 0
        frameNumber := 0
        rxEnabled := false
        txEnabled := false
        rxChannel :=
          { currentPointer := 0, currentCount := 0, nextPointer := 0, nextCount := 0, transferEnabled := false }
        txChannel :=
          { currentPointer := 0, currentCount := 0, nextPointer := 0, nextCount := 0, transferEnabled := false }
        fault := s.uart.fault } }

/-- The reset of the half-duplex unit: every field but the fault flag (R265). -/
def resetHdx (s : State) : State :=
  { s with
    hdx :=
      { pointer := 0
        count := 0
        nextPointer := 0
        nextCount := 0
        rxEnabled := false
        txEnabled := false
        fault := s.hdx.fault } }

/-! ### Taking the next input -/

/-- The next input in the order of R50, and the machine without it. -/
def nextInput (s : State) : Option (Input × State) :=
  match s.pending with
  | [] => none
  | x :: rest => some (x, { s with pending := rest })

/-- Issues the operation of a table row as the next one the machine performs. Bits that are none of R61's forms
and no command row's value stand for no operation, so nothing is issued and the state is as it was: R79 calls
such a word illegal and R76 gives it no reason, and this is a DESIGN CHOICE (assumption log 23). -/
def issueTableWord (s : State) (nbits w : Nat) : State :=
  match requestOfTableWord s.cfg nbits w with
  | some r => { s with pending := .op r :: s.pending }
  | none => s

end Sys2Proof.Machine
end

