-- ==== Sys2Proof/Machine/HalfDuplex.lean ====
section
/-! DEFINITION. The stand-alone half-duplex descriptor unit: shared storage and the interlock
(`45_pdc_half_duplex.md`). -/

namespace Sys2Proof.Machine

/-- A write of the shared current pointer through either name (R191). -/
def hdxWritePointer (v : Word) : State → Result :=
  operate fun s => putAction .hdx .none { s with hdx := { s.hdx with pointer := v } }

/-- A write of the shared next pointer through either name (R196). -/
def hdxWriteNextPointer (v : Word) : State → Result :=
  operate fun s => putAction .hdx .none { s with hdx := { s.hdx with nextPointer := v } }

/-- A write of the shared current count through the name of a direction, classified by that direction's
enable (R193, R194). -/
def hdxWriteCount (d : Direction) (v : Word) : State → Result :=
  operate fun s =>
    putAction .hdx (classifyCount d (s.hdxEnabled d) (trunc16 v))
      { s with hdx := { s.hdx with count := trunc16 v } }

/-- A write of the shared next count through the name of a direction (R197). -/
def hdxWriteNextCount (d : Direction) (v : Word) : State → Result :=
  operate fun s =>
    putAction .hdx (nextCountAction s.cfg d (s.hdxEnabled d) (trunc16 v))
      { s with hdx := { s.hdx with nextCount := trunc16 v } }

/-- RXTEN forces the transmit direction off (R200). -/
def doHdxRxten (s : State) : State := s.setHdxEnables true false

/-- TXTEN forces the receive direction off (R201). -/
def doHdxTxten (s : State) : State := s.setHdxEnables false true

/-- Disabling either direction disables both (R202). -/
def doHdxDisable (s : State) : State := s.setHdxEnables false false

/-- The effect of a PTCR write without dual enable: the enables first, then the disables (R198). -/
def doHdxPtcr (v : Word) (s : State) : State :=
  let s1 := if testBit v s.cfg.ptcrBits.rxten then doHdxRxten s else s
  let s2 := if testBit v s.cfg.ptcrBits.txten then doHdxTxten s1 else s1
  if testBit v s.cfg.ptcrBits.rxtdis || testBit v s.cfg.ptcrBits.txtdis then doHdxDisable s2 else s2

/-- The dual enable is fatal and changes no enable; there is no action (R199). -/
def dualEnableViolation (v : Word) (s : State) : State :=
  raiseViolation .hdx (.halfDuplexDualEnable v) s

/-- `W PTCR, value` of the half-duplex unit (R198): the dual-enable check comes first. -/
def execHdxWPtcr (v : Word) : State → Result :=
  operate fun s =>
    if dualEnable s.cfg v then dualEnableViolation v s
    else putAction .hdx .stateChanged (doHdxPtcr v s)

/-- `PTCR` with both enables (R199): the violation is taken. -/
def execHdxPtcrDualen (v : Word) : State → Result := operate (dualEnableViolation v)

/-- `PTCR.RXTEN` of the half-duplex unit (R200). -/
def execHdxPtcrRxten (_ : Word) : State → Result :=
  operate fun s => putAction .hdx .stateChanged (doHdxRxten s)

/-- `PTCR.TXTEN` of the half-duplex unit (R201). -/
def execHdxPtcrTxten (_ : Word) : State → Result :=
  operate fun s => putAction .hdx .stateChanged (doHdxTxten s)

/-- `PTCR.RXTDIS` of the half-duplex unit (R202). -/
def execHdxPtcrRxtdis (_ : Word) : State → Result :=
  operate fun s => putAction .hdx .stateChanged (doHdxDisable s)

/-- `PTCR.TXTDIS` of the half-duplex unit (R202). -/
def execHdxPtcrTxtdis (_ : Word) : State → Result :=
  operate fun s => putAction .hdx .stateChanged (doHdxDisable s)

/-- `W RPR, value`, half-duplex (R191). -/
def execHdxWRpr (v : Word) : State → Result := hdxWritePointer v

/-- `W TPR, value`, half-duplex (R191). -/
def execHdxWTpr (v : Word) : State → Result := hdxWritePointer v

/-- `R RPR`, half-duplex (R192). -/
def execHdxRRpr : State → Result := readPlain .hdx fun s => s.hdx.pointer

/-- `R TPR`, half-duplex (R192). -/
def execHdxRTpr : State → Result := readPlain .hdx fun s => s.hdx.pointer

/-- `W RCR, value`, half-duplex (R193). -/
def execHdxWRcr (v : Word) : State → Result := hdxWriteCount .rx v

/-- `W TCR, value`, half-duplex (R194). -/
def execHdxWTcr (v : Word) : State → Result := hdxWriteCount .tx v

/-- `R RCR`, half-duplex (R195). -/
def execHdxRRcr : State → Result := readPlain .hdx fun s => zextCount s.hdx.count

/-- `R TCR`, half-duplex (R195). -/
def execHdxRTcr : State → Result := readPlain .hdx fun s => zextCount s.hdx.count

/-- `W RNPR, value`, half-duplex (R196). -/
def execHdxWRnpr (v : Word) : State → Result := hdxWriteNextPointer v

/-- `W TNPR, value`, half-duplex (R196). -/
def execHdxWTnpr (v : Word) : State → Result := hdxWriteNextPointer v

/-- `R RNPR`, half-duplex (R196). -/
def execHdxRRnpr : State → Result := readPlain .hdx fun s => s.hdx.nextPointer

/-- `R TNPR`, half-duplex (R196). -/
def execHdxRTnpr : State → Result := readPlain .hdx fun s => s.hdx.nextPointer

/-- `W RNCR, value`, half-duplex (R197). -/
def execHdxWRncr (v : Word) : State → Result := hdxWriteNextCount .rx v

/-- `W TNCR, value`, half-duplex (R197). -/
def execHdxWTncr (v : Word) : State → Result := hdxWriteNextCount .tx v

/-- `R RNCR`, half-duplex (R197). -/
def execHdxRRncr : State → Result := readPlain .hdx fun s => zextCount s.hdx.nextCount

/-- `R TNCR`, half-duplex (R197). -/
def execHdxRTncr : State → Result := readPlain .hdx fun s => zextCount s.hdx.nextCount

/-- `R PTSR`, half-duplex (R203). -/
def execHdxRPtsr : State → Result :=
  readPlain .hdx fun s => ptsrWord s.cfg.ptsrBits s.hdx.rxEnabled s.hdx.txEnabled

end Sys2Proof.Machine
end

