-- ==== Sys2Proof/Machine/Pdc.lean ====
section
/-! DEFINITION. The full-duplex descriptor unit of the UART (`44_pdc.md`), with what the core does with each
action (`46_pdc_actions.md` R210 to R213). -/

namespace Sys2Proof.Machine

/-- A write of a current pointer: all 32 bits, action NONE (R157, R161). -/
def writePointer (d : Direction) (v : Word) : State → Result :=
  operate fun s => uartAction .none (s.mapChannel d fun ch => { ch with currentPointer := v })

/-- A write of a next pointer (R165, R169). -/
def writeNextPointer (d : Direction) (v : Word) : State → Result :=
  operate fun s => uartAction .none (s.mapChannel d fun ch => { ch with nextPointer := v })

/-- A write of a current count: the low half is stored and classified (R159, R163). -/
def writeCount (d : Direction) (v : Word) : State → Result :=
  operate fun s =>
    uartAction (classifyCount d (s.channel d).transferEnabled (trunc16 v))
      (s.mapChannel d fun ch => { ch with currentCount := trunc16 v })

/-- A write of a next count (R167, R171). -/
def writeNextCount (d : Direction) (v : Word) : State → Result :=
  operate fun s =>
    uartAction (nextCountAction s.cfg d (s.channel d).transferEnabled (trunc16 v))
      (s.mapChannel d fun ch => { ch with nextCount := trunc16 v })

/-- Switches a channel on or off (R174, R175, R177, R178). -/
def setArmed (d : Direction) (b : Bool) (s : State) : State :=
  s.mapChannel d fun ch => { ch with transferEnabled := b }

/-- The command of one PTCR bit (R174, R175, R177, R178). -/
def doPtcr : PtcrCommand → State → State
  | .rxten => setArmed .rx true
  | .rxtdis => setArmed .rx false
  | .txten => setArmed .tx true
  | .txtdis => setArmed .tx false

/-- `W PTCR, value`: the commands in order, and STATE_CHANGED whatever they were (R173). -/
def execWPtcr (v : Word) : State → Result :=
  operate fun s =>
    uartAction .stateChanged ((ptcrCommandsIn s.cfg v).foldl (fun s k => doPtcr k s) s)

/-- `PTCR.RXTEN` (R174). -/
def execPtcrRxten (_ : Word) : State → Result :=
  operate fun s => uartAction .stateChanged (doPtcr .rxten s)

/-- `PTCR.RXTDIS` (R175). -/
def execPtcrRxtdis (_ : Word) : State → Result :=
  operate fun s => uartAction .stateChanged (doPtcr .rxtdis s)

/-- `PTCR.TXTEN` (R177). -/
def execPtcrTxten (_ : Word) : State → Result :=
  operate fun s => uartAction .stateChanged (doPtcr .txten s)

/-- `PTCR.TXTDIS` (R178). -/
def execPtcrTxtdis (_ : Word) : State → Result :=
  operate fun s => uartAction .stateChanged (doPtcr .txtdis s)

/-- `W RPR, value` (R157). -/
def execWRpr (v : Word) : State → Result := writePointer .rx v

/-- `W RCR, value` (R159). -/
def execWRcr (v : Word) : State → Result := writeCount .rx v

/-- `W TPR, value` (R161). -/
def execWTpr (v : Word) : State → Result := writePointer .tx v

/-- `W TCR, value` (R163). -/
def execWTcr (v : Word) : State → Result := writeCount .tx v

/-- `W RNPR, value` (R165). -/
def execWRnpr (v : Word) : State → Result := writeNextPointer .rx v

/-- `W RNCR, value` (R167). -/
def execWRncr (v : Word) : State → Result := writeNextCount .rx v

/-- `W TNPR, value` (R169). -/
def execWTnpr (v : Word) : State → Result := writeNextPointer .tx v

/-- `W TNCR, value` (R171). -/
def execWTncr (v : Word) : State → Result := writeNextCount .tx v

/-- `R RPR` (R158). -/
def execRRpr : State → Result := readPlain .uart fun s => s.uart.rxChannel.currentPointer

/-- `R RCR` (R160). -/
def execRRcr : State → Result := readPlain .uart fun s => zextCount s.uart.rxChannel.currentCount

/-- `R TPR` (R162). -/
def execRTpr : State → Result := readPlain .uart fun s => s.uart.txChannel.currentPointer

/-- `R TCR` (R164). -/
def execRTcr : State → Result := readPlain .uart fun s => zextCount s.uart.txChannel.currentCount

/-- `R RNPR` (R166). -/
def execRRnpr : State → Result := readPlain .uart fun s => s.uart.rxChannel.nextPointer

/-- `R RNCR` (R168). -/
def execRRncr : State → Result := readPlain .uart fun s => zextCount s.uart.rxChannel.nextCount

/-- `R TNPR` (R170). -/
def execRTnpr : State → Result := readPlain .uart fun s => s.uart.txChannel.nextPointer

/-- `R TNCR` (R172). -/
def execRTncr : State → Result := readPlain .uart fun s => zextCount s.uart.txChannel.nextCount

/-- `R PTSR` (R176). -/
def execRPtsr : State → Result :=
  readPlain .uart fun s =>
    ptsrWord s.cfg.ptsrBits s.uart.rxChannel.transferEnabled s.uart.txChannel.transferEnabled

end Sys2Proof.Machine
end

