-- ==== Sys2Proof/Machine/Reset.lean ====
section
/-! DEFINITION. The reset request (`70_reset_and_hazards.md` R260 to R266). -/

namespace Sys2Proof.Machine

/-- `RESET` (R260); for the half-duplex unit, the request of the peripheral that hosts it (R265). No byte, no
action, no log line. -/
def execReset (t : Target) : State → Result :=
  operate fun s =>
    match t with
    | .uart => resetUart s
    | .hdx => resetHdx s

end Sys2Proof.Machine
end

