-- ==== Sys2Proof/Machine/UartControl.lean ====
section
/-! DEFINITION. The control register CR and its seven commands (`40_uart_control.md`). -/

namespace Sys2Proof.Machine

/-- RSTRX (R91). -/
def doRstrx (s : State) : State :=
  let s1 := s.writeFlag .rxbuff false
  { s1 with uart := { s1.uart with rxEnabled := false } }

/-- RSTTX (R92). -/
def doRsttx (s : State) : State :=
  let s1 := s.writeFlag .txempty true
  { s1 with uart := { s1.uart with txEnabled := false } }

/-- RXEN (R93). -/
def doRxen (s : State) : State := { s with uart := { s.uart with rxEnabled := true } }

/-- RXDIS (R94). -/
def doRxdis (s : State) : State := { s with uart := { s.uart with rxEnabled := false } }

/-- TXEN (R95). -/
def doTxen (s : State) : State :=
  let s1 := s.writeFlag .txrdy true
  { s1 with uart := { s1.uart with txEnabled := true } }

/-- TXDIS (R96). -/
def doTxdis (s : State) : State := { s with uart := { s.uart with txEnabled := false } }

/-- RSTSTA (R97). -/
def doRststa (s : State) : State :=
  ((s.writeFlag .pare false).writeFlag .frame false).writeFlag .ovre false

/-- The command of one CR bit. -/
def doCr : CrCommand → State → State
  | .rstrx => doRstrx
  | .rsttx => doRsttx
  | .rxen => doRxen
  | .rxdis => doRxdis
  | .txen => doTxen
  | .txdis => doTxdis
  | .rststa => doRststa

/-- All commands of a written value, in the fixed order (R90). -/
def doCrWrite (v : Word) (s : State) : State :=
  (crCommandsIn s.cfg v).foldl (fun s k => doCr k s) s

/-- `W CR, value` (R90, R99). -/
def execWCr (v : Word) : State → Result := operate (doCrWrite v)

/-- `CR.RSTRX` (R91). -/
def execCrRstrx (_ : Word) : State → Result := operate doRstrx

/-- `CR.RSTTX` (R92). -/
def execCrRsttx (_ : Word) : State → Result := operate doRsttx

/-- `CR.RXEN` (R93). -/
def execCrRxen (_ : Word) : State → Result := operate doRxen

/-- `CR.RXDIS` (R94). -/
def execCrRxdis (_ : Word) : State → Result := operate doRxdis

/-- `CR.TXEN` (R95). -/
def execCrTxen (_ : Word) : State → Result := operate doTxen

/-- `CR.TXDIS` (R96). -/
def execCrTxdis (_ : Word) : State → Result := operate doTxdis

/-- `CR.RSTSTA` (R97). -/
def execCrRststa (_ : Word) : State → Result := operate doRststa

end Sys2Proof.Machine
end

