-- ==== Sys2Proof/Machine/UartData.lean ====
section
/-! DEFINITION. Status, the holding registers and the byte delivery (`41_uart_data.md`). -/

namespace Sys2Proof.Machine

/-- `R SR` (R110). -/
def execRSr : State → Result := readPlain .uart fun s => s.uart.status

/-- `R RHR` (R112, R113): the byte as stored, valid or not, and RXRDY cleared. -/
def execRRhr : State → Result :=
  operate fun s => returnValue .uart (zextByte s.uart.rxHolding) (s.writeFlag .rxrdy false)

/-- `W THR, value` (R114). With `TX_GATE`, a disabled transmitter emits nothing (R122). -/
def execWThr (v : Word) : State → Result :=
  operate fun s => if s.cfg.txGate && !s.uart.txEnabled then s else emitByte (trunc8 v) s

/-- One byte arrives: overrun when RXRDY is set (R119), else it is accepted (R117). With `RX_GATE`, a disabled
receiver drops it without a trace (R122). -/
def arrive (b : Byte) (s : State) : State :=
  if s.cfg.rxGate && !s.uart.rxEnabled then s
  else if s.flag .rxrdy then s.writeFlag .ovre true
  else { s with uart := { s.uart with rxHolding := b } }.writeFlag .rxrdy true

/-- `RXDELIVER(bytes)` (R116): the length is checked first (R118). -/
def execRxDeliver (bytes : List Byte) : State → Result :=
  operate fun s =>
    match bytes with
    | [b] => arrive b s
    | _ => raiseViolation .uart (.badDeliverySize bytes.length) s

end Sys2Proof.Machine
end

