-- ==== Sys2Proof/Machine/UartInert.lean ====
section
/-! DEFINITION. The inert registers MR, BRGR, FNR and the identification registers CIDR, EXID
(`43_uart_inert_id.md`). -/

namespace Sys2Proof.Machine

/-- `W MR, value` (R140). -/
def execWMr (v : Word) : State → Result := operate fun s => { s with uart := { s.uart with mode := v } }

/-- `R MR` (R141). -/
def execRMr : State → Result := readPlain .uart fun s => s.uart.mode

/-- `W BRGR, value` (R142). -/
def execWBrgr (v : Word) : State → Result :=
  operate fun s => { s with uart := { s.uart with baudDivisor := v } }

/-- `R BRGR` (R143). -/
def execRBrgr : State → Result := readPlain .uart fun s => s.uart.baudDivisor

/-- `W FNR, value` (R144). -/
def execWFnr (v : Word) : State → Result :=
  operate fun s => { s with uart := { s.uart with frameNumber := v } }

/-- `R FNR` (R145). -/
def execRFnr : State → Result := readPlain .uart fun s => s.uart.frameNumber

/-- `R CIDR` (R146). -/
def execRCidr : State → Result := readPlain .uart fun s => s.cfg.chipId

/-- `R EXID` (R147). -/
def execRExid : State → Result := readPlain .uart fun s => s.cfg.extId

end Sys2Proof.Machine
end

