-- ==== Sys2Proof/Machine/UartMask.lean ====
section
/-! DEFINITION. The interrupt mask registers IER, IDR, IMR (`42_uart_irqmask.md`). -/

namespace Sys2Proof.Machine

/-- `W IER, value` (R130, R131). -/
def execWIer (v : Word) : State → Result :=
  operate fun s =>
    { s with uart := { s.uart with interruptMask := s.uart.interruptMask ||| ierOperand s.cfg v } }

/-- `W IDR, value` (R132). -/
def execWIdr (v : Word) : State → Result :=
  operate fun s => { s with uart := { s.uart with interruptMask := s.uart.interruptMask &&& ~~~ v } }

/-- `R IMR` (R134). -/
def execRImr : State → Result := readPlain .uart fun s => s.uart.interruptMask

end Sys2Proof.Machine
end

