-- ==== Sys2Proof/Machine/Dispatch.lean ====
section
/-! DEFINITION. One arm per instruction, each one call of its meaning. -/

namespace Sys2Proof.Machine

/-- The meaning of every instruction. -/
def exec (i : Instr) (s : State) : Host.Outcome State Fault Refusal :=
  match i with
  | .rMr => Sys2Proof.Machine.execRMr s
  | .rImr => Sys2Proof.Machine.execRImr s
  | .rSr => Sys2Proof.Machine.execRSr s
  | .rRhr => Sys2Proof.Machine.execRRhr s
  | .rBrgr => Sys2Proof.Machine.execRBrgr s
  | .rCidr => Sys2Proof.Machine.execRCidr s
  | .rExid => Sys2Proof.Machine.execRExid s
  | .rFnr => Sys2Proof.Machine.execRFnr s
  | .rRpr => Sys2Proof.Machine.execRRpr s
  | .rRcr => Sys2Proof.Machine.execRRcr s
  | .rTpr => Sys2Proof.Machine.execRTpr s
  | .rTcr => Sys2Proof.Machine.execRTcr s
  | .rRnpr => Sys2Proof.Machine.execRRnpr s
  | .rRncr => Sys2Proof.Machine.execRRncr s
  | .rTnpr => Sys2Proof.Machine.execRTnpr s
  | .rTncr => Sys2Proof.Machine.execRTncr s
  | .rPtsr => Sys2Proof.Machine.execRPtsr s
  | .wCr v => Sys2Proof.Machine.execWCr v s
  | .wMr v => Sys2Proof.Machine.execWMr v s
  | .wIer v => Sys2Proof.Machine.execWIer v s
  | .wIdr v => Sys2Proof.Machine.execWIdr v s
  | .wThr v => Sys2Proof.Machine.execWThr v s
  | .wBrgr v => Sys2Proof.Machine.execWBrgr v s
  | .wFnr v => Sys2Proof.Machine.execWFnr v s
  | .wRpr v => Sys2Proof.Machine.execWRpr v s
  | .wRcr v => Sys2Proof.Machine.execWRcr v s
  | .wTpr v => Sys2Proof.Machine.execWTpr v s
  | .wTcr v => Sys2Proof.Machine.execWTcr v s
  | .wRnpr v => Sys2Proof.Machine.execWRnpr v s
  | .wRncr v => Sys2Proof.Machine.execWRncr v s
  | .wTnpr v => Sys2Proof.Machine.execWTnpr v s
  | .wTncr v => Sys2Proof.Machine.execWTncr v s
  | .wPtcr v => Sys2Proof.Machine.execWPtcr v s
  | .rxDeliver bytes => Sys2Proof.Machine.execRxDeliver bytes s
  | .reset t => Sys2Proof.Machine.execReset t s
  | .crRstrx v => Sys2Proof.Machine.execCrRstrx v s
  | .crRsttx v => Sys2Proof.Machine.execCrRsttx v s
  | .crRxen v => Sys2Proof.Machine.execCrRxen v s
  | .crRxdis v => Sys2Proof.Machine.execCrRxdis v s
  | .crTxen v => Sys2Proof.Machine.execCrTxen v s
  | .crTxdis v => Sys2Proof.Machine.execCrTxdis v s
  | .crRststa v => Sys2Proof.Machine.execCrRststa v s
  | .ptcrRxten v => Sys2Proof.Machine.execPtcrRxten v s
  | .ptcrRxtdis v => Sys2Proof.Machine.execPtcrRxtdis v s
  | .ptcrTxten v => Sys2Proof.Machine.execPtcrTxten v s
  | .ptcrTxtdis v => Sys2Proof.Machine.execPtcrTxtdis v s
  | .hdxWRpr v => Sys2Proof.Machine.execHdxWRpr v s
  | .hdxWTpr v => Sys2Proof.Machine.execHdxWTpr v s
  | .hdxRRpr => Sys2Proof.Machine.execHdxRRpr s
  | .hdxRTpr => Sys2Proof.Machine.execHdxRTpr s
  | .hdxWRcr v => Sys2Proof.Machine.execHdxWRcr v s
  | .hdxWTcr v => Sys2Proof.Machine.execHdxWTcr v s
  | .hdxRRcr => Sys2Proof.Machine.execHdxRRcr s
  | .hdxRTcr => Sys2Proof.Machine.execHdxRTcr s
  | .hdxWRnpr v => Sys2Proof.Machine.execHdxWRnpr v s
  | .hdxWTnpr v => Sys2Proof.Machine.execHdxWTnpr v s
  | .hdxRRnpr => Sys2Proof.Machine.execHdxRRnpr s
  | .hdxRTnpr => Sys2Proof.Machine.execHdxRTnpr s
  | .hdxWRncr v => Sys2Proof.Machine.execHdxWRncr v s
  | .hdxWTncr v => Sys2Proof.Machine.execHdxWTncr v s
  | .hdxRRncr => Sys2Proof.Machine.execHdxRRncr s
  | .hdxRTncr => Sys2Proof.Machine.execHdxRTncr s
  | .hdxWPtcr v => Sys2Proof.Machine.execHdxWPtcr v s
  | .hdxRPtsr => Sys2Proof.Machine.execHdxRPtsr s
  | .hdxPtcrDualen v => Sys2Proof.Machine.execHdxPtcrDualen v s
  | .hdxPtcrRxten v => Sys2Proof.Machine.execHdxPtcrRxten v s
  | .hdxPtcrTxten v => Sys2Proof.Machine.execHdxPtcrTxten v s
  | .hdxPtcrRxtdis v => Sys2Proof.Machine.execHdxPtcrRxtdis v s
  | .hdxPtcrTxtdis v => Sys2Proof.Machine.execHdxPtcrTxtdis v s

end Sys2Proof.Machine
end

