-- ==== Sys2Proof/Machine/Engine.lean ====
section
/-! DEFINITION. Steps of an external transfer engine, within the bounds of `46_pdc_actions.md` R215. With the
null engine, the default, there are none (R213). -/

namespace Sys2Proof.Machine

/-- Writes a status bit if the step asks for it. -/
def writeFlagIf (f : StatusFlag) (b : Option Bool) (s : State) : State :=
  match b with
  | some b => s.writeFlag f b
  | none => s

/-- The four status bits an engine may set or clear (R215 (b)). -/
def applyEngineFlags (g : EngineFlags) (s : State) : State :=
  writeFlagIf .rxbuff g.rxbuff
    (writeFlagIf .txbufe g.txbufe (writeFlagIf .endtx g.endtx (writeFlagIf .endrx g.endrx s)))

/-- The four descriptor fields of a channel (R215 (b)); the enable is not among them (R215 (c)). -/
def storeDescriptor (d : Descriptor) (ch : DmaChannel) : DmaChannel :=
  { ch with
    currentPointer := d.currentPointer
    currentCount := d.currentCount
    nextPointer := d.nextPointer
    nextCount := d.nextCount }

/-- What an engine step does: the descriptor of its channel, the four status bits, and, for the receive
channel, the effect of a read of RHR, for the transmit channel, a byte on `tx` (R215 (b)). That no engine step
acts on the half-duplex unit, of which R215 does not speak, is a DESIGN CHOICE (assumption log 22). -/
def engineEffect (e : EngineStep) (s : State) : State :=
  match e with
  | .rx d g consume =>
    let s1 := applyEngineFlags g (s.mapChannel .rx (storeDescriptor d))
    if consume then s1.writeFlag .rxrdy false else s1
  | .tx d g emit =>
    let s1 := applyEngineFlags g (s.mapChannel .tx (storeDescriptor d))
    match emit with
    | some b => emitByte b s1
    | none => s1

/-- One engine step: none with the null engine (R213), none for a disarmed channel (R215 (e)). -/
def engineStep (e : EngineStep) (s : State) : Result :=
  if s.sessionOver then .fault .sessionOver
  else if s.cfg.xferEngine = .null then .refused .noTransferEngine
  else if (s.channel e.direction).transferEnabled then .next (engineEffect e s)
  else .refused .channelDisarmed

end Sys2Proof.Machine
end

