-- ==== Sys2Proof/Machine/Step.lean ====
section
/-! DEFINITION. One step of the machine: it takes the environment's next input, decodes it and runs it. -/

namespace Sys2Proof.Machine

/-- One operation as issued: decoded and run, or rejected by the violation decoding names
(`30_encoding.md` R63). -/
def perform (r : Request) (s : State) : Result :=
  match decode s.cfg r with
  | .ok i => exec i s
  | .error v => operate (raiseViolation r.target v) s

/-- One step. In the fault state there is none (`60_exceptions.md` R227). With nothing issued the state does not
change (`10_state.md` R11). -/
def step (s : State) : Host.Outcome State Fault Refusal :=
  if s.sessionOver then .fault .sessionOver
  else
    match nextInput s with
    | none => .next s
    | some (.op r, s1) => perform r s1
    | some (.engine e, s1) => engineStep e s1

/-- The state with the operation of a table row issued as the next one: the very next step runs it. -/
def State.withFetchWord (s : State) (nbits w : Nat) : State := issueTableWord s nbits w

end Sys2Proof.Machine
end

