-- ==== Sys2Proof/Safety.lean ====
section
/-! DEFINITION. What a safe run is, and the invariants of `10_state.md` section 7 and `45_pdc_half_duplex.md`
R205, in the terms claims use. -/

namespace Sys2Proof.Machine

/-- No ProtocolViolation has happened: the session goes on (R227). A run is safe while this holds. -/
abbrev State.Live (s : State) : Prop := s.sessionOver = false

/-- `S.status` has no bit outside the twelve names (R14). -/
abbrev State.StatusNamed (s : State) : Prop := s.uart.status &&& ~~~ statusDefined s.cfg.statusBits = 0

/-- The four bits that can be 1 with the null engine (R32). -/
def reachableStatus (b : StatusBits) : Word := maskOf [b.rxrdy, b.txrdy, b.ovre, b.txempty]

/-- With the null engine only RXRDY, TXRDY, OVRE and TXEMPTY can be 1 (R32, R33). -/
abbrev State.StatusReachable (s : State) : Prop :=
  s.cfg.xferEngine = .null → s.uart.status &&& ~~~ reachableStatus s.cfg.statusBits = 0

/-- TXEMPTY is 1 (R34). -/
abbrev State.TxemptySet (s : State) : Prop := s.flag .txempty = true

/-- `S.interrupt_mask` has no bit outside `IMR_DOMAIN` (R15, R131). -/
abbrev State.MaskInDomain (s : State) : Prop := s.uart.interruptMask &&& ~~~ s.cfg.imrDomain = 0

/-- RX-enable and TX-enable of the half-duplex unit are never both set (R205). -/
abbrev State.Interlocked (s : State) : Prop := ¬ (s.hdx.rxEnabled = true ∧ s.hdx.txEnabled = true)

/-- The invariant every step keeps. -/
structure State.Inv (s : State) : Prop where
  params : s.cfg.wellFormed = true
  statusNamed : s.StatusNamed
  statusReachable : s.StatusReachable
  txemptySet : s.TxemptySet
  maskInDomain : s.MaskInDomain
  interlocked : s.Interlocked

/-- The transmit stream in a history (R28 (b)). -/
def txStream (h : List Event) : List Byte :=
  h.filterMap fun
    | .tx b => some b
    | _ => none

/-- The actions a unit has put out, in order (R28 (b)). -/
def actionsOf (t : Target) (h : List Event) : List Action :=
  h.filterMap fun
    | .action t' a => if t' = t then some a else none
    | _ => none

/-- The log lines, each by the action it is about (R213, R229). -/
def logLines (h : List Event) : List Action :=
  h.filterMap fun
    | .log a => some a
    | _ => none

/-! ### Terms the claims are stated in -/

/-- The environment issues an operation, which is then the next one performed. -/
def issue (r : Request) (s : State) : State := { s with pending := .op r :: s.pending }

/-- The operation is rejected with this violation: the next step takes it and does nothing else. -/
abbrev Rejects (s : State) (r : Request) (v : Violation) : Prop :=
  step (issue r s) = .next (raiseViolation r.target v s)

/-- The offset holds a register of the unit that is read by `i` and cannot be written (R42, R63, R64). -/
abbrev ReadOnlyAt (s : State) (t : Target) (off : Nat) (i : Instr) : Prop :=
  step (issue (.read t 4 off) s) = exec i s ∧
    (∀ size, size ≠ 4 → Rejects s (.read t size off) (.illegalWidth .read off size)) ∧
    ∀ v, Rejects s (.write t 4 off v) (.illegalOffset .write off)

/-- The offset holds a register of the unit that is written as `f` says and cannot be read (R42, R63, R64). -/
abbrev WriteOnlyAt (s : State) (t : Target) (off : Nat) (f : Word → Instr) : Prop :=
  (∀ v, step (issue (.write t 4 off v) s) = exec (f v) s) ∧
    (∀ size v, size ≠ 4 → Rejects s (.write t size off v) (.illegalWidth .write off size)) ∧
    Rejects s (.read t 4 off) (.illegalOffset .read off)

/-- The status of `t` is that of `s` with the flags `g` gives a value, and no other bit, at that value. -/
abbrev StatusBecomes (s t : State) (g : StatusFlag → Option Bool) : Prop :=
  (∀ f, t.flag f = (g f).getD (s.flag f)) ∧
    ∀ p, (∀ f, statusPos s.cfg.statusBits f ≠ p) → testBit t.uart.status p = testBit s.uart.status p

/-- `t` is `s` but for the value of the status register. -/
abbrev SameButStatus (s t : State) : Prop :=
  t = { s with uart := { s.uart with status := t.uart.status } }

/-- Every status bit of `s` but the named ones is as it was. -/
abbrev StatusKeptBut (s t : State) (fs : List StatusFlag) : Prop :=
  ∀ p, (∀ f, f ∈ fs → statusPos s.cfg.statusBits f ≠ p) → testBit t.uart.status p = testBit s.uart.status p

/-- One action of the UART and, where it is a start or a stop, the log line the null engine adds. -/
abbrev ActionOut (es : List Event) : Prop :=
  ∃ a, es = [.action .uart a] ∨ (a.isTransfer = true ∧ es = [.action .uart a, .log a])

/-- The table of R222, with the rows of the half-duplex unit (`45_pdc_half_duplex.md`): the fields an
instruction can change, every other field of both units unchanged, and the events `es` it can put out. -/
def Frame (i : Instr) (s t : State) (es : List Event) : Prop :=
  let u := s.uart
  let h := s.hdx
  match i with
  | .rMr | .rImr | .rSr | .rBrgr | .rCidr | .rExid | .rFnr
  | .rRpr | .rRcr | .rTpr | .rTcr | .rRnpr | .rRncr | .rTnpr | .rTncr | .rPtsr =>
    t.uart = u ∧ t.hdx = h ∧ ∃ v, es = [.readData .uart v]
  | .rRhr =>
    t.uart = { u with status := t.uart.status } ∧ StatusKeptBut s t [.rxrdy] ∧ t.hdx = h ∧
      ∃ v, es = [.readData .uart v]
  | .wCr _ | .crRstrx _ | .crRsttx _ | .crRxen _ | .crRxdis _ | .crTxen _ | .crTxdis _ | .crRststa _ =>
    t.uart =
        { u with status := t.uart.status, rxEnabled := t.uart.rxEnabled, txEnabled := t.uart.txEnabled } ∧
      StatusKeptBut s t [.rxbuff, .txempty, .txrdy, .pare, .frame, .ovre] ∧ t.hdx = h ∧ es = []
  | .wMr _ => t.uart = { u with mode := t.uart.mode } ∧ t.hdx = h ∧ es = []
  | .wIer _ | .wIdr _ => t.uart = { u with interruptMask := t.uart.interruptMask } ∧ t.hdx = h ∧ es = []
  | .wThr _ => t.uart = u ∧ t.hdx = h ∧ (es = [] ∨ ∃ b, es = [.tx b])
  | .wBrgr _ => t.uart = { u with baudDivisor := t.uart.baudDivisor } ∧ t.hdx = h ∧ es = []
  | .wFnr _ => t.uart = { u with frameNumber := t.uart.frameNumber } ∧ t.hdx = h ∧ es = []
  | .wRpr _ =>
    t.uart = { u with rxChannel := { u.rxChannel with currentPointer := t.uart.rxChannel.currentPointer } } ∧
      t.hdx = h ∧ es = [.action .uart .none]
  | .wRnpr _ =>
    t.uart = { u with rxChannel := { u.rxChannel with nextPointer := t.uart.rxChannel.nextPointer } } ∧
      t.hdx = h ∧ es = [.action .uart .none]
  | .wTpr _ =>
    t.uart = { u with txChannel := { u.txChannel with currentPointer := t.uart.txChannel.currentPointer } } ∧
      t.hdx = h ∧ es = [.action .uart .none]
  | .wTnpr _ =>
    t.uart = { u with txChannel := { u.txChannel with nextPointer := t.uart.txChannel.nextPointer } } ∧
      t.hdx = h ∧ es = [.action .uart .none]
  | .wRcr _ =>
    t.uart = { u with rxChannel := { u.rxChannel with currentCount := t.uart.rxChannel.currentCount } } ∧
      t.hdx = h ∧ ActionOut es
  | .wRncr _ =>
    t.uart = { u with rxChannel := { u.rxChannel with nextCount := t.uart.rxChannel.nextCount } } ∧
      t.hdx = h ∧ ActionOut es
  | .wTcr _ =>
    t.uart = { u with txChannel := { u.txChannel with currentCount := t.uart.txChannel.currentCount } } ∧
      t.hdx = h ∧ ActionOut es
  | .wTncr _ =>
    t.uart = { u with txChannel := { u.txChannel with nextCount := t.uart.txChannel.nextCount } } ∧
      t.hdx = h ∧ ActionOut es
  | .wPtcr _ | .ptcrRxten _ | .ptcrRxtdis _ | .ptcrTxten _ | .ptcrTxtdis _ =>
    t.uart =
        { u with
          rxChannel := { u.rxChannel with transferEnabled := t.uart.rxChannel.transferEnabled }
          txChannel := { u.txChannel with transferEnabled := t.uart.txChannel.transferEnabled } } ∧
      t.hdx = h ∧ es = [.action .uart .stateChanged]
  | .rxDeliver [_] =>
    t.uart = { u with rxHolding := t.uart.rxHolding, status := t.uart.status } ∧
      StatusKeptBut s t [.rxrdy, .ovre] ∧ t.hdx = h ∧ es = []
  | .rxDeliver _ => t.uart = { u with fault := true } ∧ t.hdx = h ∧ ∃ v, es = [.fault .uart v]
  | .reset .uart => t.uart.fault = u.fault ∧ t.hdx = h ∧ es = []
  | .reset .hdx => t.uart = u ∧ t.hdx.fault = h.fault ∧ es = []
  | .hdxRRpr | .hdxRTpr | .hdxRRcr | .hdxRTcr | .hdxRRnpr | .hdxRTnpr | .hdxRRncr | .hdxRTncr | .hdxRPtsr =>
    t.uart = u ∧ t.hdx = h ∧ ∃ v, es = [.readData .hdx v]
  | .hdxWRpr _ | .hdxWTpr _ =>
    t.uart = u ∧ t.hdx = { h with pointer := t.hdx.pointer } ∧ es = [.action .hdx .none]
  | .hdxWRnpr _ | .hdxWTnpr _ =>
    t.uart = u ∧ t.hdx = { h with nextPointer := t.hdx.nextPointer } ∧ es = [.action .hdx .none]
  | .hdxWRcr _ | .hdxWTcr _ =>
    t.uart = u ∧ t.hdx = { h with count := t.hdx.count } ∧ ∃ a, es = [.action .hdx a]
  | .hdxWRncr _ | .hdxWTncr _ =>
    t.uart = u ∧ t.hdx = { h with nextCount := t.hdx.nextCount } ∧ ∃ a, es = [.action .hdx a]
  | .hdxPtcrRxten _ | .hdxPtcrTxten _ | .hdxPtcrRxtdis _ | .hdxPtcrTxtdis _ =>
    t.uart = u ∧ t.hdx = { h with rxEnabled := t.hdx.rxEnabled, txEnabled := t.hdx.txEnabled } ∧
      es = [.action .hdx .stateChanged]
  | .hdxPtcrDualen v =>
    t.uart = u ∧ t.hdx = { h with fault := true } ∧ es = [.fault .hdx (.halfDuplexDualEnable v)]
  | .hdxWPtcr v =>
    t.uart = u ∧
      ((t.hdx = { h with fault := true } ∧ es = [.fault .hdx (.halfDuplexDualEnable v)]) ∨
        (t.hdx = { h with rxEnabled := t.hdx.rxEnabled, txEnabled := t.hdx.txEnabled } ∧
          es = [.action .hdx .stateChanged]))

/-- The readable offsets of the UART window at the default `PDC_OFFSETS` (R63). -/
def readableOffsets : List Nat :=
  [0x04, 0x10, 0x14, 0x18, 0x20, 0x40, 0x44, 0x48,
    0x100, 0x104, 0x108, 0x10C, 0x110, 0x114, 0x118, 0x11C, 0x124]

/-- The writable offsets of the UART window at the default `PDC_OFFSETS` (R63). -/
def writableOffsets : List Nat :=
  [0x00, 0x04, 0x08, 0x0C, 0x1C, 0x20, 0x48,
    0x100, 0x104, 0x108, 0x10C, 0x110, 0x114, 0x118, 0x11C, 0x120]

/-- `t` is `s` but for the two enables of CR (R224). -/
abbrev SameButEnables (s t : State) : Prop :=
  t = { s with uart := { s.uart with rxEnabled := t.uart.rxEnabled, txEnabled := t.uart.txEnabled } }

/-- The byte an input sends if it is a legal THR write (R114, R115). -/
def thrByte : Input → Option Byte
  | .op (.write .uart size off v) =>
    if size = accessSize ∧ off = uartOffset .thr then some (trunc8 v) else none
  | _ => none

end Sys2Proof.Machine
end

