-- ==== Sys2Proof/Certificates/Slice0/Obligations.lean ====
section
/-! DEFINITION. The statements for the provers. Each docstring says which rule of spec/ it formalises; where a
statement rests on a choice of the model, it names the log entry. -/

open Sys2Proof Sys2Proof.Machine

/-! ### Encoding, decoding, the step -/

/-- A few operation words written out from the forms of R61 and the tables of R62, R66, R70 and R72, and what
they decode to at the default parameters. R61 is the spec's decision D18; the numeric positions and the PDC
offsets are general knowledge (D2, D3; log entry 1); the unit bit is log entry 3. Which row of R79 a CR or PTCR
write decodes to, the row of its one command or dual enable or else the row of the write, is the model's choice,
log entry 4. -/
def Obligations.SampleOperationWordsDecode : Prop :=
  decodeOpCode defaultParams ⟨.uart, 0b00000010100#11, 0⟩ = some .rSr ∧
  decodeOpCode defaultParams ⟨.uart, 0b01000000000#11, 0x5C#32⟩ = some (.wCr 0x5C#32) ∧
  decodeOpCode defaultParams ⟨.uart, 0b01000000000#11, 0x100#32⟩ = some (.crRststa 0x100#32) ∧
  decodeOpCode defaultParams ⟨.uart, 0b01000011100#11, 0x141#32⟩ = some (.wThr 0x141#32) ∧
  decodeOpCode defaultParams ⟨.uart, 0b10000000000#11, 0x41#32⟩ = some (.rxDeliver [0x41#8]) ∧
  decodeOpCode defaultParams ⟨.uart, 0b11000000000#11, 0⟩ = some (.reset .uart) ∧
  decodeOpCode defaultParams ⟨.uart, 0b01100100000#11, 0x1#32⟩ = some (.ptcrRxten 0x1#32) ∧
  decodeOpCode defaultParams ⟨.uart, 0b00100000100#11, 0⟩ = some .rRcr ∧
  decodeOpCode defaultParams ⟨.hdx, 0b00100000100#11, 0⟩ = some .hdxRRcr ∧
  decodeOpCode defaultParams ⟨.hdx, 0b01100100000#11, 0x303#32⟩ = some (.hdxPtcrDualen 0x303#32)

/-- Decoding the encoding of a well-formed instruction gives it back, for all instructions, all operands and all
legal parameters. The packed form is R61's, the spec's decision D18; the unit beside it is log entry 3 and the
split of CR and PTCR writes into rows is log entry 4. -/
def Obligations.DecodeEncodeAgree : Prop :=
  ∀ (c : Params) (i : Instr), c.wellFormed = true → i.wellFormed c = true →
    decodeOpCode c (encode c i) = some i

/-- Each encoded operation has one meaning: what it decodes to is well-formed and encodes to it (R61, decision
D18; log entries 3 and 4). -/
def Obligations.DecodedOperationsEncodeBack : Prop :=
  ∀ (c : Params) (x : OpCode) (i : Instr), decodeOpCode c x = some i →
    i.wellFormed c = true ∧ encode c i = x

/-- A step performs the operation issued next: the instruction it decodes to is executed in the state without
that input, an operation that does not decode takes the violation decoding names, and with nothing issued the
state does not change. The order is the environment's (R50); the list that holds it is the model's, log entry 2;
the checks are R63's, decision D13. -/
def Obligations.StepRunsDecodedOperation : Prop :=
  ∀ s : State, s.Live →
    (∀ r rest i, s.pending = .op r :: rest → decode s.cfg r = .ok i →
      step s = exec i { s with pending := rest }) ∧
    (∀ r rest v, s.pending = .op r :: rest → decode s.cfg r = .error v →
      step s = .next (raiseViolation r.target v { s with pending := rest })) ∧
    (s.pending = [] → step s = .next s)

/-- R63, which the spec marks as its decision D13: a bus access of the UART is decided by the fault state, then
the width, then the offset for its direction, over the 17 readable and 16 writable offsets of the default map
(the PDC offsets are general knowledge, D3, log entry 1). R63 reads the UART's own fault flag; that the
half-duplex unit's fault ends the session for the UART too is the model's, log entry 10. -/
def Obligations.BusAccessChecksInOrder : Prop :=
  readableOffsets.length = 17 ∧ writableOffsets.length = 16 ∧
  ∀ (s : State) (size off : Nat) (v : Word), s.cfg.pdcOffsets = defaultPdcOffsets →
    (s.sessionOver = true →
      step (issue (.read .uart size off) s) = .fault .sessionOver ∧
      step (issue (.write .uart size off v) s) = .fault .sessionOver) ∧
    (s.Live → size ≠ 4 →
      Rejects s (.read .uart size off) (.illegalWidth .read off size) ∧
      Rejects s (.write .uart size off v) (.illegalWidth .write off size)) ∧
    (s.Live → size = 4 → off ∉ readableOffsets →
      Rejects s (.read .uart size off) (.illegalOffset .read off)) ∧
    (s.Live → size = 4 → off ∉ writableOffsets →
      Rejects s (.write .uart size off v) (.illegalOffset .write off)) ∧
    (s.Live → size = 4 → off ∈ readableOffsets →
      ∃ i, requestOf s.cfg i = .read .uart size off ∧ step (issue (.read .uart size off) s) = exec i s) ∧
    (s.Live → size = 4 → off ∈ writableOffsets →
      ∃ i, requestOf s.cfg i = .write .uart size off v ∧
        step (issue (.write .uart size off v) s) = exec i s)

/-- The half-duplex unit's window: the ten PDC offsets, decided as R63 (decision D13) decides. The header of
45_pdc_half_duplex.md applies R63 to the unit; that no other offset is this unit's is the model's, log entry 9. -/
def Obligations.HalfDuplexAccessChecks : Prop :=
  ∀ (s : State) (off : Nat) (v : Word), s.Live → s.cfg.wellFormed = true →
    (∀ size, size ≠ 4 → Rejects s (.read .hdx size off) (.illegalWidth .read off size) ∧
      Rejects s (.write .hdx size off v) (.illegalWidth .write off size)) ∧
    ((∀ r, pdcOffset s.cfg.pdcOffsets r ≠ off) →
      Rejects s (.read .hdx 4 off) (.illegalOffset .read off) ∧
      Rejects s (.write .hdx 4 off v) (.illegalOffset .write off)) ∧
    (∀ r, pdcOffset s.cfg.pdcOffsets r = off →
      (r = .ptcr → Rejects s (.read .hdx 4 off) (.illegalOffset .read off)) ∧
      (r = .ptsr → Rejects s (.write .hdx 4 off v) (.illegalOffset .write off)) ∧
      (r ≠ .ptcr → ∃ i, requestOf s.cfg i = .read .hdx 4 off ∧
        step (issue (.read .hdx 4 off) s) = exec i s) ∧
      (r ≠ .ptsr → ∃ i, requestOf s.cfg i = .write .hdx 4 off v ∧
        step (issue (.write .hdx 4 off v) s) = exec i s))

/-- R42: an access whose size is not 4 is IllegalWidth and has no other effect, whatever its unit, offset and
value. -/
def Obligations.OnlyWordAccessesAreLegal : Prop :=
  ∀ (s : State) (t : Target) (size off : Nat) (v : Word), s.Live → size ≠ 4 →
    Rejects s (.read t size off) (.illegalWidth .read off size) ∧
    Rejects s (.write t size off v) (.illegalWidth .write off size)

/-- R43, which the spec marks as derived: a 4-byte access at an offset that is no multiple of 4 is
IllegalOffset, for any parameters. -/
def Obligations.MisalignedAccessIsIllegalOffset : Prop :=
  ∀ (s : State) (t : Target) (off : Nat) (v : Word), s.Live → off % 4 ≠ 0 →
    Rejects s (.read t 4 off) (.illegalOffset .read off) ∧
    Rejects s (.write t 4 off v) (.illegalOffset .write off)

/-- R64, which the spec marks as its decision D6: a read of a write-only register (CR, IER, IDR, THR, PTCR) and
a write of a read-only one (IMR, SR, RHR, CIDR, EXID, PTSR) is IllegalOffset. -/
def Obligations.WrongDirectionIsIllegalOffset : Prop :=
  ∀ (s : State) (v : Word), s.Live → s.cfg.wellFormed = true →
    (∀ r, r ∈ [UartReg.cr, .ier, .idr, .thr] →
      Rejects s (.read .uart 4 (uartOffset r)) (.illegalOffset .read (uartOffset r))) ∧
    Rejects s (.read .uart 4 (pdcOffset s.cfg.pdcOffsets .ptcr))
      (.illegalOffset .read (pdcOffset s.cfg.pdcOffsets .ptcr)) ∧
    (∀ r, r ∈ [UartReg.imr, .sr, .rhr, .cidr, .exid] →
      Rejects s (.write .uart 4 (uartOffset r) v) (.illegalOffset .write (uartOffset r))) ∧
    Rejects s (.write .uart 4 (pdcOffset s.cfg.pdcOffsets .ptsr) v)
      (.illegalOffset .write (pdcOffset s.cfg.pdcOffsets .ptsr))

/-! ### Faults -/

/-- R226 and R231, the spec's decision D13: an operation that ends the session sets the fault flag of its unit,
reports the reason and does nothing else: no other field changes, no value, byte or action goes out, and nothing
has a step after it. That the other unit stops too is log entry 10. -/
def Obligations.ViolationHasNoOtherEffect : Prop :=
  ∀ (s t : State) (r : Request), s.Live → step (issue r s) = .next t → t.sessionOver = true →
    t.cfg = s.cfg ∧ t.pending = s.pending ∧
    t.uart = { s.uart with fault := decide (r.target = .uart) } ∧
    t.hdx = { s.hdx with fault := decide (r.target = .hdx) } ∧
    (∃ v, t.history = s.history ++ [.fault r.target v]) ∧
    irqLevel t = irqLevel s ∧
    step t = .fault .sessionOver

/-- R228, the spec's decision D13: an operation ends the session exactly when its size is not 4, or its offset
holds no register in its direction, or it delivers other than one byte, or it is a half-duplex PTCR write with
RXTEN and TXTEN both 1; and each cause is reported with its reason and what the table lists. -/
def Obligations.ViolationCauses : Prop :=
  ∀ (s : State), s.Live → s.cfg.wellFormed = true →
    (∀ t size off, size ≠ 4 →
      Rejects s (.read t size off) (.illegalWidth .read off size)) ∧
    (∀ t size off v, size ≠ 4 →
      Rejects s (.write t size off v) (.illegalWidth .write off size)) ∧
    (∀ t off, readAt s.cfg t off = none → Rejects s (.read t 4 off) (.illegalOffset .read off)) ∧
    (∀ t off v, writeAt s.cfg t off v = none →
      Rejects s (.write t 4 off v) (.illegalOffset .write off)) ∧
    (∀ bytes, bytes.length ≠ 1 → Rejects s (.deliver bytes) (.badDeliverySize bytes.length)) ∧
    (∀ v, dualEnable s.cfg v = true →
      Rejects s (pdcWrite s.cfg .hdx .ptcr v) (.halfDuplexDualEnable v)) ∧
    (∀ r t, step (issue r s) = .next t → t.sessionOver = true →
      (∃ u size off, r = .read u size off ∧ (size ≠ 4 ∨ readAt s.cfg u off = none)) ∨
      (∃ u size off v, r = .write u size off v ∧ (size ≠ 4 ∨ writeAt s.cfg u off v = none)) ∨
      (∃ bytes, r = .deliver bytes ∧ bytes.length ≠ 1) ∨
      (∃ v, r = pdcWrite s.cfg .hdx .ptcr v ∧ dualEnable s.cfg v = true))

/-- R227 and R264, the spec's decision D13: in the fault state no operation has a step, reset included, whatever
is issued; a new session starts without fault. That one unit's fault ends the session for both is log entry 10. -/
def Obligations.FaultStateHasNoStep : Prop :=
  (∀ s : State, s.sessionOver = true →
    step s = .fault .sessionOver ∧ (∀ i, exec i s = .fault .sessionOver) ∧
    ∀ rest, step { s with pending := rest } = .fault .sessionOver) ∧
  ∀ c, (State.createdWith c).Live

/-- R223, which the spec marks as derived: outside the fault state every instruction and every operation, legal
or not, completes with a next state. -/
def Obligations.EveryOperationCompletes : Prop :=
  ∀ s : State, s.Live →
    (∀ i, ∃ t, exec i s = .next t ∧ t.pending = s.pending ∧ t.cfg = s.cfg) ∧
    ∀ r, ∃ t, step (issue r s) = .next t ∧ t.pending = s.pending ∧ t.cfg = s.cfg

/-! ### Reads -/

/-- The fifteen UART reads that show one field or constant (R110, R134, R141, R143, R145 to R147, R158, R160,
R162, R164, R166, R168, R170, R172): the value of the register, a count zero-extended (R74, decision D8), and no
other change. -/
def Obligations.PlainReadsReturnTheirRegister : Prop :=
  ∀ s : State, s.Live →
    exec .rMr s = .next (returnValue .uart s.uart.mode s) ∧
    exec .rImr s = .next (returnValue .uart s.uart.interruptMask s) ∧
    exec .rSr s = .next (returnValue .uart s.uart.status s) ∧
    exec .rBrgr s = .next (returnValue .uart s.uart.baudDivisor s) ∧
    exec .rCidr s = .next (returnValue .uart s.cfg.chipId s) ∧
    exec .rExid s = .next (returnValue .uart s.cfg.extId s) ∧
    exec .rFnr s = .next (returnValue .uart s.uart.frameNumber s) ∧
    exec .rRpr s = .next (returnValue .uart s.uart.rxChannel.currentPointer s) ∧
    exec .rRcr s = .next (returnValue .uart (s.uart.rxChannel.currentCount.zeroExtend 32) s) ∧
    exec .rTpr s = .next (returnValue .uart s.uart.txChannel.currentPointer s) ∧
    exec .rTcr s = .next (returnValue .uart (s.uart.txChannel.currentCount.zeroExtend 32) s) ∧
    exec .rRnpr s = .next (returnValue .uart s.uart.rxChannel.nextPointer s) ∧
    exec .rRncr s = .next (returnValue .uart (s.uart.rxChannel.nextCount.zeroExtend 32) s) ∧
    exec .rTnpr s = .next (returnValue .uart s.uart.txChannel.nextPointer s) ∧
    exec .rTncr s = .next (returnValue .uart (s.uart.txChannel.nextCount.zeroExtend 32) s)

/-- R176, R203: PTSR shows RXTEN and TXTEN as the two enables, every other bit 0, and the read changes nothing;
it is a 4-byte read at its offset, read-only; under the interlock the half-duplex PTSR never shows both. -/
def Obligations.PtsrShowsTheTwoEnables : Prop :=
  ∀ s : State, s.Live → s.cfg.wellFormed = true →
    ReadOnlyAt s .uart (pdcOffset s.cfg.pdcOffsets .ptsr) .rPtsr ∧
    ReadOnlyAt s .hdx (pdcOffset s.cfg.pdcOffsets .ptsr) .hdxRPtsr ∧
    (∃ v, exec .rPtsr s = .next (returnValue .uart v s) ∧
      testBit v s.cfg.ptsrBits.rxten = s.uart.rxChannel.transferEnabled ∧
      testBit v s.cfg.ptsrBits.txten = s.uart.txChannel.transferEnabled ∧
      ∀ p, p ≠ s.cfg.ptsrBits.rxten → p ≠ s.cfg.ptsrBits.txten → testBit v p = false) ∧
    ∃ v, exec .hdxRPtsr s = .next (returnValue .hdx v s) ∧
      testBit v s.cfg.ptsrBits.rxten = s.hdx.rxEnabled ∧
      testBit v s.cfg.ptsrBits.txten = s.hdx.txEnabled ∧
      (∀ p, p ≠ s.cfg.ptsrBits.rxten → p ≠ s.cfg.ptsrBits.txten → testBit v p = false) ∧
      (s.Interlocked → ¬ (testBit v s.cfg.ptsrBits.rxten = true ∧ testBit v s.cfg.ptsrBits.txten = true))

/-- R46: exactly RHR has a side effect on read. Every other legal read returns a value and leaves everything
else as it was, so it can be repeated; a read of RHR leaves RXRDY clear, so a second one finds it clear. -/
def Obligations.OnlyRhrHasAReadSideEffect : Prop :=
  ∀ (s : State) (t : Target) (off : Nat) (i : Instr), s.Live → s.cfg.wellFormed = true →
    decode s.cfg (.read t 4 off) = .ok i →
    (i ≠ .rRhr → ∃ v, exec i s = .next (returnValue t v s) ∧
      exec i (returnValue t v s) = .next (returnValue t v (returnValue t v s))) ∧
    (i = .rRhr → ∃ u, exec i s = .next u ∧ u.flag .rxrdy = false)

/-- R112: a read of RHR, a 4-byte read at its offset, returns the stored byte zero-extended, clears RXRDY and
changes nothing else, OVRE and the holding byte included; `irq` falls if RXRDY was the only enabled bit that was
set; and RXRDY, once clear, stays so until a byte is delivered. With RXRDY clear the value is R113's too, the
spec's decision D10, log entry 16. -/
def Obligations.RhrReadReturnsByteAndClearsRxrdy : Prop :=
  ∀ s : State, s.Live → s.cfg.wellFormed = true →
    ReadOnlyAt s .uart 0x18 .rRhr ∧
    (∃ t, exec .rRhr s = .next t ∧
      t = { s with
            uart := { s.uart with status := t.uart.status }
            history := s.history ++ [.readData .uart (s.uart.rxHolding.zeroExtend 32)] } ∧
      StatusBecomes s t (fun f => if f = .rxrdy then some false else none) ∧
      (s.uart.status &&& s.uart.interruptMask = bitMask s.cfg.statusBits.rxrdy →
        irqLevel s = true ∧ irqLevel t = false)) ∧
    (∀ t i, s.flag .rxrdy = false → (∀ bs, i ≠ .rxDeliver bs) → exec i s = .next t → t.flag .rxrdy = false)

/-! ### Data -/

/-- R114: a THR write, a 4-byte write at its offset, emits the low byte of the value at once and changes no
state, whatever the status and, with the default gate, whatever the transmitter enable. -/
def Obligations.ThrWriteEmitsTheLowByte : Prop :=
  ∀ s : State, s.Live →
    WriteOnlyAt s .uart 0x1C .wThr ∧
    ((s.cfg.txGate = false ∨ s.uart.txEnabled = true) → ∀ v : Word,
      exec (.wThr v) s = .next { s with history := s.history ++ [.tx (v.truncate 8)] })

/-- R117: a byte that finds RXRDY clear, whatever its value, is stored and RXRDY set; no other bit and no other
field changes, OVRE included; `irq` rises if RXRDY is enabled. -/
def Obligations.ByteIsAcceptedWhenNotReady : Prop :=
  ∀ (s : State) (b : Byte), s.Live → s.cfg.wellFormed = true →
    (s.cfg.rxGate = false ∨ s.uart.rxEnabled = true) → s.flag .rxrdy = false →
    ∃ t, exec (.rxDeliver [b]) s = .next t ∧
      t = { s with uart := { s.uart with rxHolding := b, status := t.uart.status } } ∧
      StatusBecomes s t (fun f => if f = .rxrdy then some true else none) ∧
      (testBit s.uart.interruptMask s.cfg.statusBits.rxrdy = true → irqLevel t = true)

/-- R119: a byte that finds RXRDY set is dropped and OVRE set; the waiting byte and RXRDY stay; `irq` is high if
OVRE is enabled. A further byte changes nothing more, and reading RHR afterwards returns the waiting byte. -/
def Obligations.OverrunKeepsTheWaitingByte : Prop :=
  ∀ (s : State) (b : Byte), s.Live → s.cfg.wellFormed = true →
    (s.cfg.rxGate = false ∨ s.uart.rxEnabled = true) → s.flag .rxrdy = true →
    ∃ t, exec (.rxDeliver [b]) s = .next t ∧ SameButStatus s t ∧
      StatusBecomes s t (fun f => if f = .ovre then some true else none) ∧
      (testBit s.uart.interruptMask s.cfg.statusBits.ovre = true → irqLevel t = true) ∧
      (∀ c, exec (.rxDeliver [c]) t = .next t) ∧
      ∃ u, exec .rRhr t = .next u ∧
        u.history = s.history ++ [.readData .uart (s.uart.rxHolding.zeroExtend 32)]

/-- R118, of which the empty delivery is the spec's decision D14: a delivery of any number of bytes other than
one changes nothing but the fault flag; no byte of it is accepted. -/
def Obligations.BadDeliverySizeIsFatal : Prop :=
  ∀ (s : State) (bytes : List Byte), s.Live → bytes.length ≠ 1 →
    exec (.rxDeliver bytes) s =
      .next { s with
              uart := { s.uart with fault := true }
              history := s.history ++ [.fault .uart (.badDeliverySize bytes.length)] }

/-- R122, the spec's decision D5: with RX_GATE a delivery of one byte to a disabled receiver changes no state,
after the size check; with TX_GATE a THR write with the transmitter disabled emits nothing and changes no state;
rx_ready stays 1. -/
def Obligations.GatesDropSilently : Prop :=
  ∀ s : State, s.Live →
    (s.cfg.rxGate = true → s.uart.rxEnabled = false →
      (∀ b, exec (.rxDeliver [b]) s = .next s) ∧
      ∀ bytes, bytes.length ≠ 1 →
        exec (.rxDeliver bytes) s = .next (raiseViolation .uart (.badDeliverySize bytes.length) s)) ∧
    (s.cfg.txGate = true → s.uart.txEnabled = false → ∀ v, exec (.wThr v) s = .next s) ∧
    rxReady s = true

/-- R115: over any run, in any order of operations, what is added to the transmit stream is exactly the low
bytes of the THR writes performed, in order (default TX_GATE, null transfer engine). -/
def Obligations.TransmitStreamIsTheThrWrites : Prop :=
  ∀ (k : Nat) (s t : State), s.cfg.txGate = false → s.cfg.xferEngine = .null →
    Host.Core.run Sys2Proof.core k s = .next t →
    txStream t.history = txStream s.history ++ (s.pending.take k).filterMap thrByte

/-! ### The control register -/

/-- The rows of R79 (c) for the commands of R91 to R97, each the bit of a CR write: the effect of each command
by itself, flag by flag, with everything it leaves unchanged. A TXEN with TXRDY enabled makes `irq` high; a
RSTSTA with OVRE the only enabled bit that was set makes it low. Which write is which row, and that a row
performs its command alone whatever value it carries, is the model's choice, log entry 4; a write of several
commands is CrWriteNetEffect's. -/
def Obligations.CrCommandEffects : Prop :=
  ∀ (s : State) (v : Word), s.Live → s.cfg.wellFormed = true →
    (∃ t, exec (.crRstrx v) s = .next t ∧
      t = { s with uart := { s.uart with rxEnabled := false, status := t.uart.status } } ∧
      StatusBecomes s t (fun f => if f = .rxbuff then some false else none)) ∧
    (∃ t, exec (.crRsttx v) s = .next t ∧
      t = { s with uart := { s.uart with txEnabled := false, status := t.uart.status } } ∧
      StatusBecomes s t (fun f => if f = .txempty then some true else none)) ∧
    exec (.crRxen v) s = .next { s with uart := { s.uart with rxEnabled := true } } ∧
    exec (.crRxdis v) s = .next { s with uart := { s.uart with rxEnabled := false } } ∧
    (∃ t, exec (.crTxen v) s = .next t ∧
      t = { s with uart := { s.uart with txEnabled := true, status := t.uart.status } } ∧
      StatusBecomes s t (fun f => if f = .txrdy then some true else none) ∧
      (testBit s.uart.interruptMask s.cfg.statusBits.txrdy = true → irqLevel t = true)) ∧
    exec (.crTxdis v) s = .next { s with uart := { s.uart with txEnabled := false } } ∧
    (∃ t, exec (.crRststa v) s = .next t ∧ SameButStatus s t ∧
      StatusBecomes s t (fun f => if f = .pare ∨ f = .frame ∨ f = .ovre then some false else none) ∧
      (s.uart.status &&& s.uart.interruptMask = bitMask s.cfg.statusBits.ovre →
        irqLevel s = true ∧ irqLevel t = false))

/-- R90: the net effect of a CR write of any value, a 4-byte write at offset 0, for every combination of command
bits: the enables by the fixed order (a disable wins over an enable, an enable over a reset), the status flags,
and nothing else; no byte, action or log line. -/
def Obligations.CrWriteNetEffect : Prop :=
  ∀ (s : State) (v : Word), s.Live → s.cfg.wellFormed = true →
    let on := fun k => testBit v (crPos s.cfg.crBits k)
    WriteOnlyAt s .uart 0x00 .wCr ∧
    ∃ t, exec (.wCr v) s = .next t ∧
      t = { s with
            uart :=
              { s.uart with
                rxEnabled :=
                  if on .rxdis then false
                  else if on .rxen then true
                  else if on .rstrx then false
                  else s.uart.rxEnabled
                txEnabled :=
                  if on .txdis then false
                  else if on .txen then true
                  else if on .rsttx then false
                  else s.uart.txEnabled
                status := t.uart.status } } ∧
      StatusBecomes s t (fun f =>
        match f with
        | .rxbuff => if on .rstrx then some false else none
        | .txempty => if on .rsttx then some true else none
        | .txrdy => if on .txen then some true else none
        | .pare | .frame | .ovre => if on .rststa then some false else none
        | _ => none)

/-- R99, R100, which the spec marks as derived: a CR write with no defined command bit changes nothing; a write
of all ones performs all seven commands in order. -/
def Obligations.CrWriteOfNoneAndOfAll : Prop :=
  ∀ (s : State), s.Live → s.cfg.wellFormed = true →
    (∀ v, v &&& crDefined s.cfg.crBits = 0 → exec (.wCr v) s = .next s) ∧
    ∃ t, exec (.wCr 0xFFFFFFFF#32) s = .next t ∧
      t = { s with
            uart := { s.uart with rxEnabled := false, txEnabled := false, status := t.uart.status } } ∧
      StatusBecomes s t (fun f =>
        match f with
        | .txempty | .txrdy => some true
        | .rxbuff | .pare | .frame | .ovre => some false
        | _ => none)

/-- R101, which the spec marks as derived: no CR command changes the mask, the inert registers, the holding
byte, RXRDY or the PDC, and none emits a byte, an action or a log line. -/
def Obligations.CrCommandsLeaveTheRest : Prop :=
  ∀ (s t : State) (i : Instr) (v : Word),
    i ∈ [Instr.wCr v, .crRstrx v, .crRsttx v, .crRxen v, .crRxdis v, .crTxen v, .crTxdis v, .crRststa v] →
    s.cfg.wellFormed = true → exec i s = .next t →
    t.uart.interruptMask = s.uart.interruptMask ∧ t.uart.mode = s.uart.mode ∧
    t.uart.baudDivisor = s.uart.baudDivisor ∧ t.uart.frameNumber = s.uart.frameNumber ∧
    t.uart.rxHolding = s.uart.rxHolding ∧ t.flag .rxrdy = s.flag .rxrdy ∧
    t.uart.rxChannel = s.uart.rxChannel ∧ t.uart.txChannel = s.uart.txChannel ∧
    t.hdx = s.hdx ∧ t.history = s.history

/-- R79: the command-bit rows are the parts of their write. A CR or PTCR write of any value does what the row of
the whole write does, whichever row it decodes to (the choice of row is log entry 4). -/
def Obligations.CommandRowsArePartsOfTheirWrite : Prop :=
  ∀ (s : State) (v : Word),
    exec (crForm s.cfg v) s = exec (.wCr v) s ∧
    exec (ptcrForm s.cfg v) s = exec (.wPtcr v) s ∧
    exec (hdxPtcrForm s.cfg v) s = exec (.hdxWPtcr v) s

/-! ### The interrupt mask -/

/-- R130, with the spec's decisions D4 and D7 (log entry 13): IER, with the default reading of its value, sets the
mask bits of the value that are in IMR_DOMAIN; enabling a set bit makes `irq` high. R132: IDR clears the mask bits
of the value; disabling all the set and enabled bits makes `irq` low. Nothing else changes; both are 4-byte writes
at their offsets. -/
def Obligations.MaskWritesSetAndClear : Prop :=
  ∀ s : State, s.Live →
    WriteOnlyAt s .uart 0x08 .wIer ∧ WriteOnlyAt s .uart 0x0C .wIdr ∧
    (s.cfg.ierComplementDefect = false → ∀ v : Word, ∃ t, exec (.wIer v) s = .next t ∧
      t = { s with uart := { s.uart with interruptMask := t.uart.interruptMask } } ∧
      (∀ p, testBit t.uart.interruptMask p =
        (testBit s.uart.interruptMask p || (testBit v p && testBit s.cfg.imrDomain p))) ∧
      (s.uart.status &&& v &&& s.cfg.imrDomain ≠ 0 → irqLevel t = true)) ∧
    ∀ v : Word, ∃ t, exec (.wIdr v) s = .next t ∧
      t = { s with uart := { s.uart with interruptMask := t.uart.interruptMask } } ∧
      (∀ p, testBit t.uart.interruptMask p = (testBit s.uart.interruptMask p && !testBit v p)) ∧
      (s.uart.status &&& s.uart.interruptMask &&& ~~~ v = 0 → irqLevel t = false)

/-- R135, which the spec marks as derived: the laws of two mask writes in a row, and the failure of the first
under the defect. `M` is the mask before, `D` the domain, which holds the mask in every state of a run (R15,
decision D7). -/
def Obligations.MaskWriteLaws : Prop :=
  ∀ (s : State) (m1 m2 : Word), s.Live →
    let M := s.uart.interruptMask
    let D := s.cfg.imrDomain
    let both := fun (i j : Instr) (w : Word) => ∃ u t, exec i s = .next u ∧ exec j u = .next t ∧
      t = { s with uart := { s.uart with interruptMask := w } }
    let one := fun (i : Instr) (w : Word) => ∃ t, exec i s = .next t ∧
      t = { s with uart := { s.uart with interruptMask := w } }
    both (.wIdr m1) (.wIdr m2) (M &&& ~~~ (m1 ||| m2)) ∧
    both (.wIdr m2) (.wIdr m1) (M &&& ~~~ (m1 ||| m2)) ∧
    one (.wIdr (m1 ||| m2)) (M &&& ~~~ (m1 ||| m2)) ∧
    both (.wIdr m1) (.wIdr m1) (M &&& ~~~ m1) ∧ one (.wIdr m1) (M &&& ~~~ m1) ∧
    (s.cfg.ierComplementDefect = false →
      both (.wIer m1) (.wIer m2) (M ||| ((m1 ||| m2) &&& D)) ∧
      one (.wIer (m1 ||| m2)) (M ||| ((m1 ||| m2) &&& D)) ∧
      both (.wIer m1) (.wIer m1) (M ||| (m1 &&& D)) ∧ one (.wIer m1) (M ||| (m1 &&& D)) ∧
      (s.MaskInDomain → both (.wIer m1) (.wIdr m1) (M &&& ~~~ m1) ∧
        both (.wIdr m1) (.wIer m1) (M ||| (m1 &&& D))) ∧
      (m1 &&& m2 &&& D ≠ 0 → ∀ a b c d,
        exec (.wIer m1) s = .next a → exec (.wIdr m2) a = .next b →
        exec (.wIdr m2) s = .next c → exec (.wIer m1) c = .next d →
        b.uart.interruptMask ≠ d.uart.interruptMask)) ∧
    (s.cfg.ierComplementDefect = true →
      both (.wIer m1) (.wIer m2) (M ||| (~~~ (m1 &&& m2) &&& D)) ∧
      one (.wIer (m1 ||| m2)) (M ||| (~~~ (m1 ||| m2) &&& D)) ∧
      both (.wIer m1) (.wIer m1) (M ||| (~~~ m1 &&& D)) ∧ one (.wIer m1) (M ||| (~~~ m1 &&& D)))

/-- R136, which the spec marks as derived: only IER, IDR and RESET change the mask, and nothing the mask holds
affects a status bit. -/
def Obligations.OnlyMaskWritesAndResetChangeTheMask : Prop :=
  (∀ (s t : State) (i : Instr), exec i s = .next t →
    (∀ v, i ≠ .wIer v) → (∀ v, i ≠ .wIdr v) → i ≠ .reset .uart →
    t.uart.interruptMask = s.uart.interruptMask) ∧
  (∀ (s t : State), exec (.reset .uart) s = .next t → t.uart.interruptMask = 0) ∧
  ∀ (s t : State) (i : Instr) (m : Word), exec i s = .next t →
    ∃ u, exec i { s with uart := { s.uart with interruptMask := m } } = .next u ∧
      u.uart.status = t.uart.status

/-- R232, of which the level at every moment is the spec's decision D15: `irq` is high exactly when some status
bit is 1 and enabled, one of the twelve names in a state with no other bit (R14, decision D2). -/
def Obligations.IrqIsHighIffAnEnabledFlagIsSet : Prop :=
  ∀ s : State,
    (irqLevel s = true ↔ s.uart.status &&& s.uart.interruptMask ≠ 0) ∧
    (s.StatusNamed →
      (irqLevel s = true ↔
        ∃ f, s.flag f = true ∧ testBit s.uart.interruptMask (statusPos s.cfg.statusBits f) = true))

/-! ### The inert and identification registers -/

/-- R140, and R142, R144 with the spec's decision D9 for the width: MR, BRGR and FNR store all 32 bits and
nothing else changes; the value is read back. -/
def Obligations.InertWritesStoreTheWholeWord : Prop :=
  ∀ (s : State) (v : Word), s.Live →
    (exec (.wMr v) s = .next { s with uart := { s.uart with mode := v } } ∧
      exec .rMr { s with uart := { s.uart with mode := v } } =
        .next (returnValue .uart v { s with uart := { s.uart with mode := v } })) ∧
    (exec (.wBrgr v) s = .next { s with uart := { s.uart with baudDivisor := v } } ∧
      exec .rBrgr { s with uart := { s.uart with baudDivisor := v } } =
        .next (returnValue .uart v { s with uart := { s.uart with baudDivisor := v } })) ∧
    (exec (.wFnr v) s = .next { s with uart := { s.uart with frameNumber := v } } ∧
      exec .rFnr { s with uart := { s.uart with frameNumber := v } } =
        .next (returnValue .uart v { s with uart := { s.uart with frameNumber := v } }))

/-- R148, which the spec marks as derived: the inert registers change by their own write and RESET only, and no
instruction's other effect depends on what they hold. -/
def Obligations.InertRegistersAreIndependent : Prop :=
  (∀ (s t : State) (i : Instr), exec i s = .next t → i ≠ .reset .uart →
    ((∀ v, i ≠ .wMr v) → t.uart.mode = s.uart.mode) ∧
    ((∀ v, i ≠ .wBrgr v) → t.uart.baudDivisor = s.uart.baudDivisor) ∧
    ((∀ v, i ≠ .wFnr v) → t.uart.frameNumber = s.uart.frameNumber)) ∧
  (∀ (s t : State), exec (.reset .uart) s = .next t →
    t.uart.mode = 0 ∧ t.uart.baudDivisor = 0 ∧ t.uart.frameNumber = 0) ∧
  ∀ (s t : State) (i : Instr) (a b c : Word), exec i s = .next t →
    ∃ u, exec i { s with uart := { s.uart with mode := a, baudDivisor := b, frameNumber := c } } = .next u ∧
      { u.uart with mode := 0, baudDivisor := 0, frameNumber := 0 } =
        { t.uart with mode := 0, baudDivisor := 0, frameNumber := 0 } ∧
      u.hdx = t.hdx ∧ (i ≠ .rMr → i ≠ .rBrgr → i ≠ .rFnr → u.history = t.history)

/-- R146, R147, with the spec's decision D19: CIDR and EXID, 4-byte reads at their offsets, read the
configuration constants and change nothing, and no step changes those, reset included. -/
def Obligations.IdentificationIsConstant : Prop :=
  (∀ s t : State, step s = .next t → t.cfg = s.cfg) ∧
  ∀ s : State, s.Live →
    ReadOnlyAt s .uart 0x40 .rCidr ∧ ReadOnlyAt s .uart 0x44 .rExid ∧
    exec .rCidr s = .next (returnValue .uart s.cfg.chipId s) ∧
    exec .rExid s = .next (returnValue .uart s.cfg.extId s) ∧
    ∃ t, exec (.reset .uart) s = .next t ∧
      exec .rCidr t = .next (returnValue .uart s.cfg.chipId t) ∧
      exec .rExid t = .next (returnValue .uart s.cfg.extId t)

/-! ### The full-duplex descriptor unit -/

/-- R157, R161, R165, R169, of which the action NONE is the spec's decision D11: a pointer write stores all 32
bits in its own field and returns NONE. -/
def Obligations.PointerWritesStoreAndReturnNone : Prop :=
  ∀ (s : State) (v : Word), s.Live →
    let out := s.history ++ [.action .uart .none]
    let rx := s.uart.rxChannel
    let tx := s.uart.txChannel
    exec (.wRpr v) s = .next
      { s with uart := { s.uart with rxChannel := { rx with currentPointer := v } }, history := out } ∧
    exec (.wRnpr v) s = .next
      { s with uart := { s.uart with rxChannel := { rx with nextPointer := v } }, history := out } ∧
    exec (.wTpr v) s = .next
      { s with uart := { s.uart with txChannel := { tx with currentPointer := v } }, history := out } ∧
    exec (.wTnpr v) s = .next
      { s with uart := { s.uart with txChannel := { tx with nextPointer := v } }, history := out }

/-- R159, R163, of which the truncation is the spec's decision D8, and R213 (D12): a current-count write stores
the low 16 bits in its own field, and the action is START or STOP by the stored count when the channel is armed,
NONE when not; a START or STOP is logged with the null engine. That the log gets one line is log entry 7. -/
def Obligations.CountWritesStoreAndClassify : Prop :=
  ∀ (s : State) (v : Word), s.Live →
    let c := v.truncate 16
    let logged := fun (a : Action) => if s.cfg.xferEngine = .null then [Event.log a] else []
    let rx := s.uart.rxChannel
    let tx := s.uart.txChannel
    exec (.wRcr v) s = .next
      { s with
        uart := { s.uart with rxChannel := { rx with currentCount := c } }
        history := s.history ++
          (if rx.transferEnabled = false then [.action .uart .none]
           else if c = 0 then .action .uart .stopRx :: logged .stopRx
           else .action .uart .startRx :: logged .startRx) } ∧
    exec (.wTcr v) s = .next
      { s with
        uart := { s.uart with txChannel := { tx with currentCount := c } }
        history := s.history ++
          (if tx.transferEnabled = false then [.action .uart .none]
           else if c = 0 then .action .uart .stopTx :: logged .stopTx
           else .action .uart .startTx :: logged .startTx) }

/-- R167, R171, the spec's decision D11: a next-count write stores the low 16 bits in its own field and returns
the action the parameter PDC_NEXT_COUNT_ACTION gives. -/
def Obligations.NextCountWritesFollowTheParameter : Prop :=
  ∀ (s : State) (v : Word), s.Live →
    let c := v.truncate 16
    let rx := s.uart.rxChannel
    let tx := s.uart.txChannel
    (∃ t a, exec (.wRncr v) s = .next t ∧
      t = { s with
            uart := { s.uart with rxChannel := { rx with nextCount := c } }, history := t.history } ∧
      actionsOf .uart t.history = actionsOf .uart s.history ++ [a] ∧
      (s.cfg.pdcNextCountAction = .none → a = .none ∧ t.history = s.history ++ [.action .uart .none]) ∧
      (s.cfg.pdcNextCountAction = .stateChanged → a = .stateChanged) ∧
      (s.cfg.pdcNextCountAction = .startStop →
        a = if rx.transferEnabled = false then .none else if c = 0 then .stopRx else .startRx)) ∧
    ∃ t a, exec (.wTncr v) s = .next t ∧
      t = { s with
            uart := { s.uart with txChannel := { tx with nextCount := c } }, history := t.history } ∧
      actionsOf .uart t.history = actionsOf .uart s.history ++ [a] ∧
      (s.cfg.pdcNextCountAction = .none → a = .none ∧ t.history = s.history ++ [.action .uart .none]) ∧
      (s.cfg.pdcNextCountAction = .stateChanged → a = .stateChanged) ∧
      (s.cfg.pdcNextCountAction = .startStop →
        a = if tx.transferEnabled = false then .none else if c = 0 then .stopTx else .startTx)

/-- The rows of R79 (c) for the commands of R174, R175, R177, R178: each PTCR command by itself switches its own
channel's enable on or off, keeps the pointers and counts and the other channel, and the action is STATE_CHANGED
(which write is which row, and that a row performs its command whatever value it carries, is log entry 4). -/
def Obligations.PtcrCommandsSwitchTheirChannel : Prop :=
  ∀ (s : State) (v : Word), s.Live →
    let out := s.history ++ [.action .uart .stateChanged]
    let rx := s.uart.rxChannel
    let tx := s.uart.txChannel
    exec (.ptcrRxten v) s = .next
      { s with uart := { s.uart with rxChannel := { rx with transferEnabled := true } }, history := out } ∧
    exec (.ptcrRxtdis v) s = .next
      { s with uart := { s.uart with rxChannel := { rx with transferEnabled := false } }, history := out } ∧
    exec (.ptcrTxten v) s = .next
      { s with uart := { s.uart with txChannel := { tx with transferEnabled := true } }, history := out } ∧
    exec (.ptcrTxtdis v) s = .next
      { s with uart := { s.uart with txChannel := { tx with transferEnabled := false } }, history := out }

/-- R173 to R175, R177, R178: a PTCR write, a 4-byte write at its offset. For all sixteen combinations of the
four command bits each channel's enable is off if its disable bit is set, else on if its enable bit is, else as
before; the action is STATE_CHANGED and nothing else changes. -/
def Obligations.PtcrWriteNetEffect : Prop :=
  ∀ (s : State) (v : Word), s.Live →
    let on := fun k => testBit v (ptcrPos s.cfg.ptcrBits k)
    let rx := s.uart.rxChannel
    let tx := s.uart.txChannel
    (s.cfg.wellFormed = true → WriteOnlyAt s .uart (pdcOffset s.cfg.pdcOffsets .ptcr) .wPtcr) ∧
    exec (.wPtcr v) s = .next
      { s with
        uart :=
          { s.uart with
            rxChannel :=
              { rx with
                transferEnabled := if on .rxtdis then false else if on .rxten then true else rx.transferEnabled }
            txChannel :=
              { tx with
                transferEnabled := if on .txtdis then false else if on .txten then true else tx.transferEnabled } }
        history := s.history ++ [.action .uart .stateChanged] }

/-- R212, which the spec marks as derived: no PDC access changes the status, the mask or `irq`. An access is any
operation at a PDC offset of either unit that is not rejected; a rejected one leaves them too. -/
def Obligations.PdcAccessesLeaveTheInterruptLevel : Prop :=
  ∀ (s t : State) (r : PdcReg) (u : Target) (size : Nat) (v : Word), s.cfg.wellFormed = true →
    (step (issue (.read u size (pdcOffset s.cfg.pdcOffsets r)) s) = .next t ∨
      step (issue (.write u size (pdcOffset s.cfg.pdcOffsets r) v) s) = .next t) →
    t.uart.status = s.uart.status ∧ t.uart.interruptMask = s.uart.interruptMask ∧
    irqLevel t = irqLevel s

/-- R25, which the spec marks as derived: with the null engine the four numeric fields of a channel change only
by a write of their own register and at reset, in any step. -/
def Obligations.DescriptorsChangeOnlyByTheirOwnWrite : Prop :=
  (∀ (s t : State) (i : Instr), exec i s = .next t → i ≠ .reset .uart →
    ((∀ v, i ≠ .wRpr v) → t.uart.rxChannel.currentPointer = s.uart.rxChannel.currentPointer) ∧
    ((∀ v, i ≠ .wRcr v) → t.uart.rxChannel.currentCount = s.uart.rxChannel.currentCount) ∧
    ((∀ v, i ≠ .wRnpr v) → t.uart.rxChannel.nextPointer = s.uart.rxChannel.nextPointer) ∧
    ((∀ v, i ≠ .wRncr v) → t.uart.rxChannel.nextCount = s.uart.rxChannel.nextCount) ∧
    ((∀ v, i ≠ .wTpr v) → t.uart.txChannel.currentPointer = s.uart.txChannel.currentPointer) ∧
    ((∀ v, i ≠ .wTcr v) → t.uart.txChannel.currentCount = s.uart.txChannel.currentCount) ∧
    ((∀ v, i ≠ .wTnpr v) → t.uart.txChannel.nextPointer = s.uart.txChannel.nextPointer) ∧
    ((∀ v, i ≠ .wTncr v) → t.uart.txChannel.nextCount = s.uart.txChannel.nextCount)) ∧
  ∀ (s : State) (e : EngineStep) (rest : List Input), s.Live → s.cfg.xferEngine = .null →
    s.pending = .engine e :: rest → step s = .refused .noTransferEngine

/-! ### The half-duplex unit -/

/-- R192, R195, R196, R197, which the spec marks as derived: the eight half-duplex reads of a descriptor field
return the one field their two names share, a count zero-extended, and change nothing. -/
def Obligations.HalfDuplexReadsReturnTheSharedField : Prop :=
  ∀ s : State, s.Live →
    exec .hdxRRpr s = .next (returnValue .hdx s.hdx.pointer s) ∧
    exec .hdxRTpr s = .next (returnValue .hdx s.hdx.pointer s) ∧
    exec .hdxRRcr s = .next (returnValue .hdx (s.hdx.count.zeroExtend 32) s) ∧
    exec .hdxRTcr s = .next (returnValue .hdx (s.hdx.count.zeroExtend 32) s) ∧
    exec .hdxRRnpr s = .next (returnValue .hdx s.hdx.nextPointer s) ∧
    exec .hdxRTnpr s = .next (returnValue .hdx s.hdx.nextPointer s) ∧
    exec .hdxRRncr s = .next (returnValue .hdx (s.hdx.nextCount.zeroExtend 32) s) ∧
    exec .hdxRTncr s = .next (returnValue .hdx (s.hdx.nextCount.zeroExtend 32) s)

/-- R190, and R191 with the spec's decision D11 for the action: the two names of each descriptor field are one
storage. A write through either is seen by a read through either, and the enables are not touched. -/
def Obligations.HalfDuplexNamesShareStorage : Prop :=
  ∀ (s : State) (v : Word), s.Live →
    (∀ i, i ∈ [Instr.hdxWRpr v, .hdxWTpr v] → ∃ t, exec i s = .next t ∧
      t = { s with hdx := { s.hdx with pointer := v }, history := s.history ++ [.action .hdx .none] } ∧
      ∀ j, j ∈ [Instr.hdxRRpr, .hdxRTpr] → exec j t = .next (returnValue .hdx v t)) ∧
    (∀ i, i ∈ [Instr.hdxWRnpr v, .hdxWTnpr v] → ∃ t, exec i s = .next t ∧
      t = { s with hdx := { s.hdx with nextPointer := v }, history := s.history ++ [.action .hdx .none] } ∧
      ∀ j, j ∈ [Instr.hdxRRnpr, .hdxRTnpr] → exec j t = .next (returnValue .hdx v t)) ∧
    (∀ i, i ∈ [Instr.hdxWRcr v, .hdxWTcr v] → ∃ t, exec i s = .next t ∧
      t = { s with hdx := { s.hdx with count := v.truncate 16 }, history := t.history } ∧
      ∀ j, j ∈ [Instr.hdxRRcr, .hdxRTcr] → exec j t = .next (returnValue .hdx (v &&& 0xFFFF#32) t)) ∧
    (∀ i, i ∈ [Instr.hdxWRncr v, .hdxWTncr v] → ∃ t, exec i s = .next t ∧
      t = { s with hdx := { s.hdx with nextCount := v.truncate 16 }, history := t.history } ∧
      ∀ j, j ∈ [Instr.hdxRRncr, .hdxRTncr] → exec j t = .next (returnValue .hdx (v &&& 0xFFFF#32) t))

/-- R193, R194, the spec's decision D21, and R197, marked as derived: a half-duplex count write is classified by
the enable of the direction its name gives, not the other's; a next-count write by the parameter. That no log
line follows is log entry 14. -/
def Obligations.HalfDuplexCountWritesClassify : Prop :=
  ∀ (s : State) (v : Word), s.Live →
    let c := v.truncate 16
    let h := s.hdx
    let rxA := if h.rxEnabled = false then Action.none else if c = 0 then .stopRx else .startRx
    let txA := if h.txEnabled = false then Action.none else if c = 0 then .stopTx else .startTx
    let next := fun (a : Action) =>
      match s.cfg.pdcNextCountAction with
      | .none => Action.none
      | .stateChanged => .stateChanged
      | .startStop => a
    exec (.hdxWRcr v) s = .next
      { s with hdx := { h with count := c }, history := s.history ++ [.action .hdx rxA] } ∧
    exec (.hdxWTcr v) s = .next
      { s with hdx := { h with count := c }, history := s.history ++ [.action .hdx txA] } ∧
    exec (.hdxWRncr v) s = .next
      { s with hdx := { h with nextCount := c }, history := s.history ++ [.action .hdx (next rxA)] } ∧
    exec (.hdxWTncr v) s = .next
      { s with hdx := { h with nextCount := c }, history := s.history ++ [.action .hdx (next txA)] }

/-- R198, R200 to R202: the half-duplex PTCR write, a 4-byte write at its offset, for all sixteen combinations
of the command bits: both enables are fatal, any disable turns both off, one enable turns the other direction
off, nothing keeps them; the action is STATE_CHANGED and nothing else changes. The row for the dual enable does
what the write does. Which write is that row is log entry 4. -/
def Obligations.HalfDuplexPtcrTable : Prop :=
  ∀ (s : State) (v : Word), s.Live →
    let on := fun k => testBit v (ptcrPos s.cfg.ptcrBits k)
    let ends := fun (r t : Bool) => exec (.hdxWPtcr v) s = .next
      { s with
        hdx := { s.hdx with rxEnabled := r, txEnabled := t }
        history := s.history ++ [.action .hdx .stateChanged] }
    (s.cfg.wellFormed = true → WriteOnlyAt s .hdx (pdcOffset s.cfg.pdcOffsets .ptcr) .hdxWPtcr) ∧
    (on .rxten = true → on .txten = true → ∀ i, i ∈ [Instr.hdxWPtcr v, .hdxPtcrDualen v] →
      exec i s = .next
        { s with
          hdx := { s.hdx with fault := true }
          history := s.history ++ [.fault .hdx (.halfDuplexDualEnable v)] }) ∧
    (on .rxten = true → on .txten = false → on .rxtdis = false → on .txtdis = false → ends true false) ∧
    (on .rxten = false → on .txten = true → on .rxtdis = false → on .txtdis = false → ends false true) ∧
    (¬ (on .rxten = true ∧ on .txten = true) → (on .rxtdis = true ∨ on .txtdis = true) →
      ends false false) ∧
    (on .rxten = false → on .txten = false → on .rxtdis = false → on .txtdis = false →
      ends s.hdx.rxEnabled s.hdx.txEnabled)

/-- The rows of R79 (d) for R200 to R202: each half-duplex PTCR command by itself (which write is which row, and
that a row performs its command whatever value it carries, is log entry 4). -/
def Obligations.HalfDuplexPtcrCommands : Prop :=
  ∀ (s : State) (v : Word), s.Live →
    let ends := fun (i : Instr) (r t : Bool) => exec i s = .next
      { s with
        hdx := { s.hdx with rxEnabled := r, txEnabled := t }
        history := s.history ++ [.action .hdx .stateChanged] }
    ends (.hdxPtcrRxten v) true false ∧
    ends (.hdxPtcrTxten v) false true ∧
    ends (.hdxPtcrRxtdis v) false false ∧
    ends (.hdxPtcrTxtdis v) false false

/-- R205, which the spec marks as derived, over R27 (reset by decision D20): the interlock holds after creation
and reset, and every step keeps it. That an engine step leaves the half-duplex unit alone is the model's, log
entry 22. -/
def Obligations.InterlockIsNeverBroken : Prop :=
  (∀ c, (State.createdWith c).Interlocked) ∧
  (∀ s t : State, exec (.reset .hdx) s = .next t → t.Interlocked) ∧
  ∀ s t : State, s.Interlocked → step s = .next t → t.Interlocked

/-! ### Reset -/

/-- R260: RESET of the UART sets every field of the device state but the fault flag to its reset value; the
constants are untouched and `irq` is low. That it puts out no byte, action or log line is the spec's decision
D22; that it leaves the half-duplex unit alone is the model's, log entry 12 (R265 gives that unit its host's
reset). -/
def Obligations.ResetPutsTheUnitInItsResetState : Prop :=
  ∀ s : State, s.Live →
    decode s.cfg (.reset .uart) = .ok (.reset .uart) ∧
    ∃ t, exec (.reset .uart) s = .next t ∧
      t = { s with
            uart :=
              { mode := 0
                status := bitMask s.cfg.statusBits.txempty
                interruptMask := 0
                rxHolding := 0
                baudDivisor := 0
                frameNumber := 0
                rxEnabled := false
                txEnabled := false
                rxChannel := ⟨0, 0, 0, 0, false⟩
                txChannel := ⟨0, 0, 0, 0, false⟩
                fault := s.uart.fault } } ∧
      irqLevel t = false

/-- R262, which the spec marks as derived, and R265, its decision D20: reset of either unit is idempotent, and
the unit's state after it does not depend on the one before; the half-duplex unit's is all zero with both
enables off. That this reset leaves the UART alone is the model's, log entry 12. -/
def Obligations.ResetIsIdempotent : Prop :=
  ∀ s s' : State, s.Live → s'.Live → s.cfg = s'.cfg →
    (∃ t t', exec (.reset .uart) s = .next t ∧ exec (.reset .uart) s' = .next t' ∧
      exec (.reset .uart) t = .next t ∧ t.uart = t'.uart ∧
      t.uart.status = bitMask s.cfg.statusBits.txempty ∧
      t.uart.rxChannel.transferEnabled = false ∧ t.uart.txChannel.transferEnabled = false) ∧
    ∃ t t', exec (.reset .hdx) s = .next t ∧ exec (.reset .hdx) s' = .next t' ∧
      exec (.reset .hdx) t = .next t ∧ t.hdx = t'.hdx ∧
      t = { s with hdx := ⟨0, 0, 0, 0, false, false, s.hdx.fault⟩ }

/-- R29 and R261, with R27 (decision D20) for the half-duplex unit: every piece of state at creation. The
numeric status value rests on the default positions (D2, log entry 1); R29's rows for the enables and the
holding byte are marked derived. -/
def Obligations.CreationValues : Prop :=
  ∀ c : Params, let s := State.createdWith c
    s.uart.mode = 0 ∧ s.uart.status = bitMask c.statusBits.txempty ∧ s.uart.interruptMask = 0 ∧
    s.uart.rxHolding = 0 ∧ s.uart.baudDivisor = 0 ∧ s.uart.frameNumber = 0 ∧
    s.uart.rxEnabled = false ∧ s.uart.txEnabled = false ∧
    s.uart.rxChannel = ⟨0, 0, 0, 0, false⟩ ∧ s.uart.txChannel = ⟨0, 0, 0, 0, false⟩ ∧
    s.uart.fault = false ∧ s.hdx = ⟨0, 0, 0, 0, false, false, false⟩ ∧
    irqLevel s = false ∧
    State.reset = State.createdWith defaultParams ∧ State.reset.uart.status = 0x200#32

/-! ### Whole-machine rules -/

/-- Every step keeps the invariant: legal parameters, no status bit outside the twelve names (R14, decision D2),
with the null engine none but the four of R32, TXEMPTY set (R34), the mask within its domain (R15, decision D7),
the interlock (R205). The last rules but the decisions are marked derived; that an engine step leaves the
half-duplex unit alone is log entry 22. -/
def Obligations.StepKeepsTheInvariant : Prop :=
  ∀ s t : State, s.Inv → step s = .next t → t.Inv

/-- The invariant holds at creation with any legal parameters, the default ones among them. -/
def Obligations.CreationSatisfiesTheInvariant : Prop :=
  (∀ c : Params, c.wellFormed = true → (State.createdWith c).Inv) ∧ State.reset.Inv

/-- R31: the complete list of what changes the status in a step of the machine with the null engine: the
operation, and which flags it can set or clear. -/
def Obligations.OnlyListedTransitionsChangeStatus : Prop :=
  ∀ s t : State, s.cfg.wellFormed = true → s.cfg.xferEngine = .null → step s = .next t →
    t.uart.status ≠ s.uart.status → ∃ r rest, s.pending = .op r :: rest ∧
    ((∃ v, r = uartWrite .cr v ∧ (∀ f, t.flag f ≠ s.flag f →
      (f = .rxbuff ∧ testBit v s.cfg.crBits.rstrx = true ∧ t.flag f = false) ∨
      (f = .txempty ∧ testBit v s.cfg.crBits.rsttx = true ∧ t.flag f = true) ∨
      (f = .txrdy ∧ testBit v s.cfg.crBits.txen = true ∧ t.flag f = true) ∨
      ((f = .pare ∨ f = .frame ∨ f = .ovre) ∧ testBit v s.cfg.crBits.rststa = true ∧ t.flag f = false))) ∨
    (r = uartRead .rhr ∧ ∀ f, t.flag f ≠ s.flag f → f = .rxrdy ∧ t.flag f = false) ∨
    (∃ b, r = .deliver [b] ∧ ∀ f, t.flag f ≠ s.flag f → (f = .rxrdy ∨ f = .ovre) ∧ t.flag f = true) ∨
    r = .reset .uart)

/-- R35, which the spec marks as derived: TXRDY once set stays until reset; OVRE once set stays until CR.RSTSTA
or reset. Which CR write is the row of CR.RSTSTA is log entry 4. -/
def Obligations.TxrdyAndOvreStay : Prop :=
  ∀ (s t : State) (i : Instr), s.cfg.wellFormed = true → exec i s = .next t → i ≠ .reset .uart →
    (s.flag .txrdy = true → t.flag .txrdy = true) ∧
    (s.flag .ovre = true → t.flag .ovre = false →
      ∃ v, i = .crRststa v ∨ (i = .wCr v ∧ testBit v s.cfg.crBits.rststa = true))

/-- R34, which the spec marks as derived: TXEMPTY holds at creation, every step keeps it, and a THR write
changes neither it nor TXRDY. -/
def Obligations.TxemptyIsAlwaysSet : Prop :=
  (∀ c, (State.createdWith c).TxemptySet) ∧
  (∀ s t : State, s.cfg.wellFormed = true → s.TxemptySet → step s = .next t → t.TxemptySet) ∧
  ∀ (s t : State) (v : Word), exec (.wThr v) s = .next t → ∀ f, t.flag f = s.flag f

/-- R215, the spec's decision D12: what a step of an external engine cannot change, whatever the engine, and
when it has a step. The form of an engine step is log entry 15; that it leaves the half-duplex unit alone, of
which R215 does not speak, is log entry 22. -/
def Obligations.EngineStepsStayWithinTheirBounds : Prop :=
  ∀ (s : State) (e : EngineStep) (rest : List Input), s.Live → s.cfg.wellFormed = true →
    s.pending = .engine e :: rest → s.cfg.xferEngine = .external →
    ((s.channel e.direction).transferEnabled = false → step s = .refused .channelDisarmed) ∧
    ((s.channel e.direction).transferEnabled = true → ∃ t, step s = .next t ∧
      t.uart.interruptMask = s.uart.interruptMask ∧ t.uart.mode = s.uart.mode ∧
      t.uart.baudDivisor = s.uart.baudDivisor ∧ t.uart.frameNumber = s.uart.frameNumber ∧
      t.uart.rxEnabled = s.uart.rxEnabled ∧ t.uart.txEnabled = s.uart.txEnabled ∧
      t.uart.rxChannel.transferEnabled = s.uart.rxChannel.transferEnabled ∧
      t.uart.txChannel.transferEnabled = s.uart.txChannel.transferEnabled ∧
      (∀ f, f ∈ [StatusFlag.ovre, .frame, .pare, .txrdy, .txempty, .commtx, .commrx] →
        t.flag f = s.flag f) ∧
      (t.flag .rxrdy ≠ s.flag .rxrdy → e.direction = .rx ∧ t.flag .rxrdy = false) ∧
      (e.direction = .rx → t.uart.txChannel = s.uart.txChannel ∧ t.history = s.history) ∧
      (e.direction = .tx → t.uart.rxChannel = s.uart.rxChannel ∧ ∃ bs : List Byte,
        bs.length ≤ 1 ∧ t.history = s.history ++ bs.map .tx) ∧
      t.hdx = s.hdx ∧ t.cfg = s.cfg ∧ t.pending = rest)

/-- R224, which the spec marks as derived: with both gates false (the default, decision D5), two states that
differ only in the two CR enables cannot be told apart by any run: the same outputs, the same device state but
for those two flags, the same stop. -/
def Obligations.CrEnablesCannotBeObserved : Prop :=
  ∀ (k : Nat) (s t : State), s.cfg.rxGate = false → s.cfg.txGate = false → SameButEnables s t →
    (∀ s', Host.Core.run Sys2Proof.core k s = .next s' →
      ∃ t', Host.Core.run Sys2Proof.core k t = .next t' ∧ SameButEnables s' t') ∧
    (∀ f, Host.Core.run Sys2Proof.core k s = .fault f → Host.Core.run Sys2Proof.core k t = .fault f) ∧
    (∀ f, Host.Core.run Sys2Proof.core k s = .refused f → Host.Core.run Sys2Proof.core k t = .refused f)

/-- The two examples R222 gives of its law, which the spec marks as derived, that operations with disjoint
frames commute: MR writes with each of the nine PDC writes of the UART, BRGR writes with a one-byte delivery;
the whole state is the same in either order. -/
def Obligations.DisjointOperationsCommute : Prop :=
  ∀ (s : State) (v w : Word) (b : Byte), s.Live →
    (∀ i, i ∈ [Instr.wRpr w, .wRcr w, .wTpr w, .wTcr w, .wRnpr w, .wRncr w, .wTnpr w, .wTncr w, .wPtcr w] →
      ∃ a t c u, exec (.wMr v) s = .next a ∧ exec i a = .next t ∧ exec i s = .next c ∧
        exec (.wMr v) c = .next u ∧ t = u) ∧
    ∃ a t c u, exec (.wBrgr v) s = .next a ∧ exec (.rxDeliver [b]) a = .next t ∧
      exec (.rxDeliver [b]) s = .next c ∧ exec (.wBrgr v) c = .next u ∧ t = u

/-- R222, which the spec marks as derived, and the rules of 45_pdc_half_duplex.md for that unit: for every
instruction, which fields of the device state and which status bits it can change, every other one unchanged,
and what it appends to the history: at most one value, byte, action with its log line, or report. It holds for
all parameters. The model's are: that an instruction of one unit leaves the other alone, log entry 8, and for
RESET log entry 12; that no log line follows a half-duplex START or STOP, log entry 14; that a START or STOP of
the UART has at most one log line, log entry 7; and that a command row performs its command alone whatever value
it carries, log entry 4. -/
def Obligations.EveryInstructionStaysInItsFrame : Prop :=
  ∀ (s t : State) (i : Instr), exec i s = .next t →
    t.cfg = s.cfg ∧ t.pending = s.pending ∧ ∃ es, t.history = s.history ++ es ∧ Frame i s t es
end

