-- ==== Sys2Proof/Laws/Bits.lean ====
section
/-! SUPPORT. What the bit operations do, bit by bit (`47_operation_laws.md` R218), and that distinct names have
distinct positions in well-formed parameters. -/

namespace Sys2Proof.Machine

theorem testBit_bitMask (p q : BitPos) : testBit (bitMask p) q = decide (p = q) := by
  simp [testBit, bitMask, Fin.ext_iff, eq_comm]

theorem testBit_or (a b : Word) (q : BitPos) : testBit (a ||| b) q = (testBit a q || testBit b q) := by
  simp [testBit]

theorem testBit_and (a b : Word) (q : BitPos) : testBit (a &&& b) q = (testBit a q && testBit b q) := by
  simp [testBit]

theorem testBit_not (a : Word) (q : BitPos) : testBit (~~~ a) q = !testBit a q := by
  simp [testBit]

theorem testBit_zero (q : BitPos) : testBit 0#32 q = false := by simp [testBit]

theorem testBit_setBit (v : Word) (p q : BitPos) :
    testBit (setBit v p) q = (testBit v q || decide (p = q)) := by
  simp [setBit, testBit_or, testBit_bitMask]

theorem testBit_clearBit (v : Word) (p q : BitPos) :
    testBit (clearBit v p) q = (testBit v q && !decide (p = q)) := by
  simp [clearBit, testBit_and, testBit_not, testBit_bitMask]

/-- Writing one bit gives it the value and leaves every other bit. -/
theorem testBit_writeBit (v : Word) (p q : BitPos) (b : Bool) :
    testBit (writeBit v p b) q = if p = q then b else testBit v q := by
  cases b <;> by_cases h : p = q <;> simp [writeBit, testBit_setBit, testBit_clearBit, h]

theorem testBit_writeBit_self (v : Word) (p : BitPos) (b : Bool) : testBit (writeBit v p b) p = b := by
  simp [testBit_writeBit]

theorem testBit_writeBit_ne (v : Word) {p q : BitPos} (b : Bool) (h : p ≠ q) :
    testBit (writeBit v p b) q = testBit v q := by simp [testBit_writeBit, h]

/-- Two words with the same bits are one word. -/
theorem word_ext {a b : Word} (h : ∀ p, testBit a p = testBit b p) : a = b := by
  apply BitVec.eq_of_getLsbD_eq
  intro i hi
  exact h ⟨i, hi⟩

theorem eq_zero_iff_testBit (a : Word) : a = 0 ↔ ∀ p, testBit a p = false := by
  constructor
  · rintro rfl p
    exact testBit_zero p
  · intro h
    exact word_ext fun p => by rw [h]; exact (testBit_zero p).symm

/-- `a & ~m = 0` says every bit of `a` is a bit of `m`. -/
theorem and_not_eq_zero_iff (a m : Word) :
    a &&& ~~~ m = 0 ↔ ∀ p, testBit a p = true → testBit m p = true := by
  rw [eq_zero_iff_testBit]
  refine forall_congr' fun p => ?_
  rw [testBit_and, testBit_not]
  cases testBit a p <;> cases testBit m p <;> simp

theorem testBit_maskOf (ps : List BitPos) (q : BitPos) : testBit (maskOf ps) q = decide (q ∈ ps) := by
  induction ps with
  | nil => simp [maskOf, testBit_zero]
  | cons p ps ih =>
    have h : maskOf (p :: ps) = bitMask p ||| maskOf ps := rfl
    rw [h, testBit_or, ih, testBit_bitMask]
    by_cases hpq : p = q
    · simp [hpq]
    · have : q ≠ p := fun e => hpq e.symm
      simp [hpq, this]

/-- The latch is high exactly when some bit is set in both words (R232). -/
theorem latch_iff (status mask : Word) :
    latch status mask = true ↔ ∃ p, testBit status p = true ∧ testBit mask p = true := by
  have h := eq_zero_iff_testBit (status &&& mask)
  unfold latch
  rw [bne_iff_ne, ne_eq, h]
  simp [testBit_and]

theorem statusPos_mem (b : StatusBits) (f : StatusFlag) :
    statusPos b f ∈ StatusFlag.all.map (statusPos b) := by
  cases f <;> simp [StatusFlag.all, statusPos]

/-- A word within the named bits has its set bits at named positions (R14). -/
theorem named_iff (b : StatusBits) (w : Word) :
    w &&& ~~~ statusDefined b = 0 ↔ ∀ p, testBit w p = true → ∃ f, statusPos b f = p := by
  rw [and_not_eq_zero_iff]
  refine forall_congr' fun p => imp_congr_right fun _ => ?_
  rw [statusDefined, testBit_maskOf, decide_eq_true_iff]
  constructor
  · intro h
    obtain ⟨f, -, hf⟩ := List.mem_map.1 h
    exact ⟨f, hf⟩
  · rintro ⟨f, rfl⟩
    exact statusPos_mem b f

/-! ### Positions are distinct -/

theorem Params.wellFormed_iff (c : Params) :
    c.wellFormed = true ↔
      (StatusFlag.all.map (statusPos c.statusBits)).Nodup ∧
      (CrCommand.all.map (crPos c.crBits)).Nodup ∧
      (PtcrCommand.all.map (ptcrPos c.ptcrBits)).Nodup ∧
      c.ptsrBits.rxten ≠ c.ptsrBits.txten ∧
      (PdcReg.all.map (pdcSlot c.pdcOffsets)).Nodup := by
  simp only [Params.wellFormed, Bool.and_eq_true, decide_eq_true_eq]
  tauto

/-- A map with distinct values on a list is one-to-one on its members. -/
theorem eq_of_nodup_map {α β : Type} {f : α → β} {l : List α} (h : (l.map f).Nodup) {x y : α}
    (hx : x ∈ l) (hy : y ∈ l) (he : f x = f y) : x = y :=
  List.inj_on_of_nodup_map h hx hy he

theorem statusPos_inj {c : Params} (h : c.wellFormed = true) {f g : StatusFlag} :
    statusPos c.statusBits f = statusPos c.statusBits g ↔ f = g := by
  refine ⟨fun e => eq_of_nodup_map ((Params.wellFormed_iff c).1 h).1 ?_ ?_ e, fun e => by rw [e]⟩
  · cases f <;> decide
  · cases g <;> decide

theorem pdcSlot_inj {c : Params} (h : c.wellFormed = true) {r q : PdcReg} :
    pdcSlot c.pdcOffsets r = pdcSlot c.pdcOffsets q ↔ r = q := by
  refine ⟨fun e => eq_of_nodup_map ((Params.wellFormed_iff c).1 h).2.2.2.2 ?_ ?_ e, fun e => by rw [e]⟩
  · cases r <;> decide
  · cases q <;> decide

theorem ptcrPos_inj {c : Params} (h : c.wellFormed = true) {k l : PtcrCommand} :
    ptcrPos c.ptcrBits k = ptcrPos c.ptcrBits l ↔ k = l := by
  refine ⟨fun e => eq_of_nodup_map ((Params.wellFormed_iff c).1 h).2.2.1 ?_ ?_ e, fun e => by rw [e]⟩
  · cases k <;> decide
  · cases l <;> decide

theorem crPos_inj {c : Params} (h : c.wellFormed = true) {k l : CrCommand} :
    crPos c.crBits k = crPos c.crBits l ↔ k = l := by
  refine ⟨fun e => eq_of_nodup_map ((Params.wellFormed_iff c).1 h).2.1 ?_ ?_ e, fun e => by rw [e]⟩
  · cases k <;> decide
  · cases l <;> decide

/-! ### Conversions (R218 (a), (b)) -/

theorem trunc16_zextCount (n : Count) : trunc16 (zextCount n) = n := by simp [trunc16, zextCount]

theorem trunc8_zextByte (b : Byte) : trunc8 (zextByte b) = b := by simp [trunc8, zextByte]

/-- PTSR shows a flag at its bit and 0 elsewhere (R73, R176). -/
theorem testBit_ptsrWord (b : PtsrBits) (r t : Bool) (p : BitPos) :
    testBit (ptsrWord b r t) p = ((r && decide (b.rxten = p)) || (t && decide (b.txten = p))) := by
  cases r <;> cases t <;> simp [ptsrWord, testBit_or, testBit_bitMask, testBit_zero]

end Sys2Proof.Machine
end

