-- ==== Sys2Proof/Laws/Decode.lean ====
section
/-! SUPPORT. The register map is one-to-one, what each offset decodes to, that the packed form of an operation
can be read back, and that a decoded instruction stands for the operation it came from. -/

namespace Sys2Proof

open Machine

/-! ### The register map -/

/-- The one member of a list that meets the test is the one `find?` finds. -/
theorem find_unique {α : Type} {l : List α} {p : α → Bool} {x : α} (hx : x ∈ l) (hp : p x = true)
    (hu : ∀ y ∈ l, p y = true → y = x) : l.find? p = some x := by
  cases h : l.find? p with
  | none => exact absurd hp (List.find?_eq_none.1 h x hx)
  | some y => rw [hu y (List.mem_of_find?_eq_some h) (List.find?_some h)]

theorem uartRegAt_eq {off : Nat} {r : UartReg} (h : uartRegAt off = some r) : uartOffset r = off := by
  simpa using List.find?_some h

theorem pdcRegAt_eq {o : PdcOffsets} {off : Nat} {r : PdcReg} (h : pdcRegAt o off = some r) :
    pdcOffset o r = off := by
  simpa using List.find?_some h

theorem uartOffset_lt (r : UartReg) : uartOffset r < 512 := by cases r <;> decide

theorem pdcOffset_lt (o : PdcOffsets) (r : PdcReg) : pdcOffset o r < 512 := by unfold pdcOffset; omega

/-- Every register stands at a multiple of 4 (R43). -/
theorem uartRegAt_misaligned {off : Nat} (h : off % 4 ≠ 0) : uartRegAt off = none := by
  cases hr : uartRegAt off with
  | none => rfl
  | some r =>
    have := uartRegAt_eq hr
    subst this
    cases r <;> simp [uartOffset] at h

theorem pdcRegAt_misaligned {o : PdcOffsets} {off : Nat} (h : off % 4 ≠ 0) : pdcRegAt o off = none := by
  cases hr : pdcRegAt o off with
  | none => rfl
  | some r =>
    have := pdcRegAt_eq hr
    unfold pdcOffset at this
    omega

theorem uartRegAt_offset (r : UartReg) : uartRegAt (uartOffset r) = some r := by cases r <;> decide

/-- No PDC offset is a UART register's. -/
theorem uartRegAt_pdcOffset (o : PdcOffsets) (r : PdcReg) : uartRegAt (pdcOffset o r) = none := by
  cases hr : uartRegAt (pdcOffset o r) with
  | none => rfl
  | some q =>
    have := uartRegAt_eq hr
    unfold pdcOffset at this
    cases q <;> simp [uartOffset] at this <;> omega

theorem pdcRegAt_offset {c : Params} (h : c.wellFormed = true) (r : PdcReg) :
    pdcRegAt c.pdcOffsets (pdcOffset c.pdcOffsets r) = some r := by
  apply find_unique
  · cases r <;> decide
  · simp
  · intro y _ hy
    simp only [beq_iff_eq, pdcOffset] at hy
    exact (pdcSlot_inj h).1 (Fin.ext (by omega))

/-- An offset holds a UART register or it is none's. -/
theorem uartRegAt_cases (off : Nat) :
    (∃ r, uartRegAt off = some r ∧ uartOffset r = off) ∨
      (uartRegAt off = none ∧ ∀ r, uartOffset r ≠ off) := by
  cases h : uartRegAt off with
  | some r => exact .inl ⟨r, rfl, uartRegAt_eq h⟩
  | none =>
    refine .inr ⟨rfl, ?_⟩
    rintro r rfl
    rw [uartRegAt_offset] at h
    cases h

/-- An offset holds a PDC register or it is none's. -/
theorem pdcRegAt_cases (o : PdcOffsets) (off : Nat) :
    (∃ r, pdcRegAt o off = some r ∧ pdcOffset o r = off) ∨
      (pdcRegAt o off = none ∧ ∀ r, pdcOffset o r ≠ off) := by
  cases h : pdcRegAt o off with
  | some r => exact .inl ⟨r, rfl, pdcRegAt_eq h⟩
  | none =>
    refine .inr ⟨rfl, fun r hr => ?_⟩
    have := List.find?_eq_none.1 h r (by cases r <;> decide)
    simp [hr] at this

/-! ### Decoding one access -/

theorem decode_read_badSize {c : Params} {t : Target} {size off : Nat} (h : size ≠ accessSize) :
    decode c (.read t size off) = .error (.illegalWidth .read off size) := by
  simp [decode, h]

theorem decode_write_badSize {c : Params} {t : Target} {size off : Nat} {v : Word}
    (h : size ≠ accessSize) :
    decode c (.write t size off v) = .error (.illegalWidth .write off size) := by
  simp [decode, h]

theorem decode_read_ok {c : Params} {t : Target} {off : Nat} {i : Instr} :
    decode c (.read t accessSize off) = .ok i ↔ readAt c t off = some i := by
  unfold decode
  simp only [if_true]
  cases readAt c t off <;> simp

theorem decode_write_ok {c : Params} {t : Target} {off : Nat} {v : Word} {i : Instr} :
    decode c (.write t accessSize off v) = .ok i ↔ writeAt c t off v = some i := by
  unfold decode
  simp only [if_true]
  cases writeAt c t off v <;> simp

theorem decode_read_none {c : Params} {t : Target} {off : Nat} (h : readAt c t off = none) :
    decode c (.read t accessSize off) = .error (.illegalOffset .read off) := by
  simp [decode, h]

theorem decode_write_none {c : Params} {t : Target} {off : Nat} {v : Word} (h : writeAt c t off v = none) :
    decode c (.write t accessSize off v) = .error (.illegalOffset .write off) := by
  simp [decode, h]

theorem readAt_uart (c : Params) (r : UartReg) : readAt c .uart (uartOffset r) = readOfUart r := by
  simp [readAt, uartRegAt_offset]

theorem writeAt_uart (c : Params) (r : UartReg) (v : Word) :
    writeAt c .uart (uartOffset r) v = writeOfUart c v r := by
  simp [writeAt, uartRegAt_offset]

theorem readAt_pdc {c : Params} (h : c.wellFormed = true) (r : PdcReg) :
    readAt c .uart (pdcOffset c.pdcOffsets r) = readOfPdc r := by
  simp [readAt, uartRegAt_pdcOffset, pdcRegAt_offset h]

theorem writeAt_pdc {c : Params} (h : c.wellFormed = true) (r : PdcReg) (v : Word) :
    writeAt c .uart (pdcOffset c.pdcOffsets r) v = writeOfPdc c v r := by
  simp [writeAt, uartRegAt_pdcOffset, pdcRegAt_offset h]

theorem readAt_hdx {c : Params} (h : c.wellFormed = true) (r : PdcReg) :
    readAt c .hdx (pdcOffset c.pdcOffsets r) = readOfHdx r := by
  simp [readAt, pdcRegAt_offset h]

theorem writeAt_hdx {c : Params} (h : c.wellFormed = true) (r : PdcReg) (v : Word) :
    writeAt c .hdx (pdcOffset c.pdcOffsets r) v = writeOfHdx c v r := by
  simp [writeAt, pdcRegAt_offset h]

/-- The readable offsets of the UART window: a register of either kind that can be read. -/
theorem readAt_uart_cases {c : Params} {off : Nat} {i : Instr} (h : readAt c .uart off = some i) :
    (∃ r, uartOffset r = off ∧ readOfUart r = some i) ∨
      ∃ r, pdcOffset c.pdcOffsets r = off ∧ readOfPdc r = some i := by
  unfold readAt at h
  simp only at h
  split at h
  · exact .inl ⟨_, uartRegAt_eq ‹_›, h⟩
  · obtain ⟨r, hr, h⟩ := Option.bind_eq_some_iff.1 h
    exact .inr ⟨r, pdcRegAt_eq hr, h⟩

theorem writeAt_uart_cases {c : Params} {off : Nat} {v : Word} {i : Instr}
    (h : writeAt c .uart off v = some i) :
    (∃ r, uartOffset r = off ∧ writeOfUart c v r = some i) ∨
      ∃ r, pdcOffset c.pdcOffsets r = off ∧ writeOfPdc c v r = some i := by
  unfold writeAt at h
  simp only at h
  split at h
  · exact .inl ⟨_, uartRegAt_eq ‹_›, h⟩
  · obtain ⟨r, hr, h⟩ := Option.bind_eq_some_iff.1 h
    exact .inr ⟨r, pdcRegAt_eq hr, h⟩

theorem readAt_hdx_cases {c : Params} {off : Nat} {i : Instr} (h : readAt c .hdx off = some i) :
    ∃ r, pdcOffset c.pdcOffsets r = off ∧ readOfHdx r = some i := by
  obtain ⟨r, hr, h⟩ := Option.bind_eq_some_iff.1 h
  exact ⟨r, pdcRegAt_eq hr, h⟩

theorem writeAt_hdx_cases {c : Params} {off : Nat} {v : Word} {i : Instr}
    (h : writeAt c .hdx off v = some i) :
    ∃ r, pdcOffset c.pdcOffsets r = off ∧ writeOfHdx c v r = some i := by
  obtain ⟨r, hr, h⟩ := Option.bind_eq_some_iff.1 h
  exact ⟨r, pdcRegAt_eq hr, h⟩

/-! ### The split of CR and PTCR writes into rows -/

/-- A CR write is the row of its one command, or the row of the whole write. -/
theorem crForm_cases (c : Params) (v : Word) :
    (∃ k, crCommandsIn c v = [k] ∧ crForm c v = crInstr v k) ∨
      ((crCommandsIn c v).length ≠ 1 ∧ crForm c v = .wCr v) := by
  unfold crForm
  split
  · exact .inl ⟨_, by assumption, rfl⟩
  · rename_i h
    refine .inr ⟨fun hl => ?_, rfl⟩
    obtain ⟨k, hk⟩ := List.length_eq_one_iff.1 hl
    exact h k hk

theorem ptcrForm_cases (c : Params) (v : Word) :
    (∃ k, ptcrCommandsIn c v = [k] ∧ ptcrForm c v = ptcrInstr v k) ∨
      ((ptcrCommandsIn c v).length ≠ 1 ∧ ptcrForm c v = .wPtcr v) := by
  unfold ptcrForm
  split
  · exact .inl ⟨_, by assumption, rfl⟩
  · rename_i h
    refine .inr ⟨fun hl => ?_, rfl⟩
    obtain ⟨k, hk⟩ := List.length_eq_one_iff.1 hl
    exact h k hk

theorem hdxPtcrForm_cases (c : Params) (v : Word) :
    (dualEnable c v = true ∧ hdxPtcrForm c v = .hdxPtcrDualen v) ∨
      (dualEnable c v = false ∧
        ((∃ k, ptcrCommandsIn c v = [k] ∧ hdxPtcrForm c v = hdxPtcrInstr v k) ∨
          ((ptcrCommandsIn c v).length ≠ 1 ∧ hdxPtcrForm c v = .hdxWPtcr v))) := by
  unfold hdxPtcrForm
  cases hd : dualEnable c v
  case true => exact .inl ⟨rfl, by simp⟩
  refine .inr ⟨rfl, ?_⟩
  simp only [Bool.false_eq_true, if_false]
  split
  · exact .inl ⟨_, by assumption, rfl⟩
  · rename_i h
    refine .inr ⟨fun hl => ?_, rfl⟩
    obtain ⟨k, hk⟩ := List.length_eq_one_iff.1 hl
    exact h k hk

theorem mem_ptcrCommandsIn {c : Params} {v : Word} {k : PtcrCommand} :
    k ∈ ptcrCommandsIn c v ↔ testBit v (ptcrPos c.ptcrBits k) = true := by
  have : k ∈ ptcrOrder := by cases k <;> decide
  simp [ptcrCommandsIn, List.mem_filter, this]

theorem mem_crCommandsIn {c : Params} {v : Word} {k : CrCommand} :
    k ∈ crCommandsIn c v ↔ testBit v (crPos c.crBits k) = true := by
  have : k ∈ crOrder := by cases k <;> decide
  simp [crCommandsIn, List.mem_filter, this]

/-- Both enables are two commands. -/
theorem dualEnable_of_single {c : Params} {v : Word} {k : PtcrCommand} (h : ptcrCommandsIn c v = [k]) :
    dualEnable c v = false := by
  cases hd : dualEnable c v
  case false => rfl
  unfold dualEnable at hd
  rw [Bool.and_eq_true] at hd
  have h1 := (mem_ptcrCommandsIn (k := .rxten)).2 hd.1
  have h2 := (mem_ptcrCommandsIn (k := .txten)).2 hd.2
  rw [h, List.mem_singleton] at h1 h2
  rw [← h1] at h2
  cases h2

theorem crForm_wellFormed (c : Params) (v : Word) : (crForm c v).wellFormed c = true := by
  rcases crForm_cases c v with ⟨k, hk, h⟩ | ⟨hk, h⟩ <;> rw [h]
  · cases k <;> simp [crInstr, Instr.wellFormed, hk]
  · simpa [Instr.wellFormed] using hk

theorem ptcrForm_wellFormed (c : Params) (v : Word) : (ptcrForm c v).wellFormed c = true := by
  rcases ptcrForm_cases c v with ⟨k, hk, h⟩ | ⟨hk, h⟩ <;> rw [h]
  · cases k <;> simp [ptcrInstr, Instr.wellFormed, hk]
  · simpa [Instr.wellFormed] using hk

theorem hdxPtcrForm_wellFormed (c : Params) (v : Word) : (hdxPtcrForm c v).wellFormed c = true := by
  rcases hdxPtcrForm_cases c v with ⟨hd, h⟩ | ⟨hd, ⟨k, hk, h⟩ | ⟨hk, h⟩⟩ <;> rw [h]
  · simpa [Instr.wellFormed] using hd
  · cases k <;> simp [hdxPtcrInstr, Instr.wellFormed, hk]
  · simpa [Instr.wellFormed, hd] using hk

/-! ### The operation behind an instruction -/

theorem requestOf_readOfUart {c : Params} {r : UartReg} {i : Instr} (h : readOfUart r = some i) :
    requestOf c i = uartRead r := by
  cases r <;> simp [readOfUart] at h <;> subst h <;> rfl

theorem requestOf_readOfPdc {c : Params} {r : PdcReg} {i : Instr} (h : readOfPdc r = some i) :
    requestOf c i = pdcRead c .uart r := by
  cases r <;> simp [readOfPdc] at h <;> subst h <;> rfl

theorem requestOf_readOfHdx {c : Params} {r : PdcReg} {i : Instr} (h : readOfHdx r = some i) :
    requestOf c i = pdcRead c .hdx r := by
  cases r <;> simp [readOfHdx] at h <;> subst h <;> rfl

theorem requestOf_crForm (c : Params) (v : Word) : requestOf c (crForm c v) = uartWrite .cr v := by
  rcases crForm_cases c v with ⟨k, -, h⟩ | ⟨-, h⟩ <;> rw [h]
  · cases k <;> rfl
  · rfl

theorem requestOf_ptcrForm (c : Params) (v : Word) :
    requestOf c (ptcrForm c v) = pdcWrite c .uart .ptcr v := by
  rcases ptcrForm_cases c v with ⟨k, -, h⟩ | ⟨-, h⟩ <;> rw [h]
  · cases k <;> rfl
  · rfl

theorem requestOf_hdxPtcrForm (c : Params) (v : Word) :
    requestOf c (hdxPtcrForm c v) = pdcWrite c .hdx .ptcr v := by
  rcases hdxPtcrForm_cases c v with ⟨-, h⟩ | ⟨-, ⟨k, -, h⟩ | ⟨-, h⟩⟩ <;> rw [h]
  · rfl
  · cases k <;> rfl
  · rfl

theorem requestOf_writeOfUart {c : Params} {v : Word} {r : UartReg} {i : Instr}
    (h : writeOfUart c v r = some i) : requestOf c i = uartWrite r v := by
  cases r <;> simp [writeOfUart] at h <;> subst h <;> first | rfl | exact requestOf_crForm c v

theorem requestOf_writeOfPdc {c : Params} {v : Word} {r : PdcReg} {i : Instr}
    (h : writeOfPdc c v r = some i) : requestOf c i = pdcWrite c .uart r v := by
  cases r <;> simp [writeOfPdc] at h <;> subst h <;> first | rfl | exact requestOf_ptcrForm c v

theorem requestOf_writeOfHdx {c : Params} {v : Word} {r : PdcReg} {i : Instr}
    (h : writeOfHdx c v r = some i) : requestOf c i = pdcWrite c .hdx r v := by
  cases r <;> simp [writeOfHdx] at h <;> subst h <;> first | rfl | exact requestOf_hdxPtcrForm c v

theorem requestOf_readAt {c : Params} {t : Target} {off : Nat} {i : Instr} (h : readAt c t off = some i) :
    requestOf c i = .read t accessSize off := by
  cases t with
  | uart =>
    rcases readAt_uart_cases h with ⟨r, rfl, h'⟩ | ⟨r, rfl, h'⟩
    · exact requestOf_readOfUart h'
    · exact requestOf_readOfPdc h'
  | hdx =>
    obtain ⟨r, rfl, h'⟩ := readAt_hdx_cases h
    exact requestOf_readOfHdx h'

theorem requestOf_writeAt {c : Params} {t : Target} {off : Nat} {v : Word} {i : Instr}
    (h : writeAt c t off v = some i) : requestOf c i = .write t accessSize off v := by
  cases t with
  | uart =>
    rcases writeAt_uart_cases h with ⟨r, rfl, h'⟩ | ⟨r, rfl, h'⟩
    · exact requestOf_writeOfUart h'
    · exact requestOf_writeOfPdc h'
  | hdx =>
    obtain ⟨r, rfl, h'⟩ := writeAt_hdx_cases h
    exact requestOf_writeOfHdx h'

/-- What one operation decodes to, with its reason: the whole of R63 in one lemma. -/
theorem decode_cases (c : Params) (r : Request) :
    (∃ t size off, r = .read t size off ∧
      ((size ≠ accessSize ∧ decode c r = .error (.illegalWidth .read off size)) ∨
       (size = accessSize ∧ readAt c t off = none ∧ decode c r = .error (.illegalOffset .read off)) ∨
       ∃ i, size = accessSize ∧ readAt c t off = some i ∧ decode c r = .ok i)) ∨
    (∃ t size off v, r = .write t size off v ∧
      ((size ≠ accessSize ∧ decode c r = .error (.illegalWidth .write off size)) ∨
       (size = accessSize ∧ writeAt c t off v = none ∧ decode c r = .error (.illegalOffset .write off)) ∨
       ∃ i, size = accessSize ∧ writeAt c t off v = some i ∧ decode c r = .ok i)) ∨
    (∃ bytes, r = .deliver bytes ∧ decode c r = .ok (.rxDeliver bytes)) ∨
    ∃ t, r = .reset t ∧ decode c r = .ok (.reset t) := by
  cases r with
  | read t size off =>
    refine .inl ⟨t, size, off, rfl, ?_⟩
    by_cases hs : size = accessSize
    · subst hs
      cases hr : readAt c t off with
      | none => exact .inr (.inl ⟨rfl, rfl, decode_read_none hr⟩)
      | some i => exact .inr (.inr ⟨i, rfl, rfl, decode_read_ok.2 hr⟩)
    · exact .inl ⟨hs, decode_read_badSize hs⟩
  | write t size off v =>
    refine .inr (.inl ⟨t, size, off, v, rfl, ?_⟩)
    by_cases hs : size = accessSize
    · subst hs
      cases hr : writeAt c t off v with
      | none => exact .inr (.inl ⟨rfl, rfl, decode_write_none hr⟩)
      | some i => exact .inr (.inr ⟨i, rfl, rfl, decode_write_ok.2 hr⟩)
    · exact .inl ⟨hs, decode_write_badSize hs⟩
  | deliver bytes => exact .inr (.inr (.inl ⟨bytes, rfl, rfl⟩))
  | reset t => exact .inr (.inr (.inr ⟨t, rfl, rfl⟩))

/-- A decoded instruction stands for the operation it came from. -/
theorem requestOf_decode {c : Params} {r : Request} {i : Instr} (h : decode c r = .ok i) :
    requestOf c i = r := by
  rcases decode_cases c r with ⟨t, s, off, rfl, h' | h' | ⟨j, rfl, hj, h'⟩⟩ |
    ⟨t, s, off, v, rfl, h' | h' | ⟨j, rfl, hj, h'⟩⟩ | ⟨b, rfl, h'⟩ | ⟨t, rfl, h'⟩
  · rw [h'.2] at h; cases h
  · rw [h'.2.2] at h; cases h
  · rw [h'] at h; cases h; exact requestOf_readAt hj
  · rw [h'.2] at h; cases h
  · rw [h'.2.2] at h; cases h
  · rw [h'] at h; cases h; exact requestOf_writeAt hj
  · rw [h'] at h; cases h; rfl
  · rw [h'] at h; cases h; rfl

/-- What the registers of the window decode to is well-formed. -/
theorem readAt_wellFormed {c : Params} {t : Target} {off : Nat} {i : Instr} (h : readAt c t off = some i) :
    i.wellFormed c = true := by
  cases t with
  | uart =>
    rcases readAt_uart_cases h with ⟨r, -, h⟩ | ⟨r, -, h⟩
    · cases r <;> simp [readOfUart] at h <;> subst h <;> rfl
    · cases r <;> simp [readOfPdc] at h <;> subst h <;> rfl
  | hdx =>
    obtain ⟨r, -, h⟩ := readAt_hdx_cases h
    cases r <;> simp [readOfHdx] at h <;> subst h <;> rfl

theorem writeAt_wellFormed {c : Params} {t : Target} {off : Nat} {v : Word} {i : Instr}
    (h : writeAt c t off v = some i) : i.wellFormed c = true := by
  cases t with
  | uart =>
    rcases writeAt_uart_cases h with ⟨r, -, h⟩ | ⟨r, -, h⟩
    · cases r <;> simp [writeOfUart] at h <;> subst h <;> first | rfl | exact crForm_wellFormed c v
    · cases r <;> simp [writeOfPdc] at h <;> subst h <;> first | rfl | exact ptcrForm_wellFormed c v
  | hdx =>
    obtain ⟨r, -, h⟩ := writeAt_hdx_cases h
    cases r <;> simp [writeOfHdx] at h <;> subst h <;> first | rfl | exact hdxPtcrForm_wellFormed c v

/-! ### The packed form (R61) -/

theorem opwOf_toNat {k off : Nat} (hk : k < 4) (ho : off < 512) : (opwOf k off).toNat = k * 512 + off := by
  unfold opwOf
  rw [BitVec.toNat_ofNat]
  apply Nat.mod_eq_of_lt
  omega

theorem unpack_pack_read {t : Target} {off : Nat} (ho : off < 512) :
    unpack (pack (.read t accessSize off)) = some (.read t accessSize off) := by
  simp only [pack, unpack, opwOf_toNat (k := 0) (by omega) ho]
  simp [Nat.div_eq_of_lt ho, Nat.mod_eq_of_lt ho]

theorem unpack_pack_write {t : Target} {off : Nat} {v : Word} (ho : off < 512) :
    unpack (pack (.write t accessSize off v)) = some (.write t accessSize off v) := by
  simp only [pack, unpack, opwOf_toNat (k := 1) (by omega) ho]
  have h1 : (1 * 512 + off) / 512 = 1 := by omega
  have h2 : (1 * 512 + off) % 512 = off := by omega
  simp [h1, h2]

theorem unpack_pack_deliver (b : Byte) : unpack (pack (.deliver [b])) = some (.deliver [b]) := by
  simp only [pack, unpack, opwOf_toNat (k := 2) (off := 0) (by omega) (by omega)]
  simp [trunc8_zextByte]

theorem unpack_pack_reset (t : Target) : unpack (pack (.reset t)) = some (.reset t) := by
  simp only [pack, unpack, opwOf_toNat (k := 3) (off := 0) (by omega) (by omega)]
  simp

theorem unpack_pack_uartRead (r : UartReg) : unpack (pack (uartRead r)) = some (uartRead r) :=
  unpack_pack_read (uartOffset_lt r)

theorem unpack_pack_uartWrite (r : UartReg) (v : Word) :
    unpack (pack (uartWrite r v)) = some (uartWrite r v) := unpack_pack_write (uartOffset_lt r)

theorem unpack_pack_pdcRead (c : Params) (t : Target) (r : PdcReg) :
    unpack (pack (pdcRead c t r)) = some (pdcRead c t r) := unpack_pack_read (pdcOffset_lt _ r)

theorem unpack_pack_pdcWrite (c : Params) (t : Target) (r : PdcReg) (v : Word) :
    unpack (pack (pdcWrite c t r v)) = some (pdcWrite c t r v) := unpack_pack_write (pdcOffset_lt _ r)

/-- A packed form that can be read is the packed form of what is read. -/
theorem pack_of_unpack {x : OpCode} {r : Request} (h : unpack x = some r) : pack r = x := by
  obtain ⟨t, opw, data⟩ := x
  have hx := opw.isLt
  have e : ∀ k off, opw.toNat / 512 = k → off = opw.toNat % 512 → opwOf k off = opw := by
    rintro k off hk rfl
    apply BitVec.eq_of_toNat_eq
    rw [opwOf_toNat] <;> omega
  unfold unpack at h
  simp only at h
  split at h
  · rename_i hk
    split at h
    · rename_i hd
      cases h
      simp only [pack]
      rw [e 0 _ hk rfl, hd]
    · cases h
  · rename_i hk
    cases h
    simp only [pack]
    rw [e 1 _ hk rfl]
  · rename_i hk
    split at h
    · rename_i hd
      cases h
      obtain ⟨h1, h2, h3⟩ := hd
      simp only [pack, List.headD]
      rw [e 2 0 hk h2.symm, h3, h1]
    · cases h
  · rename_i n h0 h1 h2
    split at h
    · rename_i hd
      cases h
      simp only [pack]
      rw [e 3 0 (by simp only [imp_false] at h0 h1 h2; omega) hd.1.symm, hd.2]
    · cases h

/-- A delivery that can be read back carries one byte. -/
theorem unpack_deliver_length {x : OpCode} {bytes : List Byte} (h : unpack x = some (.deliver bytes)) :
    bytes.length = 1 := by
  unfold unpack at h
  simp only at h
  split at h <;> (try split at h) <;> cases h
  rfl

end Sys2Proof
end

