-- ==== Sys2Proof/Laws/State.lean ====
section
/-! SUPPORT. One lemma per field per named update of the state, so that no proof unfolds an update. -/

namespace Sys2Proof.Machine

@[simp] theorem record_cfg (s : State) (e : Event) : (s.record e).cfg = s.cfg := rfl
@[simp] theorem record_uart (s : State) (e : Event) : (s.record e).uart = s.uart := rfl
@[simp] theorem record_hdx (s : State) (e : Event) : (s.record e).hdx = s.hdx := rfl
@[simp] theorem record_pending (s : State) (e : Event) : (s.record e).pending = s.pending := rfl
@[simp] theorem record_history (s : State) (e : Event) : (s.record e).history = s.history ++ [e] := rfl

@[simp] theorem returnValue_cfg (t : Target) (v : Word) (s : State) : (returnValue t v s).cfg = s.cfg := rfl
@[simp] theorem returnValue_uart (t : Target) (v : Word) (s : State) : (returnValue t v s).uart = s.uart := rfl
@[simp] theorem returnValue_hdx (t : Target) (v : Word) (s : State) : (returnValue t v s).hdx = s.hdx := rfl
@[simp] theorem returnValue_pending (t : Target) (v : Word) (s : State) : (returnValue t v s).pending = s.pending := rfl
@[simp] theorem returnValue_history (t : Target) (v : Word) (s : State) : (returnValue t v s).history = s.history ++ [.readData t v] := rfl

@[simp] theorem emitByte_cfg (b : Byte) (s : State) : (emitByte b s).cfg = s.cfg := rfl
@[simp] theorem emitByte_uart (b : Byte) (s : State) : (emitByte b s).uart = s.uart := rfl
@[simp] theorem emitByte_hdx (b : Byte) (s : State) : (emitByte b s).hdx = s.hdx := rfl
@[simp] theorem emitByte_pending (b : Byte) (s : State) : (emitByte b s).pending = s.pending := rfl
@[simp] theorem emitByte_history (b : Byte) (s : State) : (emitByte b s).history = s.history ++ [.tx b] := rfl

@[simp] theorem putAction_cfg (t : Target) (a : Action) (s : State) : (putAction t a s).cfg = s.cfg := rfl
@[simp] theorem putAction_uart (t : Target) (a : Action) (s : State) : (putAction t a s).uart = s.uart := rfl
@[simp] theorem putAction_hdx (t : Target) (a : Action) (s : State) : (putAction t a s).hdx = s.hdx := rfl
@[simp] theorem putAction_pending (t : Target) (a : Action) (s : State) : (putAction t a s).pending = s.pending := rfl
@[simp] theorem putAction_history (t : Target) (a : Action) (s : State) : (putAction t a s).history = s.history ++ [.action t a] := rfl

@[simp] theorem handleAction_cfg (a : Action) (s : State) : (handleAction a s).cfg = s.cfg := by
  unfold handleAction; split <;> rfl
@[simp] theorem handleAction_uart (a : Action) (s : State) : (handleAction a s).uart = s.uart := by
  unfold handleAction; split <;> rfl
@[simp] theorem handleAction_hdx (a : Action) (s : State) : (handleAction a s).hdx = s.hdx := by
  unfold handleAction; split <;> rfl
@[simp] theorem handleAction_pending (a : Action) (s : State) : (handleAction a s).pending = s.pending := by
  unfold handleAction; split <;> rfl

theorem handleAction_history (a : Action) (s : State) :
    (handleAction a s).history =
      s.history ++ (if a.isTransfer = true ∧ s.cfg.xferEngine = .null then [.log a] else []) := by
  unfold handleAction; split <;> simp

@[simp] theorem uartAction_cfg (a : Action) (s : State) : (uartAction a s).cfg = s.cfg := by
  simp [uartAction]
@[simp] theorem uartAction_uart (a : Action) (s : State) : (uartAction a s).uart = s.uart := by
  simp [uartAction]
@[simp] theorem uartAction_hdx (a : Action) (s : State) : (uartAction a s).hdx = s.hdx := by
  simp [uartAction]
@[simp] theorem uartAction_pending (a : Action) (s : State) : (uartAction a s).pending = s.pending := by
  simp [uartAction]

/-- The action goes out, and after it the log line of a transfer action with the null engine (R211, R213). -/
theorem uartAction_history (a : Action) (s : State) :
    (uartAction a s).history =
      s.history ++ .action .uart a ::
        (if a.isTransfer = true ∧ s.cfg.xferEngine = .null then [.log a] else []) := by
  rw [uartAction, handleAction_history, putAction_history, List.append_assoc]
  rfl

@[simp] theorem writeFlag_cfg (s : State) (f : StatusFlag) (b : Bool) : (s.writeFlag f b).cfg = s.cfg := rfl
@[simp] theorem writeFlag_hdx (s : State) (f : StatusFlag) (b : Bool) : (s.writeFlag f b).hdx = s.hdx := rfl
@[simp] theorem writeFlag_pending (s : State) (f : StatusFlag) (b : Bool) : (s.writeFlag f b).pending = s.pending := rfl
@[simp] theorem writeFlag_history (s : State) (f : StatusFlag) (b : Bool) : (s.writeFlag f b).history = s.history := rfl
@[simp] theorem writeFlag_mode (s : State) (f : StatusFlag) (b : Bool) : (s.writeFlag f b).uart.mode = s.uart.mode := rfl
@[simp] theorem writeFlag_status (s : State) (f : StatusFlag) (b : Bool) : (s.writeFlag f b).uart.status = writeBit s.uart.status (statusPos s.cfg.statusBits f) b := rfl
@[simp] theorem writeFlag_interruptMask (s : State) (f : StatusFlag) (b : Bool) : (s.writeFlag f b).uart.interruptMask = s.uart.interruptMask := rfl
@[simp] theorem writeFlag_rxHolding (s : State) (f : StatusFlag) (b : Bool) : (s.writeFlag f b).uart.rxHolding = s.uart.rxHolding := rfl
@[simp] theorem writeFlag_baudDivisor (s : State) (f : StatusFlag) (b : Bool) : (s.writeFlag f b).uart.baudDivisor = s.uart.baudDivisor := rfl
@[simp] theorem writeFlag_frameNumber (s : State) (f : StatusFlag) (b : Bool) : (s.writeFlag f b).uart.frameNumber = s.uart.frameNumber := rfl
@[simp] theorem writeFlag_rxEnabled (s : State) (f : StatusFlag) (b : Bool) : (s.writeFlag f b).uart.rxEnabled = s.uart.rxEnabled := rfl
@[simp] theorem writeFlag_txEnabled (s : State) (f : StatusFlag) (b : Bool) : (s.writeFlag f b).uart.txEnabled = s.uart.txEnabled := rfl
@[simp] theorem writeFlag_rxChannel (s : State) (f : StatusFlag) (b : Bool) : (s.writeFlag f b).uart.rxChannel = s.uart.rxChannel := rfl
@[simp] theorem writeFlag_txChannel (s : State) (f : StatusFlag) (b : Bool) : (s.writeFlag f b).uart.txChannel = s.uart.txChannel := rfl
@[simp] theorem writeFlag_fault (s : State) (f : StatusFlag) (b : Bool) : (s.writeFlag f b).uart.fault = s.uart.fault := rfl

@[simp] theorem mapChannel_cfg (s : State) (d : Direction) (g : DmaChannel → DmaChannel) :
    (s.mapChannel d g).cfg = s.cfg := by cases d <;> rfl
@[simp] theorem mapChannel_hdx (s : State) (d : Direction) (g : DmaChannel → DmaChannel) :
    (s.mapChannel d g).hdx = s.hdx := by cases d <;> rfl
@[simp] theorem mapChannel_pending (s : State) (d : Direction) (g : DmaChannel → DmaChannel) :
    (s.mapChannel d g).pending = s.pending := by cases d <;> rfl
@[simp] theorem mapChannel_history (s : State) (d : Direction) (g : DmaChannel → DmaChannel) :
    (s.mapChannel d g).history = s.history := by cases d <;> rfl
@[simp] theorem mapChannel_mode (s : State) (d : Direction) (g : DmaChannel → DmaChannel) :
    (s.mapChannel d g).uart.mode = s.uart.mode := by cases d <;> rfl
@[simp] theorem mapChannel_status (s : State) (d : Direction) (g : DmaChannel → DmaChannel) :
    (s.mapChannel d g).uart.status = s.uart.status := by cases d <;> rfl
@[simp] theorem mapChannel_interruptMask (s : State) (d : Direction) (g : DmaChannel → DmaChannel) :
    (s.mapChannel d g).uart.interruptMask = s.uart.interruptMask := by cases d <;> rfl
@[simp] theorem mapChannel_rxHolding (s : State) (d : Direction) (g : DmaChannel → DmaChannel) :
    (s.mapChannel d g).uart.rxHolding = s.uart.rxHolding := by cases d <;> rfl
@[simp] theorem mapChannel_baudDivisor (s : State) (d : Direction) (g : DmaChannel → DmaChannel) :
    (s.mapChannel d g).uart.baudDivisor = s.uart.baudDivisor := by cases d <;> rfl
@[simp] theorem mapChannel_frameNumber (s : State) (d : Direction) (g : DmaChannel → DmaChannel) :
    (s.mapChannel d g).uart.frameNumber = s.uart.frameNumber := by cases d <;> rfl
@[simp] theorem mapChannel_rxEnabled (s : State) (d : Direction) (g : DmaChannel → DmaChannel) :
    (s.mapChannel d g).uart.rxEnabled = s.uart.rxEnabled := by cases d <;> rfl
@[simp] theorem mapChannel_txEnabled (s : State) (d : Direction) (g : DmaChannel → DmaChannel) :
    (s.mapChannel d g).uart.txEnabled = s.uart.txEnabled := by cases d <;> rfl
@[simp] theorem mapChannel_fault (s : State) (d : Direction) (g : DmaChannel → DmaChannel) :
    (s.mapChannel d g).uart.fault = s.uart.fault := by cases d <;> rfl
@[simp] theorem mapChannel_rx_same (s : State) (g : DmaChannel → DmaChannel) : (s.mapChannel .rx g).uart.rxChannel = g s.uart.rxChannel := rfl
@[simp] theorem mapChannel_rx_other (s : State) (g : DmaChannel → DmaChannel) : (s.mapChannel .rx g).uart.txChannel = s.uart.txChannel := rfl
@[simp] theorem mapChannel_tx_same (s : State) (g : DmaChannel → DmaChannel) : (s.mapChannel .tx g).uart.txChannel = g s.uart.txChannel := rfl
@[simp] theorem mapChannel_tx_other (s : State) (g : DmaChannel → DmaChannel) : (s.mapChannel .tx g).uart.rxChannel = s.uart.rxChannel := rfl

@[simp] theorem setHdxEnables_cfg (s : State) (r t : Bool) : (s.setHdxEnables r t).cfg = s.cfg := rfl
@[simp] theorem setHdxEnables_uart (s : State) (r t : Bool) : (s.setHdxEnables r t).uart = s.uart := rfl
@[simp] theorem setHdxEnables_pending (s : State) (r t : Bool) : (s.setHdxEnables r t).pending = s.pending := rfl
@[simp] theorem setHdxEnables_history (s : State) (r t : Bool) : (s.setHdxEnables r t).history = s.history := rfl
@[simp] theorem setHdxEnables_pointer (s : State) (r t : Bool) : (s.setHdxEnables r t).hdx.pointer = s.hdx.pointer := rfl
@[simp] theorem setHdxEnables_count (s : State) (r t : Bool) : (s.setHdxEnables r t).hdx.count = s.hdx.count := rfl
@[simp] theorem setHdxEnables_nextPointer (s : State) (r t : Bool) : (s.setHdxEnables r t).hdx.nextPointer = s.hdx.nextPointer := rfl
@[simp] theorem setHdxEnables_nextCount (s : State) (r t : Bool) : (s.setHdxEnables r t).hdx.nextCount = s.hdx.nextCount := rfl
@[simp] theorem setHdxEnables_rxEnabled (s : State) (r t : Bool) : (s.setHdxEnables r t).hdx.rxEnabled = r := rfl
@[simp] theorem setHdxEnables_txEnabled (s : State) (r t : Bool) : (s.setHdxEnables r t).hdx.txEnabled = t := rfl
@[simp] theorem setHdxEnables_fault (s : State) (r t : Bool) : (s.setHdxEnables r t).hdx.fault = s.hdx.fault := rfl

@[simp] theorem resetUart_cfg (s : State) : (resetUart s).cfg = s.cfg := rfl
@[simp] theorem resetUart_hdx (s : State) : (resetUart s).hdx = s.hdx := rfl
@[simp] theorem resetUart_pending (s : State) : (resetUart s).pending = s.pending := rfl
@[simp] theorem resetUart_history (s : State) : (resetUart s).history = s.history := rfl
@[simp] theorem resetUart_fault (s : State) : (resetUart s).uart.fault = s.uart.fault := rfl
@[simp] theorem resetUart_status (s : State) : (resetUart s).uart.status = bitMask s.cfg.statusBits.txempty := rfl
@[simp] theorem resetUart_interruptMask (s : State) : (resetUart s).uart.interruptMask = 0 := rfl
@[simp] theorem resetHdx_cfg (s : State) : (resetHdx s).cfg = s.cfg := rfl
@[simp] theorem resetHdx_uart (s : State) : (resetHdx s).uart = s.uart := rfl
@[simp] theorem resetHdx_pending (s : State) : (resetHdx s).pending = s.pending := rfl
@[simp] theorem resetHdx_history (s : State) : (resetHdx s).history = s.history := rfl
@[simp] theorem resetHdx_fault (s : State) : (resetHdx s).hdx.fault = s.hdx.fault := rfl
@[simp] theorem resetHdx_rxEnabled (s : State) : (resetHdx s).hdx.rxEnabled = false := rfl
@[simp] theorem resetHdx_txEnabled (s : State) : (resetHdx s).hdx.txEnabled = false := rfl

@[simp] theorem raiseViolation_cfg (t : Target) (v : Violation) (s : State) :
    (raiseViolation t v s).cfg = s.cfg := by cases t <;> rfl
@[simp] theorem raiseViolation_pending (t : Target) (v : Violation) (s : State) :
    (raiseViolation t v s).pending = s.pending := by cases t <;> rfl
@[simp] theorem raiseViolation_history (t : Target) (v : Violation) (s : State) :
    (raiseViolation t v s).history = s.history ++ [.fault t v] := by cases t <;> rfl
@[simp] theorem raiseViolation_uart (t : Target) (v : Violation) (s : State) :
    (raiseViolation t v s).uart = { s.uart with fault := s.uart.fault || decide (t = .uart) } := by
  cases t <;> simp [raiseViolation]
@[simp] theorem raiseViolation_hdx (t : Target) (v : Violation) (s : State) :
    (raiseViolation t v s).hdx = { s.hdx with fault := s.hdx.fault || decide (t = .hdx) } := by
  cases t <;> simp [raiseViolation]

/-- A violation ends the session (R226, R227). -/
theorem raiseViolation_sessionOver (t : Target) (v : Violation) (s : State) :
    (raiseViolation t v s).sessionOver = true := by
  cases t <;> simp [State.sessionOver]

/-! ### Status flags -/

/-- Writing one flag changes that flag and no other (R8). -/
theorem flag_writeFlag {s : State} (h : s.cfg.wellFormed = true) (f g : StatusFlag) (b : Bool) :
    (s.writeFlag f b).flag g = if f = g then b else s.flag g := by
  simp [State.flag, testBit_writeBit, statusPos_inj h]

/-- Writing one flag leaves every unnamed bit. -/
theorem testBit_writeFlag_unnamed (s : State) (f : StatusFlag) (b : Bool) {p : BitPos}
    (h : ∀ g, statusPos s.cfg.statusBits g ≠ p) :
    testBit (s.writeFlag f b).uart.status p = testBit s.uart.status p := by
  simp [testBit_writeBit, h f]

theorem sessionOver_writeFlag (s : State) (f : StatusFlag) (b : Bool) :
    (s.writeFlag f b).sessionOver = s.sessionOver := rfl

end Sys2Proof.Machine
end

