-- ==== Sys2Proof/Laws/Ops.lean ====
section
/-! SUPPORT. What the shared operations and one step can do, said once. -/

namespace Sys2Proof.Machine

/-- Outside the fault state an operation completes. -/
theorem operate_live {s : State} (h : s.Live) (f : State → State) : operate f s = .next (f s) := by
  simp [operate, h]

/-- In the fault state it has no step (R227). -/
theorem operate_over {s : State} (h : s.sessionOver = true) (f : State → State) :
    operate f s = .fault .sessionOver := by
  simp [operate, h]

/-- If an operation answers a next state, the session was live and the state is its effect's. -/
theorem operate_next_iff {f : State → State} {s t : State} :
    operate f s = .next t ↔ s.Live ∧ f s = t := by
  unfold operate State.Live
  cases h : s.sessionOver <;> simp

/-- What each instruction does to a live state, over the shared operations: the meanings without their guard. -/
def effect (i : Instr) (s : State) : State :=
  match i with
  | .rMr => returnValue .uart s.uart.mode s
  | .rImr => returnValue .uart s.uart.interruptMask s
  | .rSr => returnValue .uart s.uart.status s
  | .rRhr => returnValue .uart (zextByte s.uart.rxHolding) (s.writeFlag .rxrdy false)
  | .rBrgr => returnValue .uart s.uart.baudDivisor s
  | .rCidr => returnValue .uart s.cfg.chipId s
  | .rExid => returnValue .uart s.cfg.extId s
  | .rFnr => returnValue .uart s.uart.frameNumber s
  | .rRpr => returnValue .uart s.uart.rxChannel.currentPointer s
  | .rRcr => returnValue .uart (zextCount s.uart.rxChannel.currentCount) s
  | .rTpr => returnValue .uart s.uart.txChannel.currentPointer s
  | .rTcr => returnValue .uart (zextCount s.uart.txChannel.currentCount) s
  | .rRnpr => returnValue .uart s.uart.rxChannel.nextPointer s
  | .rRncr => returnValue .uart (zextCount s.uart.rxChannel.nextCount) s
  | .rTnpr => returnValue .uart s.uart.txChannel.nextPointer s
  | .rTncr => returnValue .uart (zextCount s.uart.txChannel.nextCount) s
  | .rPtsr =>
    returnValue .uart
      (ptsrWord s.cfg.ptsrBits s.uart.rxChannel.transferEnabled s.uart.txChannel.transferEnabled) s
  | .wCr v => doCrWrite v s
  | .wMr v => { s with uart := { s.uart with mode := v } }
  | .wIer v => { s with uart := { s.uart with interruptMask := s.uart.interruptMask ||| ierOperand s.cfg v } }
  | .wIdr v => { s with uart := { s.uart with interruptMask := s.uart.interruptMask &&& ~~~ v } }
  | .wThr v => if s.cfg.txGate && !s.uart.txEnabled then s else emitByte (trunc8 v) s
  | .wBrgr v => { s with uart := { s.uart with baudDivisor := v } }
  | .wFnr v => { s with uart := { s.uart with frameNumber := v } }
  | .wRpr v => uartAction .none (s.mapChannel .rx fun ch => { ch with currentPointer := v })
  | .wRcr v =>
    uartAction (classifyCount .rx s.uart.rxChannel.transferEnabled (trunc16 v))
      (s.mapChannel .rx fun ch => { ch with currentCount := trunc16 v })
  | .wTpr v => uartAction .none (s.mapChannel .tx fun ch => { ch with currentPointer := v })
  | .wTcr v =>
    uartAction (classifyCount .tx s.uart.txChannel.transferEnabled (trunc16 v))
      (s.mapChannel .tx fun ch => { ch with currentCount := trunc16 v })
  | .wRnpr v => uartAction .none (s.mapChannel .rx fun ch => { ch with nextPointer := v })
  | .wRncr v =>
    uartAction (nextCountAction s.cfg .rx s.uart.rxChannel.transferEnabled (trunc16 v))
      (s.mapChannel .rx fun ch => { ch with nextCount := trunc16 v })
  | .wTnpr v => uartAction .none (s.mapChannel .tx fun ch => { ch with nextPointer := v })
  | .wTncr v =>
    uartAction (nextCountAction s.cfg .tx s.uart.txChannel.transferEnabled (trunc16 v))
      (s.mapChannel .tx fun ch => { ch with nextCount := trunc16 v })
  | .wPtcr v => uartAction .stateChanged ((ptcrCommandsIn s.cfg v).foldl (fun s k => doPtcr k s) s)
  | .rxDeliver bytes =>
    match bytes with
    | [b] => arrive b s
    | _ => raiseViolation .uart (.badDeliverySize bytes.length) s
  | .reset t =>
    match t with
    | .uart => resetUart s
    | .hdx => resetHdx s
  | .crRstrx _ => doRstrx s
  | .crRsttx _ => doRsttx s
  | .crRxen _ => doRxen s
  | .crRxdis _ => doRxdis s
  | .crTxen _ => doTxen s
  | .crTxdis _ => doTxdis s
  | .crRststa _ => doRststa s
  | .ptcrRxten _ => uartAction .stateChanged (doPtcr .rxten s)
  | .ptcrRxtdis _ => uartAction .stateChanged (doPtcr .rxtdis s)
  | .ptcrTxten _ => uartAction .stateChanged (doPtcr .txten s)
  | .ptcrTxtdis _ => uartAction .stateChanged (doPtcr .txtdis s)
  | .hdxWRpr v => putAction .hdx .none { s with hdx := { s.hdx with pointer := v } }
  | .hdxWTpr v => putAction .hdx .none { s with hdx := { s.hdx with pointer := v } }
  | .hdxRRpr => returnValue .hdx s.hdx.pointer s
  | .hdxRTpr => returnValue .hdx s.hdx.pointer s
  | .hdxWRcr v =>
    putAction .hdx (classifyCount .rx s.hdx.rxEnabled (trunc16 v))
      { s with hdx := { s.hdx with count := trunc16 v } }
  | .hdxWTcr v =>
    putAction .hdx (classifyCount .tx s.hdx.txEnabled (trunc16 v))
      { s with hdx := { s.hdx with count := trunc16 v } }
  | .hdxRRcr => returnValue .hdx (zextCount s.hdx.count) s
  | .hdxRTcr => returnValue .hdx (zextCount s.hdx.count) s
  | .hdxWRnpr v => putAction .hdx .none { s with hdx := { s.hdx with nextPointer := v } }
  | .hdxWTnpr v => putAction .hdx .none { s with hdx := { s.hdx with nextPointer := v } }
  | .hdxRRnpr => returnValue .hdx s.hdx.nextPointer s
  | .hdxRTnpr => returnValue .hdx s.hdx.nextPointer s
  | .hdxWRncr v =>
    putAction .hdx (nextCountAction s.cfg .rx s.hdx.rxEnabled (trunc16 v))
      { s with hdx := { s.hdx with nextCount := trunc16 v } }
  | .hdxWTncr v =>
    putAction .hdx (nextCountAction s.cfg .tx s.hdx.txEnabled (trunc16 v))
      { s with hdx := { s.hdx with nextCount := trunc16 v } }
  | .hdxRRncr => returnValue .hdx (zextCount s.hdx.nextCount) s
  | .hdxRTncr => returnValue .hdx (zextCount s.hdx.nextCount) s
  | .hdxWPtcr v =>
    if dualEnable s.cfg v then dualEnableViolation v s
    else putAction .hdx .stateChanged (doHdxPtcr v s)
  | .hdxRPtsr => returnValue .hdx (ptsrWord s.cfg.ptsrBits s.hdx.rxEnabled s.hdx.txEnabled) s
  | .hdxPtcrDualen v => dualEnableViolation v s
  | .hdxPtcrRxten _ => putAction .hdx .stateChanged (doHdxRxten s)
  | .hdxPtcrTxten _ => putAction .hdx .stateChanged (doHdxTxten s)
  | .hdxPtcrRxtdis _ => putAction .hdx .stateChanged (doHdxDisable s)
  | .hdxPtcrTxtdis _ => putAction .hdx .stateChanged (doHdxDisable s)

/-- Every meaning is `operate` of its effect. -/
theorem exec_eq_operate (i : Instr) (s : State) : exec i s = operate (effect i) s := by
  cases i <;> rfl

/-- Live, an instruction completes; in the fault state it has no step. -/
theorem exec_cases (i : Instr) (s : State) :
    (s.Live ∧ exec i s = .next (effect i s)) ∨
      (s.sessionOver = true ∧ exec i s = .fault .sessionOver) := by
  rw [exec_eq_operate]
  cases h : s.sessionOver
  · exact .inl ⟨h, operate_live h _⟩
  · exact .inr ⟨rfl, operate_over h _⟩

theorem exec_live {s : State} (h : s.Live) (i : Instr) : exec i s = .next (effect i s) := by
  rw [exec_eq_operate, operate_live h]

theorem exec_over {s : State} (h : s.sessionOver = true) (i : Instr) : exec i s = .fault .sessionOver := by
  rw [exec_eq_operate, operate_over h]

/-- The inversion lemma of `exec`: what a next state says. -/
theorem exec_next_iff {i : Instr} {s t : State} : exec i s = .next t ↔ s.Live ∧ effect i s = t := by
  rw [exec_eq_operate, operate_next_iff]

/-- What one step can do: in the fault state nothing; with nothing issued, nothing changes; an operation is
decoded and run, or rejected by its violation; an engine step is taken by `engineStep`. -/
theorem step_over {s : State} (h : s.sessionOver = true) : step s = .fault .sessionOver := by
  simp [step, h]

theorem step_idle {s : State} (h : s.Live) (hp : s.pending = []) : step s = .next s := by
  simp [step, h, nextInput, hp]

theorem step_op {s : State} {r : Request} {rest : List Input} (h : s.Live)
    (hp : s.pending = .op r :: rest) : step s = perform r { s with pending := rest } := by
  simp [step, h, nextInput, hp]

theorem step_engine {s : State} {e : EngineStep} {rest : List Input} (h : s.Live)
    (hp : s.pending = .engine e :: rest) : step s = engineStep e { s with pending := rest } := by
  simp [step, h, nextInput, hp]

theorem perform_ok {s : State} {r : Request} {i : Instr} (h : decode s.cfg r = .ok i) :
    perform r s = exec i s := by simp [perform, h]

theorem perform_error {s : State} {r : Request} {v : Violation} (h : decode s.cfg r = .error v) :
    perform r s = operate (raiseViolation r.target v) s := by simp [perform, h]

/-- Issuing an operation and stepping performs it. -/
theorem step_issue {s : State} (h : s.Live) (r : Request) : step (issue r s) = perform r s :=
  step_op (s := issue r s) h rfl

/-- If a step answers a next state, it was idle, a decoded operation, a rejected one, or an engine step. -/
theorem step_next_cases {s t : State} (h : step s = .next t) :
    s.Live ∧
      ((s.pending = [] ∧ t = s) ∨
       (∃ r rest i, s.pending = .op r :: rest ∧ decode s.cfg r = .ok i ∧
          exec i { s with pending := rest } = .next t) ∨
       (∃ r rest v, s.pending = .op r :: rest ∧ decode s.cfg r = .error v ∧
          t = raiseViolation r.target v { s with pending := rest }) ∨
       (∃ e rest, s.pending = .engine e :: rest ∧ s.cfg.xferEngine ≠ .null ∧
          (s.channel e.direction).transferEnabled = true ∧
          t = engineEffect e { s with pending := rest })) := by
  cases hl : s.sessionOver
  case true => rw [step_over hl] at h; cases h
  refine ⟨hl, ?_⟩
  cases hp : s.pending with
  | nil => rw [step_idle hl hp] at h; cases h; exact .inl ⟨rfl, rfl⟩
  | cons x rest =>
    cases x with
    | op r =>
      rw [step_op hl hp] at h
      cases hd : decode s.cfg r with
      | ok i => exact .inr (.inl ⟨r, rest, i, rfl, hd, (perform_ok (s := { s with pending := rest }) hd).symm.trans h⟩)
      | error v =>
        rw [perform_error (s := { s with pending := rest }) hd] at h
        exact .inr (.inr (.inl ⟨r, rest, v, rfl, hd, (operate_next_iff.1 h).2.symm⟩))
    | engine e =>
      rw [step_engine hl hp] at h
      have hl' : ({ s with pending := rest } : State).sessionOver = false := hl
      simp only [engineStep, hl', Bool.false_eq_true, if_false] at h
      split at h
      · cases h
      · rename_i hx
        split at h
        · rename_i ha
          injection h with h
          exact .inr (.inr (.inr ⟨e, rest, rfl, hx, ha, h.symm⟩))
        · cases h

end Sys2Proof.Machine
end

