-- ==== Sys2Proof/Laws/Access.lean ====
section
/-! SUPPORT. How an operation meets a register: what a step does with an operation that decodes or is rejected,
and the terms `ReadOnlyAt`, `WriteOnlyAt` from the two decoders. -/

namespace Sys2Proof.Machine

/-- An operation that decodes runs its instruction. -/
theorem step_issue_ok {s : State} {r : Request} {i : Instr} (h : s.Live) (hd : decode s.cfg r = .ok i) :
    step (issue r s) = exec i s := by
  rw [step_issue h, perform_ok hd]

/-- An operation that does not decode is rejected with the cause decoding names. -/
theorem rejects_of_decode {s : State} {r : Request} {v : Violation} (h : s.Live)
    (hd : decode s.cfg r = .error v) : Rejects s r v := by
  unfold Rejects
  rw [step_issue h, perform_error hd, operate, if_neg (by simpa using h)]

theorem readOnlyAt_of {s : State} {t : Target} {off : Nat} {i : Instr} (h : s.Live)
    (hr : readAt s.cfg t off = some i) (hw : ∀ v, writeAt s.cfg t off v = none) : ReadOnlyAt s t off i :=
  ⟨step_issue_ok h (decode_read_ok.2 hr),
    fun _ hs => rejects_of_decode h (decode_read_badSize hs),
    fun v => rejects_of_decode h (decode_write_none (hw v))⟩

/-- `f` may be another row of the same write, if it does the same. -/
theorem writeOnlyAt_of {s : State} {t : Target} {off : Nat} {f g : Word → Instr} (h : s.Live)
    (hw : ∀ v, writeAt s.cfg t off v = some (g v)) (hr : readAt s.cfg t off = none)
    (hg : ∀ v, exec (g v) s = exec (f v) s) : WriteOnlyAt s t off f :=
  ⟨fun v => (step_issue_ok h (decode_write_ok.2 (hw v))).trans (hg v),
    fun _ _ hs => rejects_of_decode h (decode_write_badSize hs),
    rejects_of_decode h (decode_read_none hr)⟩

/-- An enabled flag that is set holds the line high. -/
theorem irqLevel_of_flag {s : State} {f : StatusFlag} (h : s.flag f = true)
    (hm : testBit s.uart.interruptMask (statusPos s.cfg.statusBits f) = true) : irqLevel s = true :=
  (latch_iff _ _).2 ⟨_, h, hm⟩

end Sys2Proof.Machine
end

