-- ==== Sys2Proof/Laws/Effects.lean ====
section
/-! SUPPORT. What the operations of the meanings leave unchanged, and the frames of whole groups of
instructions, so that no later proof unfolds a meaning. -/

namespace Sys2Proof.Machine

/-! ### Folds of commands -/

/-- A fold of steps that each keep a property keeps it. -/
theorem foldl_keeps {α β : Type} {f : α → β → α} {P : α → Prop} (l : List β) (a : α) (h : P a)
    (hs : ∀ a b, P a → P (f a b)) : P (l.foldl f a) := by
  induction l generalizing a with
  | nil => exact h
  | cons b l ih => exact ih _ (hs _ _ h)

/-- A fold of steps that each keep a projection keeps it. -/
theorem foldl_same {α β γ : Type} (P : α → γ) {f : α → β → α} (h : ∀ a b, P (f a b) = P a) (l : List β)
    (a : α) : P (l.foldl f a) = P a :=
  foldl_keeps (P := fun x => P x = P a) l a rfl fun x b hx => (h x b).trans hx

/-! ### The CR commands -/

@[simp] theorem doCr_cfg (k : CrCommand) (s : State) : (doCr k s).cfg = s.cfg := by cases k <;> rfl
@[simp] theorem doCr_hdx (k : CrCommand) (s : State) : (doCr k s).hdx = s.hdx := by cases k <;> rfl
@[simp] theorem doCr_pending (k : CrCommand) (s : State) : (doCr k s).pending = s.pending := by cases k <;> rfl
@[simp] theorem doCr_history (k : CrCommand) (s : State) : (doCr k s).history = s.history := by cases k <;> rfl

/-- A CR command changes the two enables and the status of the UART, and nothing else of it (R101). -/
theorem doCr_shape (k : CrCommand) (s : State) :
    ∃ r t w, doCr k s = { s with uart := { s.uart with rxEnabled := r, txEnabled := t, status := w } } := by
  cases k
  · exact ⟨false, s.uart.txEnabled, _, rfl⟩
  · exact ⟨s.uart.rxEnabled, false, _, rfl⟩
  · exact ⟨true, s.uart.txEnabled, s.uart.status, rfl⟩
  · exact ⟨false, s.uart.txEnabled, s.uart.status, rfl⟩
  · exact ⟨s.uart.rxEnabled, true, _, rfl⟩
  · exact ⟨s.uart.rxEnabled, false, s.uart.status, rfl⟩
  · exact ⟨s.uart.rxEnabled, s.uart.txEnabled, _, rfl⟩

theorem doCrFold_shape (l : List CrCommand) (s : State) :
    ∃ r t w, l.foldl (fun s k => doCr k s) s =
      { s with uart := { s.uart with rxEnabled := r, txEnabled := t, status := w } } := by
  refine foldl_keeps (P := fun x => ∃ r t w, x = { s with uart := { s.uart with
    rxEnabled := r, txEnabled := t, status := w } }) l s ⟨_, _, _, rfl⟩ ?_
  rintro _ k ⟨r, t, w, rfl⟩
  obtain ⟨r', t', w', h⟩ := doCr_shape k
    { s with uart := { s.uart with rxEnabled := r, txEnabled := t, status := w } }
  exact ⟨r', t', w', h⟩

/-- The fixed order of R90, command by command. -/
theorem doCrWrite_eq (v : Word) (s : State) :
    doCrWrite v s =
      crOrder.foldl (fun t k => if testBit v (crPos s.cfg.crBits k) = true then doCr k t else t) s := by
  unfold doCrWrite crCommandsIn
  rw [List.foldl_filter]

/-- Every CR row is a list of commands in order. -/
theorem effect_cr {v : Word} {i : Instr} (h : i ∈ [Instr.wCr v, .crRstrx v, .crRsttx v, .crRxen v, .crRxdis v,
    .crTxen v, .crTxdis v, .crRststa v]) (s : State) :
    ∃ l : List CrCommand, effect i s = l.foldl (fun s k => doCr k s) s ∧
      ((i = .wCr v ∧ l = crCommandsIn s.cfg v) ∨ ∃ k, l = [k] ∧ i = crInstr v k) := by
  simp only [List.mem_cons, List.not_mem_nil, or_false] at h
  rcases h with rfl | rfl | rfl | rfl | rfl | rfl | rfl | rfl
  · exact ⟨_, rfl, .inl ⟨rfl, rfl⟩⟩
  · exact ⟨[.rstrx], rfl, .inr ⟨_, rfl, rfl⟩⟩
  · exact ⟨[.rsttx], rfl, .inr ⟨_, rfl, rfl⟩⟩
  · exact ⟨[.rxen], rfl, .inr ⟨_, rfl, rfl⟩⟩
  · exact ⟨[.rxdis], rfl, .inr ⟨_, rfl, rfl⟩⟩
  · exact ⟨[.txen], rfl, .inr ⟨_, rfl, rfl⟩⟩
  · exact ⟨[.txdis], rfl, .inr ⟨_, rfl, rfl⟩⟩
  · exact ⟨[.rststa], rfl, .inr ⟨_, rfl, rfl⟩⟩

/-- One CR command on one bit of the status (R91 to R97). -/
theorem testBit_doCr_status (k : CrCommand) (s : State) (p : BitPos) :
    testBit (doCr k s).uart.status p =
      match k with
      | .rstrx => if p = s.cfg.statusBits.rxbuff then false else testBit s.uart.status p
      | .rsttx => if p = s.cfg.statusBits.txempty then true else testBit s.uart.status p
      | .txen => if p = s.cfg.statusBits.txrdy then true else testBit s.uart.status p
      | .rststa =>
        if p = s.cfg.statusBits.ovre ∨ p = s.cfg.statusBits.frame ∨ p = s.cfg.statusBits.pare then false
        else testBit s.uart.status p
      | .rxen | .rxdis | .txdis => testBit s.uart.status p := by
  have e : ∀ q : BitPos, (q = p) = (p = q) := fun q => propext eq_comm
  cases k <;> simp only [doCr, doRstrx, doRsttx, doRxen, doRxdis, doTxen, doTxdis, doRststa, writeFlag_status,
    writeFlag_cfg, testBit_writeBit, statusPos, e]
  by_cases h1 : p = s.cfg.statusBits.ovre <;> by_cases h2 : p = s.cfg.statusBits.frame <;>
    by_cases h3 : p = s.cfg.statusBits.pare <;> simp [h1, h2, h3]

/-- One CR command on one flag (R91 to R97). -/
theorem flag_doCr {s : State} (hw : s.cfg.wellFormed = true) (k : CrCommand) (f : StatusFlag) :
    (doCr k s).flag f =
      match k with
      | .rstrx => if f = .rxbuff then false else s.flag f
      | .rsttx => if f = .txempty then true else s.flag f
      | .txen => if f = .txrdy then true else s.flag f
      | .rststa => if f = .ovre ∨ f = .frame ∨ f = .pare then false else s.flag f
      | .rxen | .rxdis | .txdis => s.flag f := by
  have e : ∀ g, statusPos s.cfg.statusBits f = statusPos s.cfg.statusBits g ↔ f = g :=
    fun g => statusPos_inj hw
  have e1 := e .rxbuff
  have e2 := e .txempty
  have e3 := e .txrdy
  have e4 := e .ovre
  have e5 := e .frame
  have e6 := e .pare
  simp only [statusPos] at e1 e2 e3 e4 e5 e6
  unfold State.flag
  rw [doCr_cfg, testBit_doCr_status]
  cases k <;> simp only [statusPos, e1, e2, e3, e4, e5, e6]

/-- A CR command changes no status bit but the six of R222. -/
theorem doCr_status_kept (k : CrCommand) (s : State) :
    StatusKeptBut s (doCr k s) [.rxbuff, .txempty, .txrdy, .pare, .frame, .ovre] := by
  intro p hp
  rw [testBit_doCr_status]
  have h := fun f hf => Ne.symm (hp f hf)
  have h1 := h .rxbuff (by simp)
  have h2 := h .txempty (by simp)
  have h3 := h .txrdy (by simp)
  have h4 := h .pare (by simp)
  have h5 := h .frame (by simp)
  have h6 := h .ovre (by simp)
  simp only [statusPos] at h1 h2 h3 h4 h5 h6
  cases k <;> simp [h1, h2, h3, h4, h5, h6]

theorem doCrFold_status_kept (l : List CrCommand) (s : State) :
    StatusKeptBut s (l.foldl (fun s k => doCr k s) s) [.rxbuff, .txempty, .txrdy, .pare, .frame, .ovre] := by
  refine (foldl_keeps (P := fun x => x.cfg = s.cfg ∧
    StatusKeptBut s x [.rxbuff, .txempty, .txrdy, .pare, .frame, .ovre]) l s ⟨rfl, fun _ _ => rfl⟩ ?_).2
  rintro a k ⟨hc, h⟩
  refine ⟨by simp [hc], fun p hp => ?_⟩
  rw [doCr_status_kept k a p (by rw [hc]; exact hp)]
  exact h p hp

/-! ### The PTCR commands -/

@[simp] theorem doPtcr_cfg (k : PtcrCommand) (s : State) : (doPtcr k s).cfg = s.cfg := by cases k <;> rfl
@[simp] theorem doPtcr_hdx (k : PtcrCommand) (s : State) : (doPtcr k s).hdx = s.hdx := by cases k <;> rfl
@[simp] theorem doPtcr_pending (k : PtcrCommand) (s : State) : (doPtcr k s).pending = s.pending := by
  cases k <;> rfl
@[simp] theorem doPtcr_history (k : PtcrCommand) (s : State) : (doPtcr k s).history = s.history := by
  cases k <;> rfl

/-- A PTCR command changes the enable of one channel and nothing else (R174, R175, R177, R178). -/
theorem doPtcr_shape (k : PtcrCommand) (s : State) :
    ∃ r t, doPtcr k s = { s with uart := { s.uart with
      rxChannel := { s.uart.rxChannel with transferEnabled := r }
      txChannel := { s.uart.txChannel with transferEnabled := t } } } := by
  cases k
  · exact ⟨true, s.uart.txChannel.transferEnabled, rfl⟩
  · exact ⟨false, s.uart.txChannel.transferEnabled, rfl⟩
  · exact ⟨s.uart.rxChannel.transferEnabled, true, rfl⟩
  · exact ⟨s.uart.rxChannel.transferEnabled, false, rfl⟩

theorem doPtcrFold_shape (l : List PtcrCommand) (s : State) :
    ∃ r t, l.foldl (fun s k => doPtcr k s) s = { s with uart := { s.uart with
      rxChannel := { s.uart.rxChannel with transferEnabled := r }
      txChannel := { s.uart.txChannel with transferEnabled := t } } } := by
  refine foldl_keeps (P := fun x => ∃ r t, x = { s with uart := { s.uart with
    rxChannel := { s.uart.rxChannel with transferEnabled := r }
    txChannel := { s.uart.txChannel with transferEnabled := t } } }) l s ⟨_, _, rfl⟩ ?_
  rintro _ k ⟨r, t, rfl⟩
  obtain ⟨r', t', h⟩ := doPtcr_shape k { s with uart := { s.uart with
    rxChannel := { s.uart.rxChannel with transferEnabled := r }
    txChannel := { s.uart.txChannel with transferEnabled := t } } }
  exact ⟨r', t', h⟩

/-- A half-duplex PTCR write changes the two enables and nothing else (R198). -/
theorem doHdxPtcr_shape (v : Word) (s : State) : ∃ r t, doHdxPtcr v s = s.setHdxEnables r t := by
  unfold doHdxPtcr doHdxRxten doHdxTxten doHdxDisable
  dsimp only
  split <;> split <;> split <;> exact ⟨_, _, rfl⟩

/-- The whole PTCR write as one action over enables. -/
theorem uartAction_eq (a : Action) (s : State) :
    uartAction a s = { s with history := s.history ++ .action .uart a ::
      (if a.isTransfer = true ∧ s.cfg.xferEngine = .null then [.log a] else []) } := by
  unfold uartAction handleAction putAction State.record
  split <;> simp

/-- What a PDC write of the UART puts out: its action, and the log line of a transfer action (R210, R213). -/
theorem uartAction_out (a : Action) (s : State) :
    ∃ es, (uartAction a s).history = s.history ++ es ∧ ActionOut es := by
  rw [uartAction_history]
  refine ⟨_, rfl, a, ?_⟩
  split
  · exact .inr ⟨(‹_ ∧ _›).1, rfl⟩
  · exact .inl rfl

/-! ### A delivery -/

/-- An arriving byte changes the status and the holding byte and nothing else (R117, R119). -/
theorem arrive_shape (b : Byte) (s : State) :
    ∃ w h, arrive b s = { s with uart := { s.uart with status := w, rxHolding := h } } := by
  unfold arrive
  split
  · exact ⟨s.uart.status, s.uart.rxHolding, rfl⟩
  · split
    · exact ⟨_, s.uart.rxHolding, rfl⟩
    · exact ⟨_, b, rfl⟩

/-- An arriving byte changes no status bit but RXRDY and OVRE (R117, R119). -/
theorem arrive_status_kept (b : Byte) (s : State) : StatusKeptBut s (arrive b s) [.rxrdy, .ovre] := by
  intro p hp
  have h1 := hp .rxrdy (by simp)
  have h2 := hp .ovre (by simp)
  unfold arrive
  split
  · rfl
  · split
    · exact (testBit_writeBit ..).trans (by simp [h2])
    · exact (testBit_writeBit ..).trans (by simp [h1])

/-- What an arriving byte does to the flags: RXRDY or OVRE may become 1. -/
theorem flag_arrive {s : State} (hw : s.cfg.wellFormed = true) (b : Byte) (f : StatusFlag) :
    (arrive b s).flag f = s.flag f ∨ ((f = .rxrdy ∨ f = .ovre) ∧ (arrive b s).flag f = true) := by
  unfold arrive
  split
  · exact .inl rfl
  · split
    · rw [flag_writeFlag hw]
      by_cases h : StatusFlag.ovre = f
      · exact .inr ⟨.inr h.symm, by simp [h]⟩
      · exact .inl (by simp [h])
    · have h := flag_writeFlag (s := { s with uart := { s.uart with rxHolding := b } }) hw .rxrdy f true
      by_cases hf : StatusFlag.rxrdy = f
      · exact .inr ⟨.inl hf.symm, h.trans (if_pos hf)⟩
      · exact .inl (h.trans (if_neg hf))

/-! ### Frames over all instructions -/

/-- The parameters and the issued operations are no instruction's to change. -/
theorem effect_cfg (i : Instr) (s : State) : (effect i s).cfg = s.cfg := by
  cases i <;> simp only [effect]
  case wCr v => exact foldl_same (·.cfg) (fun s k => doCr_cfg k s) _ _
  case wThr v => split <;> rfl
  case wPtcr v => rw [uartAction_cfg]; exact foldl_same (·.cfg) (fun s k => doPtcr_cfg k s) _ _
  case rxDeliver bytes => split <;> [(obtain ⟨_, _, h⟩ := arrive_shape _ s; rw [h]); rfl]
  case reset t => cases t <;> rfl
  case hdxWPtcr v => split <;> [rfl; (obtain ⟨_, _, h⟩ := doHdxPtcr_shape v s; rw [h]; rfl)]
  all_goals first | rfl | simp

theorem effect_pending (i : Instr) (s : State) : (effect i s).pending = s.pending := by
  cases i <;> simp only [effect]
  case wCr v => exact foldl_same (·.pending) (fun s k => doCr_pending k s) _ _
  case wThr v => split <;> rfl
  case wPtcr v => rw [uartAction_pending]; exact foldl_same (·.pending) (fun s k => doPtcr_pending k s) _ _
  case rxDeliver bytes => split <;> [(obtain ⟨_, _, h⟩ := arrive_shape _ s; rw [h]); rfl]
  case reset t => cases t <;> rfl
  case hdxWPtcr v => split <;> [rfl; (obtain ⟨_, _, h⟩ := doHdxPtcr_shape v s; rw [h]; rfl)]
  all_goals first | rfl | simp

theorem exec_cfg {i : Instr} {s t : State} (h : exec i s = .next t) : t.cfg = s.cfg := by
  obtain ⟨-, rfl⟩ := exec_next_iff.1 h
  exact effect_cfg i s

theorem exec_pending {i : Instr} {s t : State} (h : exec i s = .next t) : t.pending = s.pending := by
  obtain ⟨-, rfl⟩ := exec_next_iff.1 h
  exact effect_pending i s

/-- What an instruction puts out, once: nothing, one value, the byte of a THR write, one action with or without
its log line, or one report (R222, R229). -/
theorem effect_history (i : Instr) (s : State) :
    ∃ es, (effect i s).history = s.history ++ es ∧
      (es = [] ∨ (∃ t v, es = [.readData t v]) ∨ (∃ v, i = .wThr v ∧ es = [.tx (trunc8 v)]) ∨
        (∃ t a, es = [.action t a]) ∨ (∃ a, es = [.action .uart a, .log a]) ∨ ∃ t v, es = [.fault t v]) := by
  have act : ∀ (a : Action) (u : State), u.history = s.history → ∃ es,
      (uartAction a u).history = s.history ++ es ∧
        ((∃ t a, es = [.action t a]) ∨ ∃ a, es = [.action .uart a, .log a]) := by
    intro a u hu
    rw [uartAction_history, hu]
    refine ⟨_, rfl, ?_⟩
    split
    · exact .inr ⟨a, rfl⟩
    · exact .inl ⟨.uart, a, rfl⟩
  have wide : ∀ {x : State}, (∃ es, x.history = s.history ++ es ∧
        ((∃ t a, es = [.action t a]) ∨ ∃ a, es = [.action .uart a, .log a])) →
      ∃ es, x.history = s.history ++ es ∧
        (es = [] ∨ (∃ t v, es = [.readData t v]) ∨ (∃ v, i = .wThr v ∧ es = [.tx (trunc8 v)]) ∨
          (∃ t a, es = [.action t a]) ∨ (∃ a, es = [.action .uart a, .log a]) ∨
          ∃ t v, es = [.fault t v]) := by
    rintro x ⟨es, h, h' | h'⟩
    · exact ⟨es, h, .inr (.inr (.inr (.inl h')))⟩
    · exact ⟨es, h, .inr (.inr (.inr (.inr (.inl h'))))⟩
  have none : ∀ {x : State}, x.history = s.history →
      ∃ es, x.history = s.history ++ es ∧
        (es = [] ∨ (∃ t v, es = [.readData t v]) ∨ (∃ v, i = .wThr v ∧ es = [.tx (trunc8 v)]) ∨
          (∃ t a, es = [.action t a]) ∨ (∃ a, es = [.action .uart a, .log a]) ∨
          ∃ t v, es = [.fault t v]) := fun h => ⟨[], by simpa using h, .inl rfl⟩
  cases i
  case wCr v => exact none (foldl_same (·.history) (fun s k => doCr_history k s) _ _)
  case wThr v =>
    simp only [effect]
    split
    · exact ⟨[], by simp, .inl rfl⟩
    · exact ⟨_, rfl, .inr (.inr (.inl ⟨v, rfl, rfl⟩))⟩
  case wPtcr v => exact wide (act _ _ (foldl_same (·.history) (fun s k => doPtcr_history k s) _ _))
  case rxDeliver bytes =>
    simp only [effect]
    split
    · obtain ⟨w, b, h⟩ := arrive_shape ‹_› s
      exact none (by rw [h])
    · exact ⟨_, rfl, .inr (.inr (.inr (.inr (.inr ⟨_, _, rfl⟩))))⟩
  case reset t => cases t <;> exact none rfl
  case hdxWPtcr v =>
    simp only [effect]
    split
    · exact ⟨_, rfl, .inr (.inr (.inr (.inr (.inr ⟨_, _, rfl⟩))))⟩
    · obtain ⟨r, t, h⟩ := doHdxPtcr_shape v s
      exact ⟨_, by rw [h]; rfl, .inr (.inr (.inr (.inl ⟨_, _, rfl⟩)))⟩
  case hdxPtcrDualen v => exact ⟨_, rfl, .inr (.inr (.inr (.inr (.inr ⟨_, _, rfl⟩))))⟩
  all_goals
    first
    | exact none rfl
    | exact ⟨_, rfl, .inr (.inl ⟨_, _, rfl⟩)⟩
    | exact ⟨_, rfl, .inr (.inr (.inr (.inl ⟨_, _, rfl⟩)))⟩
    | exact wide (act _ _ rfl)

/-! ### Engine steps -/

/-- The four optional flag writes change the status and nothing else. -/
theorem applyEngineFlags_shape (g : EngineFlags) (s : State) :
    ∃ w, applyEngineFlags g s = { s with uart := { s.uart with status := w } } := by
  have h1 : ∀ (f : StatusFlag) (b : Option Bool) (u : State),
      ∃ w, writeFlagIf f b u = { u with uart := { u.uart with status := w } } := by
    intro f b u
    cases b
    · exact ⟨u.uart.status, rfl⟩
    · exact ⟨_, rfl⟩
  unfold applyEngineFlags
  obtain ⟨a, ha⟩ := h1 .endrx g.endrx s
  rw [ha]
  obtain ⟨b, hb⟩ := h1 .endtx g.endtx { s with uart := { s.uart with status := a } }
  rw [hb]
  obtain ⟨c, hc⟩ := h1 .txbufe g.txbufe { s with uart := { s.uart with status := b } }
  rw [hc]
  obtain ⟨d, hd⟩ := h1 .rxbuff g.rxbuff { s with uart := { s.uart with status := c } }
  rw [hd]
  exact ⟨d, rfl⟩

/-- An engine step changes no flag but the four of R215 (b). -/
theorem flag_applyEngineFlags {s : State} (hw : s.cfg.wellFormed = true) (g : EngineFlags) {f : StatusFlag}
    (hf : f ∉ [StatusFlag.endrx, .endtx, .txbufe, .rxbuff]) : (applyEngineFlags g s).flag f = s.flag f := by
  have h1 : ∀ (q : StatusFlag) (b : Option Bool) (u : State), u.cfg = s.cfg → q ≠ f →
      (writeFlagIf q b u).flag f = u.flag f := by
    intro q b u hu hq
    cases b
    · rfl
    · exact (flag_writeFlag (by rw [hu]; exact hw) q f _).trans (by simp [hq])
  have h2 : ∀ (q : StatusFlag) (b : Option Bool) (u : State), (writeFlagIf q b u).cfg = u.cfg := by
    intro q b u
    cases b <;> rfl
  simp only [List.mem_cons, List.not_mem_nil, or_false, not_or] at hf
  unfold applyEngineFlags
  rw [h1, h1, h1, h1] <;> simp [h2, Ne.symm hf.1, Ne.symm hf.2.1, Ne.symm hf.2.2.1, Ne.symm hf.2.2.2]

/-- What a receive step changes: the status, and the descriptor of the receive channel. -/
theorem engineEffect_rx (d : Descriptor) (g : EngineFlags) (c : Bool) (s : State) :
    ∃ w, engineEffect (.rx d g c) s =
      { s with uart := { s.uart with status := w, rxChannel := storeDescriptor d s.uart.rxChannel } } := by
  obtain ⟨w, hw⟩ := applyEngineFlags_shape g (s.mapChannel .rx (storeDescriptor d))
  simp only [engineEffect, hw]
  cases c
  · exact ⟨w, rfl⟩
  · exact ⟨_, rfl⟩

/-- What a transmit step changes: the status, the descriptor of the transmit channel, and at most one byte. -/
theorem engineEffect_tx (d : Descriptor) (g : EngineFlags) (b : Option Byte) (s : State) :
    ∃ w, engineEffect (.tx d g b) s =
      { s with
        uart := { s.uart with status := w, txChannel := storeDescriptor d s.uart.txChannel }
        history := s.history ++ b.toList.map .tx } := by
  obtain ⟨w, hw⟩ := applyEngineFlags_shape g (s.mapChannel .tx (storeDescriptor d))
  simp only [engineEffect, hw]
  cases b
  · exact ⟨w, by simp [State.mapChannel]⟩
  · exact ⟨w, by simp [State.mapChannel, emitByte, State.record]⟩

theorem engineEffect_cfg (e : EngineStep) (s : State) : (engineEffect e s).cfg = s.cfg := by
  cases e with
  | rx d g c => obtain ⟨w, h⟩ := engineEffect_rx d g c s; rw [h]
  | tx d g b => obtain ⟨w, h⟩ := engineEffect_tx d g b s; rw [h]

theorem engineEffect_hdx (e : EngineStep) (s : State) : (engineEffect e s).hdx = s.hdx := by
  cases e with
  | rx d g c => obtain ⟨w, h⟩ := engineEffect_rx d g c s; rw [h]
  | tx d g b => obtain ⟨w, h⟩ := engineEffect_tx d g b s; rw [h]

end Sys2Proof.Machine
end

