-- ==== Sys2Proof/Laws/PerInstr.lean ====
section
/-! SUPPORT. The per-instruction family: the encoded form of every well-formed instruction reads back as the
operation that issues it. -/

namespace Sys2Proof.Laws.PackRoundTrip

open Sys2Proof Sys2Proof.Machine

/-- Reading back the encoded form of `i` gives the operation that issues it, with legal operands. -/
def Statement (i : Instr) : Prop :=
  ∀ c : Params, i.wellFormed c = true → unpack (encode c i) = some (requestOf c i)

/-- The shape of every lemma but the delivery's. -/
theorem of_request {i : Instr} (h : ∀ c, unpack (pack (requestOf c i)) = some (requestOf c i)) : Statement i :=
  fun c _ => h c
theorem rMr : Statement .rMr := of_request fun _ => unpack_pack_uartRead .mr
theorem rImr : Statement .rImr := of_request fun _ => unpack_pack_uartRead .imr
theorem rSr : Statement .rSr := of_request fun _ => unpack_pack_uartRead .sr
theorem rRhr : Statement .rRhr := of_request fun _ => unpack_pack_uartRead .rhr
theorem rBrgr : Statement .rBrgr := of_request fun _ => unpack_pack_uartRead .brgr
theorem rCidr : Statement .rCidr := of_request fun _ => unpack_pack_uartRead .cidr
theorem rExid : Statement .rExid := of_request fun _ => unpack_pack_uartRead .exid
theorem rFnr : Statement .rFnr := of_request fun _ => unpack_pack_uartRead .fnr
theorem rRpr : Statement .rRpr := of_request fun c => unpack_pack_pdcRead c .uart .rpr
theorem rRcr : Statement .rRcr := of_request fun c => unpack_pack_pdcRead c .uart .rcr
theorem rTpr : Statement .rTpr := of_request fun c => unpack_pack_pdcRead c .uart .tpr
theorem rTcr : Statement .rTcr := of_request fun c => unpack_pack_pdcRead c .uart .tcr
theorem rRnpr : Statement .rRnpr := of_request fun c => unpack_pack_pdcRead c .uart .rnpr
theorem rRncr : Statement .rRncr := of_request fun c => unpack_pack_pdcRead c .uart .rncr
theorem rTnpr : Statement .rTnpr := of_request fun c => unpack_pack_pdcRead c .uart .tnpr
theorem rTncr : Statement .rTncr := of_request fun c => unpack_pack_pdcRead c .uart .tncr
theorem rPtsr : Statement .rPtsr := of_request fun c => unpack_pack_pdcRead c .uart .ptsr
theorem wCr (v : Word) : Statement (.wCr v) := of_request fun _ => unpack_pack_uartWrite .cr v
theorem wMr (v : Word) : Statement (.wMr v) := of_request fun _ => unpack_pack_uartWrite .mr v
theorem wIer (v : Word) : Statement (.wIer v) := of_request fun _ => unpack_pack_uartWrite .ier v
theorem wIdr (v : Word) : Statement (.wIdr v) := of_request fun _ => unpack_pack_uartWrite .idr v
theorem wThr (v : Word) : Statement (.wThr v) := of_request fun _ => unpack_pack_uartWrite .thr v
theorem wBrgr (v : Word) : Statement (.wBrgr v) := of_request fun _ => unpack_pack_uartWrite .brgr v
theorem wFnr (v : Word) : Statement (.wFnr v) := of_request fun _ => unpack_pack_uartWrite .fnr v
theorem wRpr (v : Word) : Statement (.wRpr v) := of_request fun c => unpack_pack_pdcWrite c .uart .rpr v
theorem wRcr (v : Word) : Statement (.wRcr v) := of_request fun c => unpack_pack_pdcWrite c .uart .rcr v
theorem wTpr (v : Word) : Statement (.wTpr v) := of_request fun c => unpack_pack_pdcWrite c .uart .tpr v
theorem wTcr (v : Word) : Statement (.wTcr v) := of_request fun c => unpack_pack_pdcWrite c .uart .tcr v
theorem wRnpr (v : Word) : Statement (.wRnpr v) := of_request fun c => unpack_pack_pdcWrite c .uart .rnpr v
theorem wRncr (v : Word) : Statement (.wRncr v) := of_request fun c => unpack_pack_pdcWrite c .uart .rncr v
theorem wTnpr (v : Word) : Statement (.wTnpr v) := of_request fun c => unpack_pack_pdcWrite c .uart .tnpr v
theorem wTncr (v : Word) : Statement (.wTncr v) := of_request fun c => unpack_pack_pdcWrite c .uart .tncr v
theorem wPtcr (v : Word) : Statement (.wPtcr v) := of_request fun c => unpack_pack_pdcWrite c .uart .ptcr v
theorem rxDeliver (bytes : List Byte) : Statement (.rxDeliver bytes) := by
  intro c h
  match bytes, h with
  | [b], _ => exact unpack_pack_deliver b
theorem reset (t : Target) : Statement (.reset t) := of_request fun _ => unpack_pack_reset t
theorem crRstrx (v : Word) : Statement (.crRstrx v) := of_request fun _ => unpack_pack_uartWrite .cr v
theorem crRsttx (v : Word) : Statement (.crRsttx v) := of_request fun _ => unpack_pack_uartWrite .cr v
theorem crRxen (v : Word) : Statement (.crRxen v) := of_request fun _ => unpack_pack_uartWrite .cr v
theorem crRxdis (v : Word) : Statement (.crRxdis v) := of_request fun _ => unpack_pack_uartWrite .cr v
theorem crTxen (v : Word) : Statement (.crTxen v) := of_request fun _ => unpack_pack_uartWrite .cr v
theorem crTxdis (v : Word) : Statement (.crTxdis v) := of_request fun _ => unpack_pack_uartWrite .cr v
theorem crRststa (v : Word) : Statement (.crRststa v) := of_request fun _ => unpack_pack_uartWrite .cr v
theorem ptcrRxten (v : Word) : Statement (.ptcrRxten v) := of_request fun c => unpack_pack_pdcWrite c .uart .ptcr v
theorem ptcrRxtdis (v : Word) : Statement (.ptcrRxtdis v) := of_request fun c => unpack_pack_pdcWrite c .uart .ptcr v
theorem ptcrTxten (v : Word) : Statement (.ptcrTxten v) := of_request fun c => unpack_pack_pdcWrite c .uart .ptcr v
theorem ptcrTxtdis (v : Word) : Statement (.ptcrTxtdis v) := of_request fun c => unpack_pack_pdcWrite c .uart .ptcr v
theorem hdxWRpr (v : Word) : Statement (.hdxWRpr v) := of_request fun c => unpack_pack_pdcWrite c .hdx .rpr v
theorem hdxWTpr (v : Word) : Statement (.hdxWTpr v) := of_request fun c => unpack_pack_pdcWrite c .hdx .tpr v
theorem hdxRRpr : Statement .hdxRRpr := of_request fun c => unpack_pack_pdcRead c .hdx .rpr
theorem hdxRTpr : Statement .hdxRTpr := of_request fun c => unpack_pack_pdcRead c .hdx .tpr
theorem hdxWRcr (v : Word) : Statement (.hdxWRcr v) := of_request fun c => unpack_pack_pdcWrite c .hdx .rcr v
theorem hdxWTcr (v : Word) : Statement (.hdxWTcr v) := of_request fun c => unpack_pack_pdcWrite c .hdx .tcr v
theorem hdxRRcr : Statement .hdxRRcr := of_request fun c => unpack_pack_pdcRead c .hdx .rcr
theorem hdxRTcr : Statement .hdxRTcr := of_request fun c => unpack_pack_pdcRead c .hdx .tcr
theorem hdxWRnpr (v : Word) : Statement (.hdxWRnpr v) := of_request fun c => unpack_pack_pdcWrite c .hdx .rnpr v
theorem hdxWTnpr (v : Word) : Statement (.hdxWTnpr v) := of_request fun c => unpack_pack_pdcWrite c .hdx .tnpr v
theorem hdxRRnpr : Statement .hdxRRnpr := of_request fun c => unpack_pack_pdcRead c .hdx .rnpr
theorem hdxRTnpr : Statement .hdxRTnpr := of_request fun c => unpack_pack_pdcRead c .hdx .tnpr
theorem hdxWRncr (v : Word) : Statement (.hdxWRncr v) := of_request fun c => unpack_pack_pdcWrite c .hdx .rncr v
theorem hdxWTncr (v : Word) : Statement (.hdxWTncr v) := of_request fun c => unpack_pack_pdcWrite c .hdx .tncr v
theorem hdxRRncr : Statement .hdxRRncr := of_request fun c => unpack_pack_pdcRead c .hdx .rncr
theorem hdxRTncr : Statement .hdxRTncr := of_request fun c => unpack_pack_pdcRead c .hdx .tncr
theorem hdxWPtcr (v : Word) : Statement (.hdxWPtcr v) := of_request fun c => unpack_pack_pdcWrite c .hdx .ptcr v
theorem hdxRPtsr : Statement .hdxRPtsr := of_request fun c => unpack_pack_pdcRead c .hdx .ptsr
theorem hdxPtcrDualen (v : Word) : Statement (.hdxPtcrDualen v) := of_request fun c => unpack_pack_pdcWrite c .hdx .ptcr v
theorem hdxPtcrRxten (v : Word) : Statement (.hdxPtcrRxten v) := of_request fun c => unpack_pack_pdcWrite c .hdx .ptcr v
theorem hdxPtcrTxten (v : Word) : Statement (.hdxPtcrTxten v) := of_request fun c => unpack_pack_pdcWrite c .hdx .ptcr v
theorem hdxPtcrRxtdis (v : Word) : Statement (.hdxPtcrRxtdis v) := of_request fun c => unpack_pack_pdcWrite c .hdx .ptcr v
theorem hdxPtcrTxtdis (v : Word) : Statement (.hdxPtcrTxtdis v) := of_request fun c => unpack_pack_pdcWrite c .hdx .ptcr v

end Sys2Proof.Laws.PackRoundTrip
end

