-- ==== Sys2Proof/Laws/Run.lean ====
section
/-! SUPPORT. Runs of several steps, one step at a time. -/

namespace Sys2Proof.Machine

theorem run_zero (s : State) : Host.Core.run core 0 s = .next s := rfl

theorem run_succ_next {k : Nat} {s u : State} (h : step s = .next u) :
    Host.Core.run core (k + 1) s = Host.Core.run core k u := by
  have h' : core.step s = .next u := h
  simp [Host.Core.run, h']

theorem run_succ_fault {k : Nat} {s : State} {f : Fault} (h : step s = .fault f) :
    Host.Core.run core (k + 1) s = .fault f := by
  have h' : core.step s = .fault f := h
  simp [Host.Core.run, h']

theorem run_succ_refused {k : Nat} {s : State} {r : Refusal} (h : step s = .refused r) :
    Host.Core.run core (k + 1) s = .refused r := by
  have h' : core.step s = .refused r := h
  simp [Host.Core.run, h']

/-- A run that ends in a next state went through a first step. -/
theorem run_succ_inv {k : Nat} {s t : State} (h : Host.Core.run core (k + 1) s = .next t) :
    ∃ u, step s = .next u ∧ Host.Core.run core k u = .next t := by
  cases hs : step s with
  | next u => exact ⟨u, rfl, (run_succ_next hs).symm.trans h⟩
  | fault f => cases (run_succ_fault hs).symm.trans h
  | refused r => cases (run_succ_refused hs).symm.trans h

end Sys2Proof.Machine
end

