-- ==== Sys2Proof/Tests/Slice0.lean ====
section
/-! SUPPORT. The model's own tests: the well-formedness checks refuse ill-formed terms, every row of the opcode
table decodes from the word the spec's encoding gives it (30_encoding.md R61 to R72), the vectors of
95_test_vectors.md, and for every statement with hypotheses a state and operands that meet them. -/

namespace Sys2Proof.Tests

open Sys2Proof Sys2Proof.Machine

/-! ### Small states -/

/-- The default parameters with the identification constants of the spec's examples (R146, R147). -/
def p0 : Params := { defaultParams with chipId := 0x019905A1#32, extId := 0#32 }

/-- The machine at creation. -/
def fresh : State := .createdWith p0

/-- `fresh` with parts of the UART's state as a row of the vectors gives them. -/
def at' (status : Word) (mask : Word := 0) (hold : Byte := 0) (rx : Bool := false) (tx : Bool := false) : State :=
  { fresh with
    uart :=
      { fresh.uart with
        status := status, interruptMask := mask, rxHolding := hold, rxEnabled := rx, txEnabled := tx } }

/-- `fresh` with the two channel enables of the UART's unit. -/
def armed (r t : Bool) : State :=
  { fresh with
    uart :=
      { fresh.uart with
        rxChannel := { fresh.uart.rxChannel with transferEnabled := r }
        txChannel := { fresh.uart.txChannel with transferEnabled := t } } }

/-- `fresh` with the two enables of the half-duplex unit. -/
def half (r t : Bool) : State := { fresh with hdx := { fresh.hdx with rxEnabled := r, txEnabled := t } }

/-- `fresh` with other parameters. -/
def under (c : Params) : State := .createdWith c

/-- The session is over. -/
def over' : State := raiseViolation .uart (.badDeliverySize 0) fresh

/-- The outcome is a next state of which the check holds. -/
def gives (o : Result) (p : State → Bool) : Bool :=
  match o with
  | .next t => p t
  | .fault _ => false
  | .refused _ => false

/-- The outcome is the fault of an ended session. -/
def ends (o : Result) : Bool :=
  match o with
  | .next _ => false
  | .fault .sessionOver => true
  | .refused _ => false

/-! ### Well-formedness refuses -/

theorem test_wf_params :
    p0.wellFormed = true ∧
    ({ p0 with statusBits := { p0.statusBits with txrdy := 0 } } : Params).wellFormed = false ∧
    ({ p0 with crBits := { p0.crBits with rststa := 2 } } : Params).wellFormed = false ∧
    ({ p0 with ptcrBits := { p0.ptcrBits with txtdis := 8 } } : Params).wellFormed = false ∧
    ({ p0 with ptsrBits := { p0.ptsrBits with txten := 0 } } : Params).wellFormed = false ∧
    ({ p0 with pdcOffsets := { p0.pdcOffsets with ptsr := 8 } } : Params).wellFormed = false := by decide

theorem test_wf_delivery :
    (Instr.rxDeliver []).wellFormed p0 = false ∧ (Instr.rxDeliver [1, 2]).wellFormed p0 = false ∧
    (Instr.rxDeliver [1]).wellFormed p0 = true := by decide

theorem test_wf_cr :
    (Instr.wCr 0x40#32).wellFormed p0 = false ∧ (Instr.wCr 0x50#32).wellFormed p0 = true ∧
    (Instr.crRstrx 0x14#32).wellFormed p0 = false ∧ (Instr.crRsttx 0x04#32).wellFormed p0 = false ∧
    (Instr.crRxen 0x30#32).wellFormed p0 = false ∧ (Instr.crRxdis 0#32).wellFormed p0 = false ∧
    (Instr.crTxen 0xC0#32).wellFormed p0 = false ∧ (Instr.crTxdis 0x40#32).wellFormed p0 = false ∧
    (Instr.crRststa 0xFFFFFFFF#32).wellFormed p0 = false := by decide

theorem test_wf_ptcr :
    (Instr.wPtcr 0x1#32).wellFormed p0 = false ∧ (Instr.wPtcr 0x101#32).wellFormed p0 = true ∧
    (Instr.ptcrRxten 0x3#32).wellFormed p0 = false ∧ (Instr.ptcrRxtdis 0x1#32).wellFormed p0 = false ∧
    (Instr.ptcrTxten 0x300#32).wellFormed p0 = false ∧ (Instr.ptcrTxtdis 0#32).wellFormed p0 = false := by
  decide

theorem test_wf_hdx_ptcr :
    (Instr.hdxWPtcr 0x101#32).wellFormed p0 = false ∧ (Instr.hdxWPtcr 0x100#32).wellFormed p0 = false ∧
    (Instr.hdxPtcrDualen 0x1#32).wellFormed p0 = false ∧ (Instr.hdxPtcrRxten 0x101#32).wellFormed p0 = false ∧
    (Instr.hdxPtcrTxten 0x300#32).wellFormed p0 = false ∧ (Instr.hdxPtcrRxtdis 0x1#32).wellFormed p0 = false ∧
    (Instr.hdxPtcrTxtdis 0x202#32).wellFormed p0 = false := by decide

/-! ### Decoding, from words written out by R61 and the tables of R62, R66, R70, R72

`kind` in bits 10 and 9, the offset in bits 8 to 0. -/

theorem test_decode_busr_uart :
    decodeOpCode p0 ⟨.uart, 0b00000000100#11, 0⟩ = some .rMr ∧
    decodeOpCode p0 ⟨.uart, 0b00000010000#11, 0⟩ = some .rImr ∧
    decodeOpCode p0 ⟨.uart, 0b00000010100#11, 0⟩ = some .rSr ∧
    decodeOpCode p0 ⟨.uart, 0b00000011000#11, 0⟩ = some .rRhr ∧
    decodeOpCode p0 ⟨.uart, 0b00000100000#11, 0⟩ = some .rBrgr ∧
    decodeOpCode p0 ⟨.uart, 0b00001000000#11, 0⟩ = some .rCidr ∧
    decodeOpCode p0 ⟨.uart, 0b00001000100#11, 0⟩ = some .rExid ∧
    decodeOpCode p0 ⟨.uart, 0b00001001000#11, 0⟩ = some .rFnr := by decide

theorem test_decode_busr_pdc :
    decodeOpCode p0 ⟨.uart, 0b00100000000#11, 0⟩ = some .rRpr ∧
    decodeOpCode p0 ⟨.uart, 0b00100000100#11, 0⟩ = some .rRcr ∧
    decodeOpCode p0 ⟨.uart, 0b00100001000#11, 0⟩ = some .rTpr ∧
    decodeOpCode p0 ⟨.uart, 0b00100001100#11, 0⟩ = some .rTcr ∧
    decodeOpCode p0 ⟨.uart, 0b00100010000#11, 0⟩ = some .rRnpr ∧
    decodeOpCode p0 ⟨.uart, 0b00100010100#11, 0⟩ = some .rRncr ∧
    decodeOpCode p0 ⟨.uart, 0b00100011000#11, 0⟩ = some .rTnpr ∧
    decodeOpCode p0 ⟨.uart, 0b00100011100#11, 0⟩ = some .rTncr ∧
    decodeOpCode p0 ⟨.uart, 0b00100100100#11, 0⟩ = some .rPtsr := by decide

theorem test_decode_busw_uart :
    decodeOpCode p0 ⟨.uart, 0b01000000000#11, 0x5C#32⟩ = some (.wCr 0x5C#32) ∧
    decodeOpCode p0 ⟨.uart, 0b01000000100#11, 0xDEADBEEF#32⟩ = some (.wMr 0xDEADBEEF#32) ∧
    decodeOpCode p0 ⟨.uart, 0b01000001000#11, 0x21#32⟩ = some (.wIer 0x21#32) ∧
    decodeOpCode p0 ⟨.uart, 0b01000001100#11, 0x21#32⟩ = some (.wIdr 0x21#32) ∧
    decodeOpCode p0 ⟨.uart, 0b01000011100#11, 0x141#32⟩ = some (.wThr 0x141#32) ∧
    decodeOpCode p0 ⟨.uart, 0b01000100000#11, 0x1A#32⟩ = some (.wBrgr 0x1A#32) ∧
    decodeOpCode p0 ⟨.uart, 0b01001001000#11, 0x1#32⟩ = some (.wFnr 0x1#32) := by decide

theorem test_decode_busw_pdc :
    decodeOpCode p0 ⟨.uart, 0b01100000000#11, 0x20000000#32⟩ = some (.wRpr 0x20000000#32) ∧
    decodeOpCode p0 ⟨.uart, 0b01100000100#11, 0x10#32⟩ = some (.wRcr 0x10#32) ∧
    decodeOpCode p0 ⟨.uart, 0b01100001000#11, 0x20001000#32⟩ = some (.wTpr 0x20001000#32) ∧
    decodeOpCode p0 ⟨.uart, 0b01100001100#11, 0x7#32⟩ = some (.wTcr 0x7#32) ∧
    decodeOpCode p0 ⟨.uart, 0b01100010000#11, 0x20000100#32⟩ = some (.wRnpr 0x20000100#32) ∧
    decodeOpCode p0 ⟨.uart, 0b01100010100#11, 0x8#32⟩ = some (.wRncr 0x8#32) ∧
    decodeOpCode p0 ⟨.uart, 0b01100011000#11, 0x20001100#32⟩ = some (.wTnpr 0x20001100#32) ∧
    decodeOpCode p0 ⟨.uart, 0b01100011100#11, 0x20#32⟩ = some (.wTncr 0x20#32) ∧
    decodeOpCode p0 ⟨.uart, 0b01100100000#11, 0x101#32⟩ = some (.wPtcr 0x101#32) := by decide

theorem test_decode_rxd_rst :
    decodeOpCode p0 ⟨.uart, 0b10000000000#11, 0x41#32⟩ = some (.rxDeliver [0x41#8]) ∧
    decodeOpCode p0 ⟨.uart, 0b10000000000#11, 0x141#32⟩ = none ∧
    decodeOpCode p0 ⟨.uart, 0b11000000000#11, 0⟩ = some (.reset .uart) ∧
    decodeOpCode p0 ⟨.hdx, 0b11000000000#11, 0⟩ = some (.reset .hdx) ∧
    decodeOpCode p0 ⟨.uart, 0b11000000100#11, 0⟩ = none := by decide

theorem test_decode_cr_commands :
    decodeOpCode p0 ⟨.uart, 0b01000000000#11, 0x004#32⟩ = some (.crRstrx 0x004#32) ∧
    decodeOpCode p0 ⟨.uart, 0b01000000000#11, 0x008#32⟩ = some (.crRsttx 0x008#32) ∧
    decodeOpCode p0 ⟨.uart, 0b01000000000#11, 0x010#32⟩ = some (.crRxen 0x010#32) ∧
    decodeOpCode p0 ⟨.uart, 0b01000000000#11, 0x020#32⟩ = some (.crRxdis 0x020#32) ∧
    decodeOpCode p0 ⟨.uart, 0b01000000000#11, 0x040#32⟩ = some (.crTxen 0x040#32) ∧
    decodeOpCode p0 ⟨.uart, 0b01000000000#11, 0x080#32⟩ = some (.crTxdis 0x080#32) ∧
    decodeOpCode p0 ⟨.uart, 0b01000000000#11, 0x100#32⟩ = some (.crRststa 0x100#32) ∧
    decodeOpCode p0 ⟨.uart, 0b01000000000#11, 0xFFFFFE03#32⟩ = some (.wCr 0xFFFFFE03#32) := by decide

theorem test_decode_ptcr_commands :
    decodeOpCode p0 ⟨.uart, 0b01100100000#11, 0x001#32⟩ = some (.ptcrRxten 0x001#32) ∧
    decodeOpCode p0 ⟨.uart, 0b01100100000#11, 0x002#32⟩ = some (.ptcrRxtdis 0x002#32) ∧
    decodeOpCode p0 ⟨.uart, 0b01100100000#11, 0x100#32⟩ = some (.ptcrTxten 0x100#32) ∧
    decodeOpCode p0 ⟨.uart, 0b01100100000#11, 0x200#32⟩ = some (.ptcrTxtdis 0x200#32) := by decide

theorem test_decode_hdx_reads :
    decodeOpCode p0 ⟨.hdx, 0b00100000000#11, 0⟩ = some .hdxRRpr ∧
    decodeOpCode p0 ⟨.hdx, 0b00100000100#11, 0⟩ = some .hdxRRcr ∧
    decodeOpCode p0 ⟨.hdx, 0b00100001000#11, 0⟩ = some .hdxRTpr ∧
    decodeOpCode p0 ⟨.hdx, 0b00100001100#11, 0⟩ = some .hdxRTcr ∧
    decodeOpCode p0 ⟨.hdx, 0b00100010000#11, 0⟩ = some .hdxRRnpr ∧
    decodeOpCode p0 ⟨.hdx, 0b00100010100#11, 0⟩ = some .hdxRRncr ∧
    decodeOpCode p0 ⟨.hdx, 0b00100011000#11, 0⟩ = some .hdxRTnpr ∧
    decodeOpCode p0 ⟨.hdx, 0b00100011100#11, 0⟩ = some .hdxRTncr ∧
    decodeOpCode p0 ⟨.hdx, 0b00100100100#11, 0⟩ = some .hdxRPtsr ∧
    decodeOpCode p0 ⟨.hdx, 0b00000010100#11, 0⟩ = none := by decide

theorem test_decode_hdx_writes :
    decodeOpCode p0 ⟨.hdx, 0b01100000000#11, 0x30000000#32⟩ = some (.hdxWRpr 0x30000000#32) ∧
    decodeOpCode p0 ⟨.hdx, 0b01100000100#11, 0x5#32⟩ = some (.hdxWRcr 0x5#32) ∧
    decodeOpCode p0 ⟨.hdx, 0b01100001000#11, 0x30000000#32⟩ = some (.hdxWTpr 0x30000000#32) ∧
    decodeOpCode p0 ⟨.hdx, 0b01100001100#11, 0x10009#32⟩ = some (.hdxWTcr 0x10009#32) ∧
    decodeOpCode p0 ⟨.hdx, 0b01100010000#11, 0x4#32⟩ = some (.hdxWRnpr 0x4#32) ∧
    decodeOpCode p0 ⟨.hdx, 0b01100010100#11, 0x7#32⟩ = some (.hdxWRncr 0x7#32) ∧
    decodeOpCode p0 ⟨.hdx, 0b01100011000#11, 0x20000200#32⟩ = some (.hdxWTnpr 0x20000200#32) ∧
    decodeOpCode p0 ⟨.hdx, 0b01100011100#11, 0x7#32⟩ = some (.hdxWTncr 0x7#32) ∧
    decodeOpCode p0 ⟨.hdx, 0b01100100000#11, 0x102#32⟩ = some (.hdxWPtcr 0x102#32) := by decide

theorem test_decode_hdx_ptcr_commands :
    decodeOpCode p0 ⟨.hdx, 0b01100100000#11, 0x101#32⟩ = some (.hdxPtcrDualen 0x101#32) ∧
    decodeOpCode p0 ⟨.hdx, 0b01100100000#11, 0x303#32⟩ = some (.hdxPtcrDualen 0x303#32) ∧
    decodeOpCode p0 ⟨.hdx, 0b01100100000#11, 0x001#32⟩ = some (.hdxPtcrRxten 0x001#32) ∧
    decodeOpCode p0 ⟨.hdx, 0b01100100000#11, 0x100#32⟩ = some (.hdxPtcrTxten 0x100#32) ∧
    decodeOpCode p0 ⟨.hdx, 0b01100100000#11, 0x002#32⟩ = some (.hdxPtcrRxtdis 0x002#32) ∧
    decodeOpCode p0 ⟨.hdx, 0b01100100000#11, 0x200#32⟩ = some (.hdxPtcrTxtdis 0x200#32) := by decide

/-- Words as the opcode table numbers them: a read, a write of zeros, a command bit, the dual enable. -/
theorem test_decode_table_words :
    decodeTableWord 16 0x014 = some .rSr ∧ decodeTableWord 16 0x200 = some (.wCr 0) ∧
    decodeTableWord 16 0x400 = some (.rxDeliver [0]) ∧ decodeTableWord 16 0x600 = some (.reset .uart) ∧
    decodeTableWord 32 0x100 = some (.crRststa 0x100#32) ∧ decodeTableWord 32 0x200 = some (.ptcrTxtdis 0x200#32) ∧
    decodeTableWord 32 0x101 = some (.hdxPtcrDualen 0x101#32) ∧ decodeTableWord 16 0x24 = none := by decide

/-- The five 16-bit words that are no legal operation word but a command row's value (assumption log 3). -/
theorem test_decode_table_command_values :
    decodeTableWord 16 0x001 = some (.ptcrRxten 0x1#32) ∧ decodeTableWord 16 0x002 = some (.ptcrRxtdis 0x2#32) ∧
    decodeTableWord 16 0x008 = some (.crRsttx 0x8#32) ∧ decodeTableWord 16 0x080 = some (.crTxdis 0x80#32) ∧
    decodeTableWord 16 0x101 = some (.hdxPtcrDualen 0x101#32) := by decide

/-- Words of none of R61's forms are no operation: they decode to nothing and issue nothing (assumption log 23). -/
theorem test_decode_table_no_form :
    decodeTableWord 16 0x401 = none ∧ decodeTableWord 16 0x604 = none ∧
    fresh.withFetchWord 16 0x401 = fresh ∧ fresh.withFetchWord 16 0x1014 = fresh := by decide

/-! ### The vectors of 95_test_vectors.md -/

theorem test_V6_rstrx_keeps_rxrdy :
    gives (exec (.crRstrx 0x4#32) (at' 0x201#32 0 0x41#8 true)) (fun t =>
      t.uart.status == 0x201#32 && !t.uart.rxEnabled && t.uart.rxHolding == 0x41#8) = true := by decide

theorem test_V10_rsttx_keeps_txrdy :
    gives (exec (.crRsttx 0x8#32) (at' 0x202#32 0 0 false true)) (fun t =>
      t.uart.status == 0x202#32 && !t.uart.txEnabled) = true := by decide

theorem test_V3_V4_rxen_rxdis :
    gives (exec (.crRxen 0x10#32) fresh) (fun t => t.uart.rxEnabled && t.uart.status == 0x200#32) = true ∧
    gives (exec (.crRxdis 0x20#32) (at' 0x200#32 0 0 true)) (fun t => !t.uart.rxEnabled) = true := by decide

theorem test_V13_txen_raises_irq :
    irqLevel (at' 0x200#32 0x2#32) = false ∧
    gives (exec (.crTxen 0x40#32) (at' 0x200#32 0x2#32)) (fun t =>
      t.uart.status == 0x202#32 && t.uart.txEnabled && irqLevel t) = true := by decide

theorem test_V8_txdis_keeps_txrdy :
    gives (exec (.crTxdis 0x80#32) (at' 0x202#32 0 0 false true)) (fun t =>
      t.uart.status == 0x202#32 && !t.uart.txEnabled) = true := by decide

theorem test_V51_rststa_lowers_irq :
    irqLevel (at' 0x221#32 0x20#32) = true ∧
    gives (exec (.crRststa 0x100#32) (at' 0x221#32 0x20#32)) (fun t =>
      t.uart.status == 0x201#32 && !irqLevel t) = true := by decide

theorem test_T3_P1_cr_order :
    gives (exec (.wCr 0x14#32) fresh) (fun t => t.uart.rxEnabled) = true ∧
    gives (exec (.wCr 0x5C#32) fresh) (fun t =>
      t.uart.rxEnabled && t.uart.txEnabled && t.uart.status == 0x202#32) = true := by decide

theorem test_V12_cr_all_ones :
    gives (exec (.wCr 0xFFFFFFFF#32) (at' 0x221#32 0 0x41#8 true true)) (fun t =>
      t.uart.status == 0x203#32 && t.uart.rxHolding == 0x41#8 && !t.uart.rxEnabled && !t.uart.txEnabled) = true := by
  decide

theorem test_V21_read_sr :
    gives (exec .rSr (at' 0x223#32)) (fun t =>
      t.uart.status == 0x223#32 && t.history == [.readData .uart 0x223#32]) = true := by decide

theorem test_V25_read_rhr_keeps_ovre :
    gives (exec .rRhr (at' 0x221#32 0 0x41#8)) (fun t =>
      t.uart.status == 0x220#32 && t.history == [.readData .uart 0x41#32]) = true := by decide

theorem test_V24_read_rhr_stale :
    gives (exec .rRhr (at' 0x200#32 0 0xFF#8)) (fun t =>
      t.uart.status == 0x200#32 && t.history == [.readData .uart 0xFF#32]) = true := by decide

theorem test_V28_write_thr :
    gives (exec (.wThr 0x12345678#32) fresh) (fun t =>
      t.uart == fresh.uart && t.history == [.tx 0x78#8]) = true := by decide

theorem test_V38_tx_gate :
    gives (exec (.wThr 0x41#32) (under { p0 with txGate := true })) (fun t => t.history == []) = true := by decide

theorem test_V32_accept_keeps_ovre :
    gives (exec (.rxDeliver [0xCC#8]) (at' 0x220#32)) (fun t =>
      t.uart.status == 0x221#32 && t.uart.rxHolding == 0xCC#8) = true := by decide

theorem test_V30_overrun :
    gives (exec (.rxDeliver [0xAA#8]) (at' 0x201#32)) (fun t =>
      t.uart.status == 0x221#32 && t.uart.rxHolding == 0x00#8) = true := by decide

theorem test_V33_two_bytes :
    gives (exec (.rxDeliver [0x41#8, 0x42#8]) fresh) (fun t =>
      t.uart.fault && t.uart.rxHolding == 0#8 && t.uart.status == 0x200#32 &&
        t.history == [.fault .uart (.badDeliverySize 2)]) = true := by decide

theorem test_V37_rx_gate :
    gives (exec (.rxDeliver [0x41#8]) (under { p0 with rxGate := true })) (fun t =>
      t.uart.status == 0x200#32 && t.uart.rxHolding == 0#8) = true := by decide

theorem test_V42_ier_domain :
    gives (exec (.wIer 0xFFFFFFFF#32) fresh) (fun t =>
      t.uart.interruptMask == 0xC0001AFB#32 && irqLevel t) = true := by decide

theorem test_V54_ier_defect :
    gives (exec (.wIer 0x1#32) (under { p0 with ierComplementDefect := true })) (fun t =>
      t.uart.interruptMask == 0xC0001AFA#32 && irqLevel t) = true := by decide

theorem test_R132_idr :
    gives (exec (.wIdr 0x20#32) (at' 0x200#32 0x21#32)) (fun t => t.uart.interruptMask == 0x1#32) = true := by decide

theorem test_V52_read_imr :
    gives (exec .rImr (at' 0x200#32 0x21#32)) (fun t => t.history == [.readData .uart 0x21#32]) = true := by decide

theorem test_V60_V61_V62_inert :
    gives (exec (.wMr 0xDEADBEEF#32) fresh) (fun t =>
      gives (exec .rMr t) fun u => u.history == [.readData .uart 0xDEADBEEF#32]) = true ∧
    gives (exec (.wBrgr 0xFFFFFFFF#32) fresh) (fun t =>
      gives (exec .rBrgr t) fun u => u.history == [.readData .uart 0xFFFFFFFF#32]) = true ∧
    gives (exec (.wFnr 0x1#32) fresh) (fun t =>
      gives (exec .rFnr t) fun u => u.history == [.readData .uart 0x1#32]) = true := by decide

theorem test_V63_V64_identification :
    gives (exec .rCidr fresh) (fun t => t.history == [.readData .uart 0x019905A1#32]) = true ∧
    gives (exec .rExid fresh) (fun t => t.history == [.readData .uart 0#32]) = true := by decide

theorem test_V71_V72_count_truncates :
    gives (exec (.wRcr 0x12345678#32) fresh) (fun t =>
      t.history == [.action .uart .none] &&
        gives (exec .rRcr t) fun u => u.history == [.action .uart .none, .readData .uart 0x5678#32]) = true := by
  decide

theorem test_V74_upper_half_is_stop :
    gives (exec (.wRcr 0x00010000#32) (armed true false)) (fun t =>
      t.uart.rxChannel.currentCount == 0#16 && t.history == [.action .uart .stopRx, .log .stopRx]) = true := by decide

theorem test_V76_V77_tcr :
    gives (exec (.wTcr 0x7#32) (armed true false)) (fun t => t.history == [.action .uart .none]) = true ∧
    gives (exec (.wTcr 0xFFFF#32) (armed false true)) (fun t =>
      t.uart.txChannel.currentCount == 0xFFFF#16 && t.uart.rxChannel.currentCount == 0#16 &&
        t.history == [.action .uart .startTx, .log .startTx]) = true := by decide

theorem test_V79_V80_rncr :
    gives (exec (.wRncr 0#32) (armed true false)) (fun t => t.history == [.action .uart .none]) = true ∧
    gives (exec (.wRncr 0#32) { armed true false with cfg := { p0 with pdcNextCountAction := .startStop } })
      (fun t => t.history == [.action .uart .stopRx, .log .stopRx]) = true := by decide

theorem test_R171_tncr :
    gives (exec (.wTncr 0x20#32) fresh) (fun t =>
      t.uart.txChannel.nextCount == 0x20#16 && t.uart.rxChannel.nextCount == 0#16 &&
        t.history == [.action .uart .none] &&
        gives (exec .rTncr t) fun u => u.history == [.action .uart .none, .readData .uart 0x20#32]) = true := by decide

theorem test_V70_pointers :
    gives (exec (.wRpr 0xFFFFFFFF#32) fresh) (fun t =>
      t.uart.rxChannel == ⟨0xFFFFFFFF#32, 0, 0, 0, false⟩ && t.history == [.action .uart .none]) = true ∧
    gives (exec (.wTpr 0x20001000#32) fresh) (fun t => t.uart.txChannel == ⟨0x20001000#32, 0, 0, 0, false⟩) = true ∧
    gives (exec (.wRnpr 0x20000100#32) fresh) (fun t => t.uart.rxChannel == ⟨0, 0, 0x20000100#32, 0, false⟩) = true ∧
    gives (exec (.wTnpr 0x20001100#32) fresh) (fun t => t.uart.txChannel == ⟨0, 0, 0x20001100#32, 0, false⟩) = true := by
  decide

theorem test_V82_V84_V85_ptcr :
    gives (exec (.wPtcr 0x101#32) fresh) (fun t =>
      t.uart.rxChannel.transferEnabled && t.uart.txChannel.transferEnabled &&
        t.history == [.action .uart .stateChanged]) = true ∧
    gives (exec (.wPtcr 0x3#32) (armed true true)) (fun t =>
      !t.uart.rxChannel.transferEnabled && t.uart.txChannel.transferEnabled) = true ∧
    gives (exec (.wPtcr 0x303#32) (armed true true)) (fun t =>
      !t.uart.rxChannel.transferEnabled && !t.uart.txChannel.transferEnabled) = true := by decide

theorem test_R174_R175_R177_R178_ptcr_commands :
    gives (exec (.ptcrRxten 0x1#32) fresh) (fun t => t.uart == (armed true false).uart) = true ∧
    gives (exec (.ptcrRxtdis 0x2#32) (armed true true)) (fun t => t.uart == (armed false true).uart) = true ∧
    gives (exec (.ptcrTxten 0x100#32) fresh) (fun t => t.uart == (armed false true).uart) = true ∧
    gives (exec (.ptcrTxtdis 0x200#32) (armed true true)) (fun t =>
      t.uart == (armed true false).uart && t.history == [.action .uart .stateChanged]) = true := by decide

theorem test_V83_ptsr :
    gives (exec .rPtsr (armed true true)) (fun t => t.history == [.readData .uart 0x101#32]) = true ∧
    gives (exec .rPtsr (armed false true)) (fun t => t.history == [.readData .uart 0x100#32]) = true := by decide

theorem test_V100_hdx_pointer :
    gives (exec (.hdxWRpr 0x30000000#32) fresh) (fun t =>
      gives (exec .hdxRTpr t) fun u => u.history == [.action .hdx .none, .readData .hdx 0x30000000#32]) = true := by decide

theorem test_R196_hdx_next_pointer :
    gives (exec (.hdxWTnpr 0x20000200#32) fresh) (fun t =>
      gives (exec .hdxRRnpr t) fun u => u.history == [.action .hdx .none, .readData .hdx 0x20000200#32]) = true := by decide

theorem test_V101_hdx_count :
    gives (exec (.hdxWTcr 0x00010009#32) fresh) (fun t =>
      gives (exec .hdxRRcr t) fun u => u.history == [.action .hdx .none, .readData .hdx 9#32]) = true := by decide

theorem test_R197_hdx_next_count :
    gives (exec (.hdxWRncr 7#32) fresh) (fun t =>
      gives (exec .hdxRTncr t) fun u => u.history == [.action .hdx .none, .readData .hdx 7#32]) = true := by decide

theorem test_V109_V110_hdx_classify :
    gives (exec (.hdxWRcr 5#32) (half false true)) (fun t =>
      t.hdx.count == 5#16 && t.history == [.action .hdx .none]) = true ∧
    gives (exec (.hdxWTcr 5#32) (half false true)) (fun t => t.history == [.action .hdx .startTx]) = true := by decide

theorem test_V102_to_V105_hdx_commands :
    gives (exec (.hdxPtcrRxten 0x1#32) (half false true)) (fun t => t.hdx == (half true false).hdx) = true ∧
    gives (exec (.hdxPtcrTxten 0x100#32) (half true false)) (fun t =>
      t.hdx == (half false true).hdx && t.history == [.action .hdx .stateChanged]) = true ∧
    gives (exec (.hdxPtcrRxtdis 0x2#32) (half false true)) (fun t => t.hdx == fresh.hdx) = true ∧
    gives (exec (.hdxPtcrTxtdis 0x200#32) (half true false)) (fun t => t.hdx == fresh.hdx) = true := by decide

theorem test_V106_hdx_disable_wins :
    gives (exec (.hdxWPtcr 0x102#32) fresh) (fun t => t.hdx == fresh.hdx) = true ∧
    gives (exec (.hdxWPtcr 0#32) (half true false)) (fun t =>
      t.hdx == (half true false).hdx && t.history == [.action .hdx .stateChanged]) = true := by decide

theorem test_V107_hdx_dual_enable :
    gives (exec (.hdxPtcrDualen 0x101#32) (half true false)) (fun t =>
      t.hdx == { (half true false).hdx with fault := true } &&
        t.history == [.fault .hdx (.halfDuplexDualEnable 0x101#32)]) = true := by decide

theorem test_V111_hdx_ptsr :
    gives (exec .hdxRPtsr (half true false)) (fun t => t.history == [.readData .hdx 1#32]) = true := by decide

theorem test_V121_V127_checks_in_order :
    gives (step (issue (.write .uart 1 0x1C 0x41#32) fresh)) (fun t =>
      t.history == [.fault .uart (.illegalWidth .write 0x1C 1)]) = true ∧
    gives (step (issue (.read .uart 2 0x24) fresh)) (fun t =>
      t.history == [.fault .uart (.illegalWidth .read 0x24 2)]) = true ∧
    gives (step (issue (.read .uart 4 0x15) fresh)) (fun t =>
      t.history == [.fault .uart (.illegalOffset .read 0x15)]) = true := by decide

theorem test_V14_V53_V91_directions_and_gaps :
    gives (step (issue (.read .uart 4 0x00) fresh)) (fun t =>
      t.uart.fault && t.history == [.fault .uart (.illegalOffset .read 0x00)]) = true ∧
    gives (step (issue (.write .uart 4 0x10 1#32) fresh)) (fun t => t.uart.fault && t.uart.interruptMask == 0) = true ∧
    gives (step (issue (.read .uart 4 0x128) fresh)) (fun t => t.uart.fault) = true ∧
    gives (step (issue (.write .uart 4 0x4C 0#32) fresh)) (fun t => t.uart.fault) = true := by decide

theorem test_V128_no_step_in_fault_state :
    ends (step (issue (.read .uart 4 0x14) over')) = true ∧ ends (step (issue (.deliver [0x41#8]) over')) = true ∧
    ends (step (issue (.reset .uart) over')) = true ∧ ends (exec (.reset .uart) over') = true := by decide

theorem test_V130_reset :
    gives (exec (.reset .uart)
      { at' 0x223#32 0x21#32 0x41#8 true true with
        uart :=
          { (at' 0x223#32 0x21#32 0x41#8 true true).uart with
            mode := 1, rxChannel := ⟨0x20000000#32, 8, 0x20000100#32, 8, true⟩ } })
      (fun t => t == fresh && !irqLevel t) = true := by decide

theorem test_R265_hdx_reset :
    gives (exec (.reset .hdx) { fresh with hdx := ⟨0x30000000#32, 4, 8, 2, false, true, false⟩ })
      (fun t => t == fresh) = true := by decide

/-- A step of an external engine on an armed channel (R215). -/
theorem test_R215_engine_step :
    gives (step
      { armed true false with
        cfg := { p0 with xferEngine := .external }
        pending := [.engine (.rx ⟨1, 2, 3, 4⟩ ⟨some true, none, none, none⟩ true)] })
      (fun t => t.uart.rxChannel == ⟨1, 2, 3, 4, true⟩ && t.uart.status == 0x208#32 && t.pending == []) = true := by
  decide

/-! ### The hypotheses of the statements are met -/

theorem test_hyp_DecodeEncodeAgree :
    p0.wellFormed = true ∧ (Instr.wCr 0xFFFFFFFF#32).wellFormed p0 = true ∧
    (Instr.rxDeliver [0xFF#8]).wellFormed p0 = true ∧ (Instr.hdxPtcrDualen 0xFFFFFFFF#32).wellFormed p0 = true := by
  decide

theorem test_hyp_DecodedOperationsEncodeBack :
    decodeOpCode p0 ⟨.uart, 0b01100100000#11, 0xFFFFFFFF#32⟩ = some (.wPtcr 0xFFFFFFFF#32) := by decide

theorem test_hyp_StepRunsDecodedOperation :
    (issue (.read .uart 4 0x14) fresh).Live ∧
    (issue (.read .uart 4 0x14) fresh).pending = .op (.read .uart 4 0x14) :: [] ∧
    (match decode p0 (.read .uart 4 0x14) with | .ok i => i == .rSr | .error _ => false) = true ∧
    (match decode p0 (.read .uart 4 0x24) with | .ok _ => false | .error v => v == .illegalOffset .read 0x24) = true ∧
    fresh.pending = [] := by decide

theorem test_hyp_BusAccessChecksInOrder :
    fresh.cfg.pdcOffsets = defaultPdcOffsets ∧ fresh.Live ∧ over'.sessionOver = true ∧
    over'.cfg.pdcOffsets = defaultPdcOffsets ∧
    0x04 ∈ readableOffsets ∧ 0x124 ∈ readableOffsets ∧ 0x00 ∉ readableOffsets ∧ 0x120 ∉ readableOffsets ∧
    0x00 ∈ writableOffsets ∧ 0x120 ∈ writableOffsets ∧ 0x124 ∉ writableOffsets ∧ 0x1FC ∉ writableOffsets := by decide

theorem test_hyp_HalfDuplexAccessChecks :
    fresh.Live ∧ fresh.cfg.wellFormed = true ∧
    pdcOffset fresh.cfg.pdcOffsets .rpr = 0x100 ∧ pdcOffset fresh.cfg.pdcOffsets .ptcr = 0x120 ∧
    pdcOffset fresh.cfg.pdcOffsets .ptsr = 0x124 ∧
    PdcReg.all.all (fun r => pdcOffset fresh.cfg.pdcOffsets r != 0xFC) = true ∧
    PdcReg.all.all (fun r => pdcOffset fresh.cfg.pdcOffsets r != 0x128) = true := by decide

theorem test_hyp_OnlyWordAccessesAreLegal : fresh.Live ∧ (3 : Nat) ≠ 4 ∧ (5 : Nat) ≠ 4 ∧ (0 : Nat) ≠ 4 := by decide

theorem test_hyp_MisalignedAccessIsIllegalOffset : fresh.Live ∧ 0x15 % 4 ≠ 0 ∧ 0x1FF % 4 ≠ 0 := by decide

theorem test_hyp_WrongDirectionIsIllegalOffset : fresh.Live ∧ fresh.cfg.wellFormed = true := by decide

theorem test_hyp_ViolationHasNoOtherEffect :
    fresh.Live ∧
    step (issue (.read .uart 1 0x14) fresh) =
      .next (raiseViolation .uart (.illegalWidth .read 0x14 1) fresh) ∧
    (raiseViolation .uart (.illegalWidth .read 0x14 1) fresh).sessionOver = true :=
  ⟨by decide, rfl, by decide⟩

theorem test_hyp_ViolationCauses :
    fresh.Live ∧ fresh.cfg.wellFormed = true ∧ readAt p0 .uart 0x00 = none ∧ writeAt p0 .uart 0x14 0 = none ∧
    ([] : List Byte).length ≠ 1 ∧ [0#8, 0#8].length ≠ 1 ∧ dualEnable p0 0x101#32 = true ∧
    gives (step (issue (.deliver []) fresh)) (fun t => t.sessionOver) = true := by decide

theorem test_hyp_FaultStateHasNoStep : over'.sessionOver = true := by decide

theorem test_hyp_EveryOperationCompletes : fresh.Live ∧ (half true false).Live ∧ (armed true true).Live := by decide

theorem test_hyp_PtsrShowsTheTwoEnables :
    (half true false).Live ∧ (half true false).cfg.wellFormed = true ∧ (half true false).Interlocked := by decide

theorem test_hyp_OnlyRhrHasAReadSideEffect :
    fresh.Live ∧ fresh.cfg.wellFormed = true ∧
    (match decode p0 (.read .uart 4 0x18) with | .ok i => i == .rRhr | .error _ => false) = true ∧
    (match decode p0 (.read .uart 4 0x14) with | .ok i => i != .rRhr | .error _ => false) = true := by decide

theorem test_hyp_RhrReadReturnsByteAndClearsRxrdy :
    (at' 0x221#32 0x1#32 0x41#8).Live ∧ (at' 0x221#32 0x1#32 0x41#8).cfg.wellFormed = true ∧
    (at' 0x221#32 0x1#32 0x41#8).uart.status &&& (at' 0x221#32 0x1#32 0x41#8).uart.interruptMask =
      bitMask p0.statusBits.rxrdy ∧
    fresh.flag .rxrdy = false ∧ gives (exec .rRhr fresh) (fun _ => true) = true := by decide

theorem test_hyp_ThrWriteEmitsTheLowByte :
    fresh.Live ∧ fresh.cfg.txGate = false ∧ (at' 0x200#32 0 0 false true).uart.txEnabled = true := by decide

theorem test_hyp_ByteIsAcceptedWhenNotReady :
    (at' 0x220#32 0x1#32).Live ∧ (at' 0x220#32 0x1#32).cfg.wellFormed = true ∧
    (at' 0x220#32 0x1#32).cfg.rxGate = false ∧ (at' 0x220#32 0x1#32).flag .rxrdy = false ∧
    testBit (at' 0x220#32 0x1#32).uart.interruptMask p0.statusBits.rxrdy = true := by decide

theorem test_hyp_OverrunKeepsTheWaitingByte :
    (at' 0x201#32 0x20#32).Live ∧ (at' 0x201#32 0x20#32).cfg.wellFormed = true ∧
    (at' 0x201#32 0x20#32).cfg.rxGate = false ∧ (at' 0x201#32 0x20#32).flag .rxrdy = true ∧
    testBit (at' 0x201#32 0x20#32).uart.interruptMask p0.statusBits.ovre = true := by decide

theorem test_hyp_BadDeliverySizeIsFatal :
    fresh.Live ∧ ([] : List Byte).length ≠ 1 ∧ [0x41#8, 0x42#8].length ≠ 1 := by decide

theorem test_hyp_GatesDropSilently :
    (under { p0 with rxGate := true, txGate := true }).Live ∧
    (under { p0 with rxGate := true, txGate := true }).cfg.rxGate = true ∧
    (under { p0 with rxGate := true, txGate := true }).cfg.txGate = true ∧
    (under { p0 with rxGate := true, txGate := true }).uart.rxEnabled = false ∧
    (under { p0 with rxGate := true, txGate := true }).uart.txEnabled = false := by decide

theorem test_hyp_TransmitStreamIsTheThrWrites :
    fresh.cfg.txGate = false ∧ fresh.cfg.xferEngine = .null ∧
    gives (Host.Core.run Sys2Proof.core 2 (issue (.write .uart 4 0x1C 0x4F#32) fresh))
      (fun t => txStream t.history == [0x4F#8]) = true := by decide

theorem test_hyp_CrCommandEffects :
    (at' 0x221#32 0x22#32).Live ∧ (at' 0x221#32 0x22#32).cfg.wellFormed = true ∧
    testBit (at' 0x221#32 0x22#32).uart.interruptMask p0.statusBits.txrdy = true ∧
    (at' 0x221#32 0x22#32).uart.status &&& (at' 0x221#32 0x22#32).uart.interruptMask = bitMask p0.statusBits.ovre := by
  decide

theorem test_hyp_CrWriteOfNoneAndOfAll :
    fresh.Live ∧ fresh.cfg.wellFormed = true ∧ 0xFFFFFE03#32 &&& crDefined fresh.cfg.crBits = 0 := by decide

theorem test_hyp_CrCommandsLeaveTheRest :
    fresh.cfg.wellFormed = true ∧ gives (exec (.wCr 0x1FC#32) fresh) (fun _ => true) = true ∧
    gives (exec (.crRststa 0x100#32) fresh) (fun _ => true) = true := by decide

theorem test_hyp_MaskWritesSetAndClear :
    fresh.Live ∧ fresh.cfg.ierComplementDefect = false ∧
    fresh.uart.status &&& 0x200#32 &&& fresh.cfg.imrDomain ≠ 0 ∧
    fresh.uart.status &&& fresh.uart.interruptMask &&& ~~~ 0x200#32 = 0 := by decide

theorem test_hyp_MaskWriteLaws :
    fresh.Live ∧ fresh.cfg.ierComplementDefect = false ∧ fresh.MaskInDomain ∧
    0x21#32 &&& 0x20#32 &&& fresh.cfg.imrDomain ≠ 0 ∧
    (under { p0 with ierComplementDefect := true }).Live ∧
    (under { p0 with ierComplementDefect := true }).cfg.ierComplementDefect = true := by decide

theorem test_hyp_OnlyMaskWritesAndResetChangeTheMask :
    gives (exec (.wMr 1#32) (at' 0x221#32 0x21#32)) (fun t => t.uart.interruptMask == 0x21#32) = true ∧
    gives (exec (.reset .uart) (at' 0x221#32 0x21#32)) (fun t => t.uart.interruptMask == 0) = true := by decide

theorem test_hyp_IrqIsHighIffAnEnabledFlagIsSet :
    (at' 0x223#32 0x21#32).StatusNamed ∧ (at' 0xC0001AFB#32).StatusNamed := by decide

theorem test_hyp_InertRegistersAreIndependent :
    gives (exec (.wBrgr 0x1A#32) fresh) (fun t => t.uart.mode == 0 && t.uart.frameNumber == 0) = true ∧
    gives (exec (.reset .uart) fresh) (fun _ => true) = true ∧ Instr.wBrgr 0x1A#32 ≠ .reset .uart := by decide

theorem test_hyp_IdentificationIsConstant :
    fresh.Live ∧ gives (step (issue (.reset .uart) fresh)) (fun t => t.cfg == p0) = true := by decide

theorem test_hyp_CountWritesStoreAndClassify :
    (armed true false).Live ∧ (armed true false).uart.txChannel.transferEnabled = false ∧
    (0x10000#32).truncate 16 = (0 : Count) ∧ (0xFFFF#32).truncate 16 ≠ (0 : Count) := by decide

theorem test_hyp_NextCountWritesFollowTheParameter :
    fresh.Live ∧ fresh.cfg.pdcNextCountAction = .none ∧
    (under { p0 with pdcNextCountAction := .stateChanged }).Live ∧
    (under { p0 with pdcNextCountAction := .startStop }).Live := by decide

theorem test_hyp_PdcAccessesLeaveTheInterruptLevel :
    fresh.cfg.wellFormed = true ∧
    gives (step (issue (.read .hdx 4 (pdcOffset p0.pdcOffsets .ptsr)) fresh)) (fun _ => true) = true ∧
    gives (step (issue (.write .uart 4 (pdcOffset p0.pdcOffsets .ptcr) 0x101#32) fresh)) (fun _ => true) = true := by
  decide

theorem test_hyp_DescriptorsChangeOnlyByTheirOwnWrite :
    gives (exec (.wTcr 5#32) fresh) (fun t => t.uart.rxChannel == .reset) = true ∧
    Instr.wTcr 5#32 ≠ .reset .uart ∧ fresh.Live ∧ fresh.cfg.xferEngine = .null ∧
    ({ fresh with pending := [.engine (.rx ⟨0, 0, 0, 0⟩ ⟨none, none, none, none⟩ false)] } : State).pending =
      .engine (.rx ⟨0, 0, 0, 0⟩ ⟨none, none, none, none⟩ false) :: [] := by decide

theorem test_hyp_HalfDuplexCountWritesClassify :
    (half true false).Live ∧ (half true false).hdx.rxEnabled = true ∧ (half true false).hdx.txEnabled = false := by decide

theorem test_hyp_HalfDuplexPtcrTable :
    (half true false).Live ∧ (half true false).cfg.wellFormed = true ∧
    testBit 0x303#32 (ptcrPos p0.ptcrBits .rxten) = true ∧ testBit 0x303#32 (ptcrPos p0.ptcrBits .txten) = true ∧
    testBit 0x001#32 (ptcrPos p0.ptcrBits .rxten) = true ∧ testBit 0x001#32 (ptcrPos p0.ptcrBits .txten) = false ∧
    testBit 0x100#32 (ptcrPos p0.ptcrBits .txten) = true ∧ testBit 0x100#32 (ptcrPos p0.ptcrBits .txtdis) = false ∧
    testBit 0x102#32 (ptcrPos p0.ptcrBits .rxtdis) = true ∧
    ptcrCommandsIn p0 0xFFFFFCFC#32 = [] := by decide

theorem test_hyp_InterlockIsNeverBroken :
    gives (exec (.reset .hdx) (half true false)) (fun _ => true) = true ∧ (half false true).Interlocked ∧
    gives (step (issue (.write .hdx 4 0x120 0x1#32) (half false true))) (fun t => t.hdx.rxEnabled) = true := by decide

theorem test_hyp_ResetIsIdempotent : (at' 0x223#32 0x21#32).Live ∧ fresh.Live ∧ (at' 0x223#32 0x21#32).cfg = fresh.cfg := by
  decide

theorem test_hyp_StepKeepsTheInvariant : fresh.Inv ∧ gives (step fresh) (fun t => t == fresh) = true :=
  ⟨⟨by decide, by decide, by decide, by decide, by decide, by decide⟩, by decide⟩

theorem test_hyp_CreationSatisfiesTheInvariant : p0.wellFormed = true := by decide

theorem test_hyp_OnlyListedTransitionsChangeStatus :
    fresh.cfg.wellFormed = true ∧ fresh.cfg.xferEngine = .null ∧
    gives (step (issue (.write .uart 4 0x00 0x40#32) fresh)) (fun t => t.uart.status != fresh.uart.status) = true ∧
    gives (step (issue (.read .uart 4 0x18) (at' 0x201#32))) (fun t => t.uart.status == 0x200#32) = true ∧
    gives (step (issue (.deliver [0#8]) fresh)) (fun t => t.uart.status == 0x201#32) = true ∧
    gives (step (issue (.reset .uart) (at' 0x201#32))) (fun t => t.uart.status == 0x200#32) = true := by decide

theorem test_hyp_TxrdyAndOvreStay :
    (at' 0x222#32).cfg.wellFormed = true ∧ (at' 0x222#32).flag .txrdy = true ∧ (at' 0x222#32).flag .ovre = true ∧
    gives (exec (.crRststa 0x100#32) (at' 0x222#32)) (fun t => !t.flag .ovre) = true ∧
    Instr.crRststa 0x100#32 ≠ .reset .uart := by decide

theorem test_hyp_TxemptyIsAlwaysSet :
    fresh.cfg.wellFormed = true ∧ fresh.TxemptySet ∧ gives (step fresh) (fun _ => true) = true ∧
    gives (exec (.wThr 0x41#32) fresh) (fun _ => true) = true := by decide

theorem test_hyp_EngineStepsStayWithinTheirBounds :
    ({ armed true false with cfg := { p0 with xferEngine := .external } } : State).Live ∧
    ({ armed true false with cfg := { p0 with xferEngine := .external } } : State).cfg.wellFormed = true ∧
    (({ armed true false with cfg := { p0 with xferEngine := .external } } : State).channel .rx).transferEnabled = true ∧
    (({ armed true false with cfg := { p0 with xferEngine := .external } } : State).channel .tx).transferEnabled =
      false := by decide

theorem test_hyp_CrEnablesCannotBeObserved :
    fresh.cfg.rxGate = false ∧ fresh.cfg.txGate = false ∧ SameButEnables fresh (at' 0x200#32 0 0 true true) ∧
    gives (Host.Core.run Sys2Proof.core 1 fresh) (fun _ => true) = true ∧
    ends (Host.Core.run Sys2Proof.core 1 over') = true ∧
    (match step { fresh with pending := [.engine (.rx ⟨0, 0, 0, 0⟩ ⟨none, none, none, none⟩ false)] } with
      | .refused r => r == .noTransferEngine
      | .next _ => false
      | .fault _ => false) = true := by decide

/-- Each shape of output in the frame table of R222: nothing, a value, a byte, an action with its log line, an
action, a report. -/
theorem test_hyp_EveryInstructionStaysInItsFrame :
    gives (exec (.reset .uart) (at' 0x21#32)) (fun t => t.history == []) = true ∧
    gives (exec (.rxDeliver [0x41#8]) fresh) (fun t => t.history == []) = true ∧
    gives (exec .rRhr (at' 0x1#32 0 0x41#8)) (fun t => t.history == [.readData .uart 0x41#32]) = true ∧
    gives (exec (.wThr 0x41#32) fresh) (fun t => t.history == [.tx 0x41#8]) = true ∧
    gives (exec (.wRcr 8#32) (armed true false)) (fun t => t.history == [.action .uart .startRx, .log .startRx])
      = true ∧
    gives (exec (.hdxWRcr 8#32) (half true false)) (fun t => t.history == [.action .hdx .startRx]) = true ∧
    gives (exec (.rxDeliver []) fresh) (fun t => t.history == [.fault .uart (.badDeliverySize 0)]) = true ∧
    gives (exec (.hdxWPtcr 0x303#32) fresh) (fun t => t.history == [.fault .hdx (.halfDuplexDualEnable 0x303#32)])
      = true := by decide

theorem test_hyp_PlainReadsReturnTheirRegister : fresh.Live := by decide

theorem test_hyp_InertWritesStoreTheWholeWord : fresh.Live := by decide

theorem test_hyp_PointerWritesStoreAndReturnNone : fresh.Live := by decide

theorem test_hyp_PtcrCommandsSwitchTheirChannel : (armed true false).Live := by decide

theorem test_hyp_HalfDuplexReadsReturnTheSharedField : (half false true).Live := by decide

theorem test_hyp_HalfDuplexNamesShareStorage : (half false true).Live := by decide

theorem test_hyp_HalfDuplexPtcrCommands : (half true false).Live := by decide

theorem test_hyp_ResetPutsTheUnitInItsResetState : (at' 0x223#32 0x21#32 0x41#8 true true).Live := by decide

theorem test_hyp_DisjointOperationsCommute : fresh.Live := by decide

theorem test_hyp_CrWriteNetEffect :
    (at' 0x223#32 0x21#32 0x41#8 true true).Live ∧ (at' 0x223#32).cfg.wellFormed = true := by decide

theorem test_hyp_PtcrWriteNetEffect : (armed true false).Live ∧ (armed true false).cfg.wellFormed = true := by decide

end Sys2Proof.Tests
end

section
/-! SUPPORT. The writers of the status register, one by one (`10_state.md` R31): which instructions can change it,
and which flags each of them writes. -/

namespace Sys2Proof.Machine

/-! ### The CR write -/

/-- The flag writes R31 gives the commands of a CR write: `f` becomes `b` by a command whose bit is set in `v`. -/
def CrWritesFlag (c : Params) (v : Word) (f : StatusFlag) (b : Bool) : Prop :=
  (f = .rxbuff ∧ testBit v c.crBits.rstrx = true ∧ b = false) ∨
  (f = .txempty ∧ testBit v c.crBits.rsttx = true ∧ b = true) ∨
  (f = .txrdy ∧ testBit v c.crBits.txen = true ∧ b = true) ∨
  ((f = .pare ∨ f = .frame ∨ f = .ovre) ∧ testBit v c.crBits.rststa = true ∧ b = false)

/-- One command whose bit is set keeps a flag or writes it as R31 lists (R91 to R97). -/
theorem flag_doCr_kept_or_written {s : State} (hw : s.cfg.wellFormed = true) {v : Word} {k : CrCommand}
    (hk : testBit v (crPos s.cfg.crBits k) = true) (f : StatusFlag) :
    (doCr k s).flag f = s.flag f ∨ CrWritesFlag s.cfg v f ((doCr k s).flag f) := by
  rw [flag_doCr hw]
  cases k <;> simp only [crPos] at hk
  case rxen | rxdis | txdis => exact .inl rfl
  case rstrx | rsttx | txen => dsimp only; split <;> simp [CrWritesFlag, *]
  case rststa =>
    dsimp only
    split
    · exact .inr (.inr (.inr (.inr ⟨by tauto, hk, rfl⟩)))
    · exact .inl rfl

/-- A whole CR write keeps a flag or writes it by one of its commands (R90). -/
theorem flag_doCrWrite_kept_or_written {s : State} (hw : s.cfg.wellFormed = true) (v : Word) (f : StatusFlag) :
    (doCrWrite v s).flag f = s.flag f ∨ CrWritesFlag s.cfg v f ((doCrWrite v s).flag f) := by
  rw [doCrWrite_eq]
  refine (foldl_keeps (P := fun x => x.cfg = s.cfg ∧
    (x.flag f = s.flag f ∨ CrWritesFlag s.cfg v f (x.flag f))) crOrder s ⟨rfl, .inl rfl⟩ ?_).2
  rintro x k ⟨hc, hx⟩
  split
  case isFalse => exact ⟨hc, hx⟩
  case isTrue hk =>
    refine ⟨(doCr_cfg k x).trans hc, ?_⟩
    rw [← hc] at hk hw hx ⊢
    rcases flag_doCr_kept_or_written hw hk f with h | h
    · rwa [h]
    · exact .inr h

/-- Whichever row a CR write decodes to, it does what the whole write does (R79 (c)). -/
theorem effect_crForm (v : Word) (s : State) : effect (crForm s.cfg v) s = doCrWrite v s := by
  rcases crForm_cases s.cfg v with ⟨k, hk, h⟩ | ⟨-, h⟩
  · rw [h, doCrWrite, hk]
    cases k <;> rfl
  · rw [h]
    rfl

/-- A CR write always decodes, to its row. -/
theorem decode_uartWrite_cr (c : Params) (v : Word) : decode c (uartWrite .cr v) = .ok (crForm c v) :=
  decode_write_ok.2 (writeAt_uart c .cr v)

/-! ### All instructions -/

@[simp] theorem doPtcr_status (k : PtcrCommand) (s : State) : (doPtcr k s).uart.status = s.uart.status := by
  cases k <;> rfl

/-- An instruction keeps the status, or it is one of R31's writers: a CR write, a read of RHR, a one-byte
delivery, RESET of the UART. -/
theorem effect_status_kept_or_writer (i : Instr) (s : State) :
    (effect i s).uart.status = s.uart.status ∨ (∃ v, ∀ c, requestOf c i = uartWrite .cr v) ∨
      i = .rRhr ∨ (∃ b, i = .rxDeliver [b]) ∨ i = .reset .uart := by
  cases i
  case wCr v | crRstrx v | crRsttx v | crRxen v | crRxdis v | crTxen v | crTxdis v | crRststa v =>
    exact .inr (.inl ⟨v, fun _ => rfl⟩)
  case rRhr => exact .inr (.inr (.inl rfl))
  case rxDeliver bytes =>
    simp only [effect]
    split
    · exact .inr (.inr (.inr (.inl ⟨_, rfl⟩)))
    · exact .inl (by simp)
  case reset u =>
    cases u
    · exact .inr (.inr (.inr (.inr rfl)))
    · exact .inl rfl
  case wThr v => left; simp only [effect]; split <;> rfl
  case wPtcr v =>
    left
    rw [effect, uartAction_uart]
    exact foldl_same (·.uart.status) (fun s k => doPtcr_status k s) _ _
  case hdxWPtcr v =>
    left
    simp only [effect]
    split
    · rfl
    · obtain ⟨r, t, h⟩ := doHdxPtcr_shape v s
      simp [h]
  all_goals exact .inl (by simp [effect, dualEnableViolation, doHdxRxten, doHdxTxten, doHdxDisable])

/-- A read of RHR keeps a flag, or clears it and it is RXRDY (R112). -/
theorem flag_rRhr_kept_or_cleared {s : State} (hw : s.cfg.wellFormed = true) (f : StatusFlag) :
    (effect .rRhr s).flag f = s.flag f ∨ (f = .rxrdy ∧ (effect .rRhr s).flag f = false) := by
  have h : (effect .rRhr s).flag f = if .rxrdy = f then false else s.flag f := flag_writeFlag hw .rxrdy f false
  by_cases hf : StatusFlag.rxrdy = f
  · exact .inr ⟨hf.symm, h.trans (if_pos hf)⟩
  · exact .inl (h.trans (if_neg hf))

/-! ### The list -/

/-- Settles O54: an operation that changes the status is one of R31's writers, and each writer's flags are those
of its own rule. -/
theorem onlyListedTransitionsChangeStatus : Obligations.OnlyListedTransitionsChangeStatus := by
  unfold Obligations.OnlyListedTransitionsChangeStatus
  intro s t hw hnull hstep hne
  obtain ⟨-, ⟨-, rfl⟩ | ⟨r, rest, i, hp, hd, he⟩ | ⟨r, rest, v, -, -, rfl⟩ | ⟨e, rest, -, hx, -⟩⟩ :=
    step_next_cases hstep
  · exact absurd rfl hne
  · obtain ⟨-, rfl⟩ := exec_next_iff.1 he
    refine ⟨r, rest, hp, ?_⟩
    obtain rfl := requestOf_decode hd
    rcases effect_status_kept_or_writer i { s with pending := rest } with h | ⟨v, hv⟩ | rfl | ⟨b, rfl⟩ | rfl
    · exact absurd h hne
    · rw [hv, decode_uartWrite_cr] at hd
      cases hd
      refine .inl ⟨v, hv _, fun f hf => ?_⟩
      have hcr := effect_crForm v { s with pending := rest }
      rw [hcr] at hf ⊢
      exact (flag_doCrWrite_kept_or_written (s := { s with pending := rest }) hw v f).resolve_left hf
    · exact .inr (.inl ⟨rfl, fun f hf =>
        (flag_rRhr_kept_or_cleared (s := { s with pending := rest }) hw f).resolve_left hf⟩)
    · exact .inr (.inr (.inl ⟨b, rfl, fun f hf =>
        (flag_arrive (s := { s with pending := rest }) hw b f).resolve_left hf⟩))
    · exact .inr (.inr (.inr rfl))
  · exact absurd (by simp) hne
  · exact absurd hnull hx

end Sys2Proof.Machine
end

section
/-! SUPPORT. Reads without side effect and the access width (`20_memory.md` R42, R46). -/

namespace Sys2Proof.Machine

/-! ### Plain reads -/

/-- `i` is a plain read of the unit `t`: all it does is return a value, which depends on no earlier output. -/
def IsPlainRead (t : Target) (i : Instr) : Prop :=
  ∃ value : State → Word,
    (∀ s, effect i s = returnValue t (value s) s) ∧ ∀ s e, value (s.record e) = value s

theorem readOfUart_isPlainRead {r : UartReg} {i : Instr} (h : readOfUart r = some i) (hi : i ≠ .rRhr) :
    IsPlainRead .uart i := by
  cases r <;> cases h
  case rhr => exact absurd rfl hi
  all_goals exact ⟨_, fun _ => rfl, fun _ _ => rfl⟩

theorem readOfPdc_isPlainRead {r : PdcReg} {i : Instr} (h : readOfPdc r = some i) : IsPlainRead .uart i := by
  cases r <;> cases h <;> exact ⟨_, fun _ => rfl, fun _ _ => rfl⟩

theorem readOfHdx_isPlainRead {r : PdcReg} {i : Instr} (h : readOfHdx r = some i) : IsPlainRead .hdx i := by
  cases r <;> cases h <;> exact ⟨_, fun _ => rfl, fun _ _ => rfl⟩

/-- Every readable offset of either window but that of RHR is a plain read. -/
theorem readAt_isPlainRead {c : Params} {t : Target} {off : Nat} {i : Instr} (h : readAt c t off = some i)
    (hi : i ≠ .rRhr) : IsPlainRead t i := by
  cases t with
  | uart =>
    rcases readAt_uart_cases h with ⟨r, -, hr⟩ | ⟨r, -, hr⟩
    · exact readOfUart_isPlainRead hr hi
    · exact readOfPdc_isPlainRead hr
  | hdx =>
    obtain ⟨r, -, hr⟩ := readAt_hdx_cases h
    exact readOfHdx_isPlainRead hr

/-- A plain read can be repeated: the second returns the same value and again changes nothing else. -/
theorem IsPlainRead.exec_twice {t : Target} {i : Instr} (h : IsPlainRead t i) {s : State} (hl : s.Live) :
    ∃ v, exec i s = .next (returnValue t v s) ∧
      exec i (returnValue t v s) = .next (returnValue t v (returnValue t v s)) := by
  obtain ⟨value, heff, hrec⟩ := h
  refine ⟨value s, by rw [exec_live hl, heff], ?_⟩
  have hl' : (returnValue t (value s) s).Live := hl
  have hv : value (returnValue t (value s) s) = value s := hrec s _
  rw [exec_live hl', heff, hv]

/-! ### The read of RHR -/

/-- A read of RHR leaves RXRDY clear (R112). -/
theorem flag_rxrdy_rRhr {s : State} (hw : s.cfg.wellFormed = true) : (effect .rRhr s).flag .rxrdy = false :=
  (flag_writeFlag hw .rxrdy .rxrdy false).trans (if_pos rfl)

/-- Settles O16: each register that can be read is a plain read, or it is RHR. -/
theorem onlyRhrHasAReadSideEffect : Obligations.OnlyRhrHasAReadSideEffect := by
  unfold Obligations.OnlyRhrHasAReadSideEffect
  intro s t off i hl hw hd
  refine ⟨fun hi => (readAt_isPlainRead (decode_read_ok.1 hd) hi).exec_twice hl, ?_⟩
  rintro rfl
  exact ⟨_, exec_live hl _, flag_rxrdy_rRhr hw⟩

/-! ### The access width -/

/-- Settles O7: the width is the first check of decoding, before the unit's map and the value. -/
theorem onlyWordAccessesAreLegal : Obligations.OnlyWordAccessesAreLegal := by
  unfold Obligations.OnlyWordAccessesAreLegal
  intro s t size off v hl hs
  exact ⟨rejects_of_decode hl (decode_read_badSize hs), rejects_of_decode hl (decode_write_badSize hs)⟩

end Sys2Proof.Machine
end

section
/-! SUPPORT. Encoding and decoding agree (`30_encoding.md` R61, R79): every well-formed instruction is what its
operation decodes to, and the packed form of an operation that decodes can be read back. -/

namespace Sys2Proof

open Machine

/-! ### Decoding inverted -/

/-- An operation that decodes is a word access of a register of the window, a delivery or a reset. -/
theorem decode_ok_cases {c : Params} {r : Request} {i : Instr} (h : decode c r = .ok i) :
    (∃ t off, r = .read t accessSize off ∧ readAt c t off = some i) ∨
      (∃ t off v, r = .write t accessSize off v ∧ writeAt c t off v = some i) ∨
      (∃ bytes, r = .deliver bytes ∧ i = .rxDeliver bytes) ∨
      ∃ t, r = .reset t ∧ i = .reset t := by
  cases r with
  | read t size off =>
    by_cases hs : size = accessSize
    · subst hs; exact .inl ⟨t, off, rfl, decode_read_ok.1 h⟩
    · rw [decode_read_badSize hs] at h; cases h
  | write t size off v =>
    by_cases hs : size = accessSize
    · subst hs; exact .inr (.inl ⟨t, off, v, rfl, decode_write_ok.1 h⟩)
    · rw [decode_write_badSize hs] at h; cases h
  | deliver bytes => cases h; exact .inr (.inr (.inl ⟨bytes, rfl, rfl⟩))
  | reset t => cases h; exact .inr (.inr (.inr ⟨t, rfl, rfl⟩))

theorem decodeOpCode_eq_some_iff {c : Params} {x : OpCode} {i : Instr} :
    decodeOpCode c x = some i ↔ ∃ r, unpack x = some r ∧ decode c r = .ok i := by
  rw [decodeOpCode, Option.bind_eq_some_iff]
  refine exists_congr fun r => and_congr_right fun _ => ?_
  cases decode c r <;> simp [Except.toOption]

/-! ### Decoding the operation of an instruction -/

theorem decode_uartRead (c : Params) {r : UartReg} {i : Instr} (h : readOfUart r = some i) :
    decode c (uartRead r) = .ok i :=
  decode_read_ok.2 ((readAt_uart c r).trans h)

theorem decode_uartWrite (c : Params) {r : UartReg} {v : Word} {i : Instr} (h : writeOfUart c v r = some i) :
    decode c (uartWrite r v) = .ok i :=
  decode_write_ok.2 ((writeAt_uart c r v).trans h)

section
variable {c : Params} {r : PdcReg} {v : Word} {i : Instr} (hc : c.wellFormed = true)
include hc

theorem decode_pdcRead_uart (h : readOfPdc r = some i) : decode c (pdcRead c .uart r) = .ok i :=
  decode_read_ok.2 ((readAt_pdc hc r).trans h)

theorem decode_pdcRead_hdx (h : readOfHdx r = some i) : decode c (pdcRead c .hdx r) = .ok i :=
  decode_read_ok.2 ((readAt_hdx hc r).trans h)

theorem decode_pdcWrite_uart (h : writeOfPdc c v r = some i) : decode c (pdcWrite c .uart r v) = .ok i :=
  decode_write_ok.2 ((writeAt_pdc hc r v).trans h)

theorem decode_pdcWrite_hdx (h : writeOfHdx c v r = some i) : decode c (pdcWrite c .hdx r v) = .ok i :=
  decode_write_ok.2 ((writeAt_hdx hc r v).trans h)

end

/-- A CR write that issues one command is that command's row. -/
theorem crForm_of_single {c : Params} {v : Word} {k : CrCommand} (h : crCommandsIn c v = [k]) :
    crForm c v = crInstr v k := by
  rw [crForm, h]

/-- A CR write that issues no command or several is the row of the write. -/
theorem crForm_of_not_single {c : Params} {v : Word} (h : (crCommandsIn c v).length ≠ 1) :
    crForm c v = .wCr v := by
  rcases crForm_cases c v with ⟨k, hk, -⟩ | ⟨-, hf⟩
  · exact absurd (congrArg List.length hk) h
  · exact hf

theorem ptcrForm_of_single {c : Params} {v : Word} {k : PtcrCommand} (h : ptcrCommandsIn c v = [k]) :
    ptcrForm c v = ptcrInstr v k := by
  rw [ptcrForm, h]

theorem ptcrForm_of_not_single {c : Params} {v : Word} (h : (ptcrCommandsIn c v).length ≠ 1) :
    ptcrForm c v = .wPtcr v := by
  rcases ptcrForm_cases c v with ⟨k, hk, -⟩ | ⟨-, hf⟩
  · exact absurd (congrArg List.length hk) h
  · exact hf

theorem hdxPtcrForm_of_dualEnable {c : Params} {v : Word} (h : dualEnable c v = true) :
    hdxPtcrForm c v = .hdxPtcrDualen v := by
  rw [hdxPtcrForm, if_pos h]

/-- One command is no dual enable, so the first check of the half-duplex write lets it pass (R199). -/
theorem hdxPtcrForm_of_single {c : Params} {v : Word} {k : PtcrCommand} (h : ptcrCommandsIn c v = [k]) :
    hdxPtcrForm c v = hdxPtcrInstr v k := by
  simp [hdxPtcrForm, dualEnable_of_single h, h]

theorem hdxPtcrForm_of_not_single {c : Params} {v : Word} (hd : dualEnable c v = false)
    (h : (ptcrCommandsIn c v).length ≠ 1) : hdxPtcrForm c v = .hdxWPtcr v := by
  rcases hdxPtcrForm_cases c v with ⟨hd', -⟩ | ⟨-, ⟨k, hk, -⟩ | ⟨-, hf⟩⟩
  · rw [hd] at hd'; cases hd'
  · exact absurd (congrArg List.length hk) h
  · exact hf

/-- Every well-formed instruction is what the operation that issues it decodes to. Most rows are the only
reading of their register; the rows of CR and PTCR share one, and there well-formedness picks the row. -/
theorem decode_requestOf {c : Params} {i : Instr} (hc : c.wellFormed = true) (hi : i.wellFormed c = true) :
    decode c (requestOf c i) = .ok i := by
  cases i
  case rMr | rImr | rSr | rRhr | rBrgr | rCidr | rExid | rFnr => exact decode_uartRead c rfl
  case rRpr | rRcr | rTpr | rTcr | rRnpr | rRncr | rTnpr | rTncr | rPtsr => exact decode_pdcRead_uart hc rfl
  case wMr v | wIer v | wIdr v | wThr v | wBrgr v | wFnr v => exact decode_uartWrite c rfl
  case wRpr v | wRcr v | wTpr v | wTcr v | wRnpr v | wRncr v | wTnpr v | wTncr v =>
    exact decode_pdcWrite_uart hc rfl
  case hdxRRpr | hdxRTpr | hdxRRcr | hdxRTcr | hdxRRnpr | hdxRTnpr | hdxRRncr | hdxRTncr | hdxRPtsr =>
    exact decode_pdcRead_hdx hc rfl
  case hdxWRpr v | hdxWTpr v | hdxWRcr v | hdxWTcr v | hdxWRnpr v | hdxWTnpr v | hdxWRncr v | hdxWTncr v =>
    exact decode_pdcWrite_hdx hc rfl
  case rxDeliver bytes | reset t => rfl
  case crRstrx v | crRsttx v | crRxen v | crRxdis v | crTxen v | crTxdis v | crRststa v =>
    exact decode_uartWrite c (congrArg some (crForm_of_single (eq_of_beq hi)))
  case wCr v => exact decode_uartWrite c (congrArg some (crForm_of_not_single (bne_iff_ne.1 hi)))
  case ptcrRxten v | ptcrRxtdis v | ptcrTxten v | ptcrTxtdis v =>
    exact decode_pdcWrite_uart hc (congrArg some (ptcrForm_of_single (eq_of_beq hi)))
  case wPtcr v => exact decode_pdcWrite_uart hc (congrArg some (ptcrForm_of_not_single (bne_iff_ne.1 hi)))
  case hdxPtcrDualen v => exact decode_pdcWrite_hdx hc (congrArg some (hdxPtcrForm_of_dualEnable hi))
  case hdxPtcrRxten v | hdxPtcrTxten v | hdxPtcrRxtdis v | hdxPtcrTxtdis v =>
    exact decode_pdcWrite_hdx hc (congrArg some (hdxPtcrForm_of_single (eq_of_beq hi)))
  case hdxWPtcr v =>
    obtain ⟨hd, hn⟩ : dualEnable c v = false ∧ (ptcrCommandsIn c v).length ≠ 1 := by
      simpa [Instr.wellFormed] using hi
    exact decode_pdcWrite_hdx hc (congrArg some (hdxPtcrForm_of_not_single hd hn))

/-! ### Reading the packed form back -/

/-- Every readable offset fits the nine bits R61 gives it. -/
theorem readAt_offset_lt {c : Params} {t : Target} {off : Nat} {i : Instr} (h : readAt c t off = some i) :
    off < 512 := by
  cases t with
  | uart =>
    rcases readAt_uart_cases h with ⟨r, rfl, -⟩ | ⟨r, rfl, -⟩
    · exact uartOffset_lt r
    · exact pdcOffset_lt _ r
  | hdx =>
    obtain ⟨r, rfl, -⟩ := readAt_hdx_cases h
    exact pdcOffset_lt _ r

theorem writeAt_offset_lt {c : Params} {t : Target} {off : Nat} {v : Word} {i : Instr}
    (h : writeAt c t off v = some i) : off < 512 := by
  cases t with
  | uart =>
    rcases writeAt_uart_cases h with ⟨r, rfl, -⟩ | ⟨r, rfl, -⟩
    · exact uartOffset_lt r
    · exact pdcOffset_lt _ r
  | hdx =>
    obtain ⟨r, rfl, -⟩ := writeAt_hdx_cases h
    exact pdcOffset_lt _ r

/-- The packed form of an operation that decodes to a well-formed instruction can be read back. -/
theorem unpack_pack_of_decode {c : Params} {r : Request} {i : Instr} (h : decode c r = .ok i)
    (hi : i.wellFormed c = true) : unpack (pack r) = some r := by
  rcases decode_ok_cases h with ⟨t, off, rfl, hr⟩ | ⟨t, off, v, rfl, hw⟩ | ⟨bytes, rfl, rfl⟩ | ⟨t, rfl, rfl⟩
  · exact unpack_pack_read (readAt_offset_lt hr)
  · exact unpack_pack_write (writeAt_offset_lt hw)
  · obtain ⟨b, rfl⟩ := List.length_eq_one_iff.1 (eq_of_beq hi)
    exact unpack_pack_deliver b
  · exact unpack_pack_reset t

/-- What an operation with one of R61's forms decodes to is well-formed. -/
theorem wellFormed_of_decode_unpack {c : Params} {x : OpCode} {r : Request} {i : Instr}
    (hx : unpack x = some r) (h : decode c r = .ok i) : i.wellFormed c = true := by
  rcases decode_ok_cases h with ⟨t, off, -, hr⟩ | ⟨t, off, v, -, hw⟩ | ⟨bytes, rfl, rfl⟩ | ⟨t, -, rfl⟩
  · exact readAt_wellFormed hr
  · exact writeAt_wellFormed hw
  · exact beq_iff_eq.2 (unpack_deliver_length hx)
  · rfl

/-! ### Encoding and decoding -/

/-- Settles O2: the packed form reads back as the operation, and the operation decodes to the instruction. -/
theorem decodeEncodeAgree : Obligations.DecodeEncodeAgree := by
  unfold Obligations.DecodeEncodeAgree
  intro c i hc hi
  have hd := decode_requestOf hc hi
  exact decodeOpCode_eq_some_iff.2 ⟨requestOf c i, unpack_pack_of_decode hd hi, hd⟩

/-- Settles O3: the instruction stands for the operation that was read, and packing that gives the form back. -/
theorem decodedOperationsEncodeBack : Obligations.DecodedOperationsEncodeBack := by
  unfold Obligations.DecodedOperationsEncodeBack
  intro c x i h
  obtain ⟨r, hx, hd⟩ := decodeOpCode_eq_some_iff.1 h
  refine ⟨wellFormed_of_decode_unpack hx hd, ?_⟩
  rw [encode, requestOf_decode hd]
  exact pack_of_unpack hx

/-- Settles O1: the words and the default positions are literals, so the decoder evaluates on them. -/
theorem sampleOperationWordsDecode : Obligations.SampleOperationWordsDecode := by
  unfold Obligations.SampleOperationWordsDecode
  decide

end Sys2Proof
end

section
/-! SUPPORT. The control register of the UART (`40_uart_control.md` R90 to R97): what each command writes, and what
a write of several commands leaves of it. -/

namespace Sys2Proof.Machine

/-! ### One command -/

/-- What a CR command writes to the receiver's enable, if it writes it (R91, R93, R94). -/
def crRxWrite : CrCommand → Option Bool
  | .rstrx | .rxdis => some false
  | .rxen => some true
  | .rsttx | .txen | .txdis | .rststa => none

/-- What a CR command writes to the transmitter's enable, if it writes it (R92, R95, R96). -/
def crTxWrite : CrCommand → Option Bool
  | .rsttx | .txdis => some false
  | .txen => some true
  | .rstrx | .rxen | .rxdis | .rststa => none

/-- The status flags a CR command writes, each with its value (R91 to R97). -/
def crFlagWrites : CrCommand → StatusFlag → Option Bool
  | .rstrx => fun f => if f = .rxbuff then some false else none
  | .rsttx => fun f => if f = .txempty then some true else none
  | .txen => fun f => if f = .txrdy then some true else none
  | .rststa => fun f => if f = .pare ∨ f = .frame ∨ f = .ovre then some false else none
  | .rxen | .rxdis | .txdis => fun _ => none

theorem rxEnabled_doCr (k : CrCommand) (s : State) :
    (doCr k s).uart.rxEnabled = (crRxWrite k).getD s.uart.rxEnabled := by
  cases k <;> rfl

theorem txEnabled_doCr (k : CrCommand) (s : State) :
    (doCr k s).uart.txEnabled = (crTxWrite k).getD s.uart.txEnabled := by
  cases k <;> rfl

theorem flag_doCr_eq_getD {s : State} (hw : s.cfg.wellFormed = true) (k : CrCommand) (f : StatusFlag) :
    (doCr k s).flag f = (crFlagWrites k f).getD (s.flag f) := by
  rw [flag_doCr hw]
  cases k
  case rxen | rxdis | txdis => rfl
  case rstrx | rsttx | txen => simp only [crFlagWrites]; split <;> rfl
  case rststa => cases f <;> rfl

/-- A CR command gives the flags it writes their values and keeps every other bit. -/
theorem statusBecomes_doCr {s : State} (hw : s.cfg.wellFormed = true) (k : CrCommand) :
    StatusBecomes s (doCr k s) (crFlagWrites k) :=
  ⟨flag_doCr_eq_getD hw k, fun p hp => doCr_status_kept k s p fun f _ => hp f⟩

/-! ### The interrupt line -/

/-- The line is high while a flag is the one enabled bit that is set. -/
theorem irqLevel_of_only_flag {s : State} {f : StatusFlag}
    (h : s.uart.status &&& s.uart.interruptMask = bitMask (statusPos s.cfg.statusBits f)) :
    irqLevel s = true := by
  have hb : testBit (s.uart.status &&& s.uart.interruptMask) (statusPos s.cfg.statusBits f) = true := by
    simp [h, testBit_bitMask]
  rw [testBit_and, Bool.and_eq_true] at hb
  exact irqLevel_of_flag hb.1 hb.2

/-- The line falls when the one enabled bit that was set is cleared, no bit is set and the mask is kept. -/
theorem irqLevel_eq_false_of_only_flag_cleared {s t : State} {p : BitPos}
    (h : s.uart.status &&& s.uart.interruptMask = bitMask p)
    (hm : t.uart.interruptMask = s.uart.interruptMask)
    (hs : ∀ q, testBit t.uart.status q = true → q ≠ p ∧ testBit s.uart.status q = true) :
    irqLevel t = false := by
  rw [← Bool.not_eq_true, irqLevel, latch_iff, hm]
  rintro ⟨q, hq, hqm⟩
  obtain ⟨hne, hqs⟩ := hs q hq
  have hb : testBit (bitMask p) q = true := by rw [← h, testBit_and, hqs, hqm]; rfl
  rw [testBit_bitMask, decide_eq_true_iff] at hb
  exact hne hb.symm

/-- A TXEN with TXRDY enabled holds the line high. -/
theorem irqLevel_doCr_txen {s : State} (hw : s.cfg.wellFormed = true)
    (hm : testBit s.uart.interruptMask s.cfg.statusBits.txrdy = true) : irqLevel (doCr .txen s) = true :=
  irqLevel_of_flag (f := .txrdy) (flag_doCr hw .txen .txrdy) hm

/-- A RSTSTA makes the line low if OVRE was the one enabled bit that was set. -/
theorem irqLevel_doCr_rststa {s : State}
    (h : s.uart.status &&& s.uart.interruptMask = bitMask s.cfg.statusBits.ovre) :
    irqLevel (doCr .rststa s) = false := by
  refine irqLevel_eq_false_of_only_flag_cleared h rfl fun q hq => ?_
  rw [testBit_doCr_status] at hq
  dsimp only at hq
  split at hq
  · cases hq
  · next hn => exact ⟨fun e => hn (.inl e), hq⟩

/-- Settles O24: each row runs its one command, which writes the enables and flags of its rule. -/
theorem crCommandEffects : Obligations.CrCommandEffects := by
  unfold Obligations.CrCommandEffects
  intro s v hl hw
  have hst := statusBecomes_doCr hw
  refine ⟨⟨_, exec_live hl _, rfl, hst .rstrx⟩, ⟨_, exec_live hl _, rfl, hst .rsttx⟩, exec_live hl _,
    exec_live hl _, ⟨_, exec_live hl _, rfl, hst .txen, irqLevel_doCr_txen hw⟩, exec_live hl _,
    ⟨_, exec_live hl _, rfl, hst .rststa, fun h => ?_⟩⟩
  exact ⟨irqLevel_of_only_flag (f := .ovre) h, irqLevel_doCr_rststa h⟩

/-! ### A write of any value -/

/-- If each command takes `P` to `w` of it, a CR write takes `P` through the commands of its value in the fixed
order (R90). -/
theorem doCrWrite_eq_foldl {γ : Type} {P : State → γ} {w : CrCommand → γ → γ} {s : State}
    (h : ∀ k u, u.cfg = s.cfg → P (doCr k u) = w k (P u)) (v : Word) :
    P (doCrWrite v s) =
      crOrder.foldl (fun x k => if testBit v (crPos s.cfg.crBits k) = true then w k x else x) (P s) := by
  have key : ∀ (l : List CrCommand) (u : State), u.cfg = s.cfg →
      P (l.foldl (fun t k => if testBit v (crPos s.cfg.crBits k) = true then doCr k t else t) u) =
        l.foldl (fun x k => if testBit v (crPos s.cfg.crBits k) = true then w k x else x) (P u) := by
    intro l
    induction l with
    | nil => exact fun _ _ => rfl
    | cons k l ih =>
      intro u hu
      rw [List.foldl_cons, List.foldl_cons]
      split
      · rw [ih _ ((doCr_cfg k u).trans hu), h k u hu]
      · exact ih u hu
  rw [doCrWrite_eq]
  exact key crOrder s rfl

/-- A disable wins over an enable, an enable over a reset (R90). -/
theorem rxEnabled_doCrWrite (v : Word) (s : State) :
    (doCrWrite v s).uart.rxEnabled =
      if testBit v (crPos s.cfg.crBits .rxdis) then false
      else if testBit v (crPos s.cfg.crBits .rxen) then true
      else if testBit v (crPos s.cfg.crBits .rstrx) then false
      else s.uart.rxEnabled := by
  rw [doCrWrite_eq_foldl (P := (·.uart.rxEnabled)) fun k u _ => rxEnabled_doCr k u]
  simp only [crOrder, List.foldl, crRxWrite, Option.getD, ite_self]

theorem txEnabled_doCrWrite (v : Word) (s : State) :
    (doCrWrite v s).uart.txEnabled =
      if testBit v (crPos s.cfg.crBits .txdis) then false
      else if testBit v (crPos s.cfg.crBits .txen) then true
      else if testBit v (crPos s.cfg.crBits .rsttx) then false
      else s.uart.txEnabled := by
  rw [doCrWrite_eq_foldl (P := (·.uart.txEnabled)) fun k u _ => txEnabled_doCr k u]
  simp only [crOrder, List.foldl, crTxWrite, Option.getD, ite_self]

/-- The flags a CR write of `v` writes, each with its value (R90). -/
def crWriteFlags (c : Params) (v : Word) : StatusFlag → Option Bool
  | .rxbuff => if testBit v (crPos c.crBits .rstrx) then some false else none
  | .txempty => if testBit v (crPos c.crBits .rsttx) then some true else none
  | .txrdy => if testBit v (crPos c.crBits .txen) then some true else none
  | .pare | .frame | .ovre => if testBit v (crPos c.crBits .rststa) then some false else none
  | _ => none

/-- No flag is written by two commands, so each follows its own command's bit (R90). -/
theorem flag_doCrWrite {s : State} (hw : s.cfg.wellFormed = true) (v : Word) (f : StatusFlag) :
    (doCrWrite v s).flag f = (crWriteFlags s.cfg v f).getD (s.flag f) := by
  rw [doCrWrite_eq_foldl (P := (·.flag f)) fun k u hu => flag_doCr_eq_getD (hu ▸ hw) k f]
  cases f
  case rxrdy | endrx | endtx | txbufe | commtx | commrx => simp [crOrder, crFlagWrites, crWriteFlags]
  case txrdy | ovre | frame | pare | txempty | rxbuff =>
    simp only [crOrder, List.foldl, crFlagWrites, crWriteFlags, reduceCtorEq, or_false, or_true, if_true,
      if_false, Option.getD_none, ite_self]
    split <;> rfl

/-- A CR write gives the flags of its commands their values and keeps every other bit. -/
theorem statusBecomes_doCrWrite {s : State} (hw : s.cfg.wellFormed = true) (v : Word) :
    StatusBecomes s (doCrWrite v s) (crWriteFlags s.cfg v) :=
  ⟨flag_doCrWrite hw v, fun p hp => doCrFold_status_kept (crCommandsIn s.cfg v) s p fun f _ => hp f⟩

/-- A CR write changes the two enables and the status, and nothing else (R101). -/
theorem doCrWrite_frame (v : Word) (s : State) :
    doCrWrite v s =
      { s with
        uart :=
          { s.uart with
            rxEnabled := (doCrWrite v s).uart.rxEnabled
            txEnabled := (doCrWrite v s).uart.txEnabled
            status := (doCrWrite v s).uart.status } } := by
  obtain ⟨r, t, w, h⟩ : ∃ r t w, doCrWrite v s = _ := doCrFold_shape (crCommandsIn s.cfg v) s
  rw [h]

/-- Whichever row a CR write decodes to, it runs as the row of the whole write (R79 (c)). -/
theorem exec_crForm (v : Word) (s : State) : exec (crForm s.cfg v) s = exec (.wCr v) s := by
  rw [exec_eq_operate, exec_eq_operate, operate, operate, effect_crForm]
  rfl

/-- CR is a write-only register at offset 0 (R62, R64). -/
theorem writeOnlyAt_cr {s : State} (hl : s.Live) : WriteOnlyAt s .uart 0x00 .wCr :=
  writeOnlyAt_of hl (writeAt_uart s.cfg .cr) (readAt_uart s.cfg .cr) fun v => exec_crForm v s

/-- Settles O25: the enables and the flags are what the commands of the value leave in the fixed order. -/
theorem crWriteNetEffect : Obligations.CrWriteNetEffect := by
  unfold Obligations.CrWriteNetEffect
  intro s v hl hw
  refine ⟨writeOnlyAt_cr hl, doCrWrite v s, exec_live hl _, ?_, statusBecomes_doCrWrite hw v⟩
  have h := doCrWrite_frame v s
  rwa [rxEnabled_doCrWrite, txEnabled_doCrWrite] at h

end Sys2Proof.Machine
end

section
/-! SUPPORT. The transmit stream (`41_uart_data.md` R114, R115): what a THR write emits, and that over a run nothing
else adds a byte. -/

namespace Sys2Proof.Machine

/-! ### One THR write -/

/-- With the transmitter's gate open, a THR write emits its low byte (R114). -/
theorem effect_wThr {s : State} (h : s.cfg.txGate = false ∨ s.uart.txEnabled = true) (v : Word) :
    effect (.wThr v) s = emitByte (trunc8 v) s :=
  if_neg (by rcases h with h | h <;> simp [h])

/-- THR is a write-only register at offset 0x1C (R62, R64). -/
theorem writeOnlyAt_thr {s : State} (hl : s.Live) : WriteOnlyAt s .uart 0x1C .wThr :=
  writeOnlyAt_of hl (writeAt_uart s.cfg .thr) (readAt_uart s.cfg .thr) fun _ => rfl

/-- Settles O18: the gate is open, so the byte goes out and nothing else happens. -/
theorem thrWriteEmitsTheLowByte : Obligations.ThrWriteEmitsTheLowByte := by
  unfold Obligations.ThrWriteEmitsTheLowByte
  intro s hl
  refine ⟨writeOnlyAt_thr hl, fun hg v => ?_⟩
  rw [exec_live hl, effect_wThr hg]
  rfl

/-! ### What a step does to the parameters and the issued operations -/

theorem step_cfg {s t : State} (h : step s = .next t) : t.cfg = s.cfg := by
  obtain ⟨-, ⟨-, rfl⟩ | ⟨r, rest, i, -, -, he⟩ | ⟨r, rest, v, -, -, rfl⟩ | ⟨e, rest, -, -, -, rfl⟩⟩ :=
    step_next_cases h
  · rfl
  · exact exec_cfg (s := { s with pending := rest }) he
  · exact raiseViolation_cfg ..
  · exact engineEffect_cfg ..

theorem engineEffect_pending (e : EngineStep) (s : State) : (engineEffect e s).pending = s.pending := by
  cases e with
  | rx d g c => obtain ⟨w, h⟩ := engineEffect_rx d g c s; rw [h]
  | tx d g b => obtain ⟨w, h⟩ := engineEffect_tx d g b s; rw [h]

/-- A step takes the first issued operation, if there is one (R50). -/
theorem step_pending {s t : State} (h : step s = .next t) : t.pending = s.pending.drop 1 := by
  obtain ⟨-, ⟨hp, rfl⟩ | ⟨r, rest, i, hp, -, he⟩ | ⟨r, rest, v, hp, -, rfl⟩ | ⟨e, rest, hp, -, -, rfl⟩⟩ :=
    step_next_cases h <;> rw [hp]
  · rfl
  · exact exec_pending he
  · exact raiseViolation_pending ..
  · exact engineEffect_pending ..

/-! ### What a step adds to the transmit stream -/

theorem txStream_append (g h : List Event) : txStream (g ++ h) = txStream g ++ txStream h :=
  List.filterMap_append

theorem thrByte_uartWrite_thr (v : Word) : thrByte (.op (uartWrite .thr v)) = some (trunc8 v) := rfl

/-- Only a legal write of THR sends a byte. -/
theorem thrByte_op_cases (r : Request) : (∃ v, r = uartWrite .thr v) ∨ thrByte (.op r) = none := by
  cases r with
  | read | deliver | reset => exact .inr rfl
  | write t size off v =>
    cases t with
    | hdx => exact .inr rfl
    | uart =>
      by_cases h : size = accessSize ∧ off = uartOffset .thr
      · obtain ⟨rfl, rfl⟩ := h
        exact .inl ⟨v, rfl⟩
      · exact .inr (if_neg h)

/-- An operation that decodes to another instruction sends no byte. -/
theorem thrByte_eq_none_of_decode {c : Params} {r : Request} {i : Instr} (hd : decode c r = .ok i)
    (hi : ∀ v, i ≠ .wThr v) : thrByte (.op r) = none := by
  rcases thrByte_op_cases r with ⟨v, rfl⟩ | h
  · rw [decode_uartWrite c (r := .thr) rfl] at hd
    cases hd
    exact absurd rfl (hi v)
  · exact h

/-- A rejected operation sends no byte: every word write of THR decodes. -/
theorem thrByte_eq_none_of_rejected {c : Params} {r : Request} {v : Violation} (hd : decode c r = .error v) :
    thrByte (.op r) = none := by
  rcases thrByte_op_cases r with ⟨w, rfl⟩ | h
  · rw [decode_uartWrite c (r := .thr) rfl] at hd
    cases hd
  · exact h

/-- No other instruction emits a byte (R115). -/
theorem txStream_effect_of_ne_wThr {i : Instr} (hi : ∀ v, i ≠ .wThr v) (s : State) :
    txStream (effect i s).history = txStream s.history := by
  obtain ⟨es, hh, hes⟩ := effect_history i s
  have hnil : txStream es = [] := by
    rcases hes with rfl | ⟨_, _, rfl⟩ | ⟨v, rfl, -⟩ | ⟨_, _, rfl⟩ | ⟨_, rfl⟩ | ⟨_, _, rfl⟩
    case inr.inr.inl => exact absurd rfl (hi v)
    all_goals rfl
  rw [hh, txStream_append, hnil, List.append_nil]

/-- A decoded operation adds the byte it sends. -/
theorem txStream_effect_of_decode {s : State} {r : Request} {i : Instr} (hg : s.cfg.txGate = false)
    (hd : decode s.cfg r = .ok i) :
    txStream (effect i s).history = txStream s.history ++ (thrByte (.op r)).toList := by
  by_cases hi : ∃ v, i = .wThr v
  · obtain ⟨v, rfl⟩ := hi
    obtain rfl : uartWrite .thr v = r := requestOf_decode hd
    rw [effect_wThr (.inl hg), emitByte_history, txStream_append]
    rfl
  · have hne : ∀ v, i ≠ .wThr v := fun v h => hi ⟨v, h⟩
    rw [txStream_effect_of_ne_wThr hne, thrByte_eq_none_of_decode hd hne, Option.toList_none, List.append_nil]

/-- A step adds the byte of the input it takes, if that is a THR write. -/
theorem step_txStream {s t : State} (hg : s.cfg.txGate = false) (hn : s.cfg.xferEngine = .null)
    (h : step s = .next t) :
    txStream t.history = txStream s.history ++ (s.pending.take 1).filterMap thrByte := by
  obtain ⟨-, ⟨hp, rfl⟩ | ⟨r, rest, i, hp, hd, he⟩ | ⟨r, rest, v, hp, hd, rfl⟩ | ⟨e, rest, -, hx, -⟩⟩ :=
    step_next_cases h
  · simp [hp]
  · obtain ⟨-, rfl⟩ := exec_next_iff.1 he
    rw [txStream_effect_of_decode (s := { s with pending := rest }) hg hd, hp]
    cases hb : thrByte (.op r) <;> simp [hb]
  · rw [raiseViolation_history, txStream_append, hp]
    simp [thrByte_eq_none_of_rejected hd, txStream]
  · exact absurd hn hx

/-- Settles O23, by induction on the length of the run: each step adds the byte of the input it takes. -/
theorem transmitStreamIsTheThrWrites : Obligations.TransmitStreamIsTheThrWrites := by
  unfold Obligations.TransmitStreamIsTheThrWrites
  intro k
  induction k with
  | zero =>
    rintro s t - - h
    cases (run_zero s).symm.trans h
    simp
  | succ k ih =>
    intro s t hg hn h
    obtain ⟨u, hs, hr⟩ := run_succ_inv h
    have hc := step_cfg hs
    have hrest := ih u t (by rw [hc, hg]) (by rw [hc, hn]) hr
    calc txStream t.history
        = txStream s.history ++ (s.pending.take 1).filterMap thrByte ++
            ((s.pending.drop 1).take k).filterMap thrByte := by
          rw [hrest, step_txStream hg hn hs, step_pending hs]
      _ = txStream s.history ++ (s.pending.take (k + 1)).filterMap thrByte := by
          rw [List.append_assoc, ← List.filterMap_append, ← List.take_add, Nat.add_comm]

end Sys2Proof.Machine
end

section
/-! SUPPORT. The holding register (`41_uart_data.md` R112, R117, R119): what a delivered byte and a read of RHR do to
it, to the status and to the interrupt line. -/

namespace Sys2Proof.Machine

/-! ### Writing one flag -/

/-- Writing one flag gives it the value and keeps every other bit. -/
theorem statusBecomes_writeFlag {s : State} (hw : s.cfg.wellFormed = true) (f : StatusFlag) (b : Bool) :
    StatusBecomes s (s.writeFlag f b) (fun g => if g = f then some b else none) := by
  refine ⟨fun g => ?_, fun _ hp => testBit_writeFlag_unnamed s f b hp⟩
  rw [flag_writeFlag hw]
  by_cases h : g = f
  · simp [h]
  · simp [h, Ne.symm h]

theorem flag_writeFlag_self {s : State} (f : StatusFlag) (b : Bool) : (s.writeFlag f b).flag f = b :=
  testBit_writeBit_self ..

/-- Writing a flag the value it has changes nothing. -/
theorem writeFlag_of_flag {s : State} {f : StatusFlag} {b : Bool} (h : s.flag f = b) : s.writeFlag f b = s := by
  have hst : writeBit s.uart.status (statusPos s.cfg.statusBits f) b = s.uart.status := by
    refine word_ext fun p => ?_
    rw [testBit_writeBit]
    split
    · next hp => rw [← h, ← hp]; rfl
    · rfl
  rw [State.writeFlag, hst]

/-! ### A delivered byte -/

/-- A byte that finds RXRDY clear is stored and sets RXRDY (R117). -/
theorem arrive_of_not_ready {s : State} (hg : s.cfg.rxGate = false ∨ s.uart.rxEnabled = true)
    (hr : s.flag .rxrdy = false) (b : Byte) :
    arrive b s = { s with uart := { s.uart with rxHolding := b } }.writeFlag .rxrdy true := by
  rw [arrive, if_neg (by rcases hg with h | h <;> simp [h]), if_neg (by simp [hr])]

/-- A byte that finds RXRDY set is dropped and sets OVRE (R119). -/
theorem arrive_of_ready {s : State} (hg : s.cfg.rxGate = false ∨ s.uart.rxEnabled = true)
    (hr : s.flag .rxrdy = true) (b : Byte) : arrive b s = s.writeFlag .ovre true := by
  rw [arrive, if_neg (by rcases hg with h | h <;> simp [h]), if_pos hr]

/-- Settles O19: the byte is stored, and one flag is written. -/
theorem byteIsAcceptedWhenNotReady : Obligations.ByteIsAcceptedWhenNotReady := by
  unfold Obligations.ByteIsAcceptedWhenNotReady
  intro s b hl hw hg hr
  have he : exec (.rxDeliver [b]) s = .next (arrive b s) := exec_live hl _
  rw [arrive_of_not_ready hg hr] at he
  refine ⟨_, he, rfl, statusBecomes_writeFlag (s := { s with uart := { s.uart with rxHolding := b } }) hw _ _,
    fun hm => ?_⟩
  exact irqLevel_of_flag (flag_writeFlag_self .rxrdy true) hm

/-- Settles O20: one flag is written; a second overrun writes it the value it has, and the holding byte is kept for
the next read. -/
theorem overrunKeepsTheWaitingByte : Obligations.OverrunKeepsTheWaitingByte := by
  unfold Obligations.OverrunKeepsTheWaitingByte
  intro s b hl hw hg hr
  have he : exec (.rxDeliver [b]) s = .next (arrive b s) := exec_live hl _
  rw [arrive_of_ready hg hr] at he
  have hlive : (s.writeFlag .ovre true).Live := hl
  have hready : (s.writeFlag .ovre true).flag .rxrdy = true := by simp [flag_writeFlag hw, hr]
  have hovre : (s.writeFlag .ovre true).flag .ovre = true := flag_writeFlag_self ..
  refine ⟨_, he, rfl, statusBecomes_writeFlag hw _ _, fun hm => irqLevel_of_flag hovre hm, fun c => ?_,
    _, exec_live hlive _, rfl⟩
  have hc : exec (.rxDeliver [c]) (s.writeFlag .ovre true) = .next (arrive c (s.writeFlag .ovre true)) :=
    exec_live hlive _
  rwa [arrive_of_ready (s := s.writeFlag .ovre true) hg hready, writeFlag_of_flag hovre] at hc

/-! ### A read of RHR -/

/-- RHR is a read-only register at offset 0x18 (R62, R64). -/
theorem readOnlyAt_rhr {s : State} (hl : s.Live) : ReadOnlyAt s .uart 0x18 .rRhr :=
  readOnlyAt_of hl (readAt_uart s.cfg .rhr) (writeAt_uart s.cfg .rhr)

/-- The line falls when a flag that was the one enabled bit that is set is cleared. -/
theorem irqLevel_writeFlag_of_only_flag {s : State} {f : StatusFlag}
    (h : s.uart.status &&& s.uart.interruptMask = bitMask (statusPos s.cfg.statusBits f)) :
    irqLevel (s.writeFlag f false) = false := by
  refine irqLevel_eq_false_of_only_flag_cleared h rfl fun q hq => ?_
  rw [writeFlag_status, testBit_writeBit] at hq
  split at hq
  · cases hq
  · next hne => exact ⟨Ne.symm hne, hq⟩

/-- An instruction that stands for a CR write applies CR commands and nothing else. -/
theorem effect_eq_doCrFold_of_requestOf {s : State} {i : Instr} {v : Word}
    (h : requestOf s.cfg i = uartWrite .cr v) :
    ∃ l : List CrCommand, effect i s = l.foldl (fun s k => doCr k s) s := by
  cases i
  case wCr w | crRstrx w | crRsttx w | crRxen w | crRxdis w | crTxen w | crTxdis w | crRststa w =>
    exact Exists.imp (fun _ => And.left) (effect_cr (v := w) (by simp) s)
  all_goals simp [requestOf, uartRead, uartWrite, pdcRead, pdcWrite, uartOffset, pdcOffset] at h

/-- CR commands keep RXRDY (R91 to R97). -/
theorem flag_rxrdy_doCrFold {s : State} (hw : s.cfg.wellFormed = true) (l : List CrCommand) :
    (l.foldl (fun s k => doCr k s) s).flag .rxrdy = s.flag .rxrdy := by
  refine (foldl_keeps (P := fun x => x.cfg = s.cfg ∧ x.flag .rxrdy = s.flag .rxrdy) l s ⟨rfl, rfl⟩ ?_).2
  rintro x k ⟨hc, hx⟩
  refine ⟨(doCr_cfg k x).trans hc, ?_⟩
  rw [flag_doCr (hc ▸ hw)]
  cases k <;> simpa using hx

/-- RESET of the UART leaves RXRDY clear (R260). -/
theorem flag_rxrdy_resetUart {s : State} (hw : s.cfg.wellFormed = true) :
    (resetUart s).flag .rxrdy = false := by
  have hne : statusPos s.cfg.statusBits .txempty ≠ statusPos s.cfg.statusBits .rxrdy := by
    simp [statusPos_inj hw]
  exact (testBit_bitMask ..).trans (decide_eq_false hne)

/-- Only a delivery can set RXRDY (R31, R112): every other writer of the status keeps it or clears it. -/
theorem flag_rxrdy_effect_of_clear {s : State} (hw : s.cfg.wellFormed = true) {i : Instr}
    (hi : ∀ bs, i ≠ .rxDeliver bs) (h : s.flag .rxrdy = false) : (effect i s).flag .rxrdy = false := by
  rcases effect_status_kept_or_writer i s with hk | ⟨v, hv⟩ | rfl | ⟨b, rfl⟩ | rfl
  · rwa [State.flag, hk, effect_cfg]
  · obtain ⟨l, hl⟩ := effect_eq_doCrFold_of_requestOf (hv s.cfg)
    rw [hl, flag_rxrdy_doCrFold hw, h]
  · exact flag_rxrdy_rRhr hw
  · exact absurd rfl (hi [b])
  · exact flag_rxrdy_resetUart hw

/-- Settles O17: the read returns the holding byte and writes one flag, and no writer of the status but a delivery
sets that flag again. -/
theorem rhrReadReturnsByteAndClearsRxrdy : Obligations.RhrReadReturnsByteAndClearsRxrdy := by
  unfold Obligations.RhrReadReturnsByteAndClearsRxrdy
  intro s hl hw
  refine ⟨readOnlyAt_rhr hl,
    ⟨_, exec_live hl _, rfl, statusBecomes_writeFlag hw .rxrdy false, fun h => ?_⟩, fun t i hr hi he => ?_⟩
  · exact ⟨irqLevel_of_only_flag (f := .rxrdy) h, irqLevel_writeFlag_of_only_flag (f := .rxrdy) h⟩
  · obtain ⟨-, rfl⟩ := exec_next_iff.1 he
    exact flag_rxrdy_effect_of_clear hw hi hr

end Sys2Proof.Machine
end

section
/-! SUPPORT. The two writes of the interrupt mask (`42_uart_irqmask.md` R130, R132): the mask each leaves, bit by
bit, and the interrupt line after it. -/

namespace Sys2Proof.Machine

/-- The line is low exactly when no bit is set in both words (R232). -/
theorem irqLevel_eq_false_iff (s : State) :
    irqLevel s = false ↔ s.uart.status &&& s.uart.interruptMask = 0 :=
  bne_eq_false_iff_eq

/-! ### The write of IER -/

/-- IER is a write-only register at offset 0x08 (R62, R64). -/
theorem writeOnlyAt_ier {s : State} (hl : s.Live) : WriteOnlyAt s .uart 0x08 .wIer :=
  writeOnlyAt_of hl (writeAt_uart s.cfg .ier) (readAt_uart s.cfg .ier) fun _ => rfl

/-- By default IER takes the bits of the value that are in the domain (R130, R131 (b)). -/
theorem ierOperand_default {c : Params} (h : c.ierComplementDefect = false) (v : Word) :
    ierOperand c v = v &&& c.imrDomain := by
  simp [ierOperand, h]

/-- By default IER keeps each mask bit or sets it, if it is in the value and in the domain (R130). -/
theorem testBit_interruptMask_wIer {s : State} (h : s.cfg.ierComplementDefect = false) (v : Word) (p : BitPos) :
    testBit (effect (.wIer v) s).uart.interruptMask p =
      (testBit s.uart.interruptMask p || (testBit v p && testBit s.cfg.imrDomain p)) := by
  simp only [effect, ierOperand_default h, testBit_or, testBit_and]

/-- Enabling a bit that is set makes the line high (R130): that bit is then in the mask. -/
theorem irqLevel_wIer {s : State} (h : s.cfg.ierComplementDefect = false) {v : Word}
    (hv : s.uart.status &&& v &&& s.cfg.imrDomain ≠ 0) : irqLevel (effect (.wIer v) s) = true := by
  rw [Ne, eq_zero_iff_testBit, not_forall] at hv
  obtain ⟨p, hp⟩ := hv
  simp only [testBit_and, Bool.not_eq_false, Bool.and_eq_true] at hp
  obtain ⟨⟨hstatus, hvalue⟩, hdomain⟩ := hp
  refine (latch_iff _ _).2 ⟨p, hstatus, ?_⟩
  rw [testBit_interruptMask_wIer h, hvalue, hdomain, Bool.true_and, Bool.or_true]

/-! ### The write of IDR -/

/-- IDR is a write-only register at offset 0x0C (R62, R64). -/
theorem writeOnlyAt_idr {s : State} (hl : s.Live) : WriteOnlyAt s .uart 0x0C .wIdr :=
  writeOnlyAt_of hl (writeAt_uart s.cfg .idr) (readAt_uart s.cfg .idr) fun _ => rfl

/-- IDR keeps each mask bit or clears it, if it is in the value (R132). -/
theorem testBit_interruptMask_wIdr (s : State) (v : Word) (p : BitPos) :
    testBit (effect (.wIdr v) s).uart.interruptMask p = (testBit s.uart.interruptMask p && !testBit v p) := by
  simp only [effect, testBit_and, testBit_not]

/-- Disabling every bit that is set and enabled makes the line low (R132). -/
theorem irqLevel_wIdr {s : State} {v : Word} (hv : s.uart.status &&& s.uart.interruptMask &&& ~~~ v = 0) :
    irqLevel (effect (.wIdr v) s) = false :=
  (irqLevel_eq_false_iff _).2 ((BitVec.and_assoc ..).symm.trans hv)

/-- Settles O29: each write changes the mask alone, bit by bit, and the line is the latch of the new mask. -/
theorem maskWritesSetAndClear : Obligations.MaskWritesSetAndClear := by
  unfold Obligations.MaskWritesSetAndClear
  intro s hl
  refine ⟨writeOnlyAt_ier hl, writeOnlyAt_idr hl, fun h v => ?_, fun v => ?_⟩
  · exact ⟨_, exec_live hl _, rfl, testBit_interruptMask_wIer h v, irqLevel_wIer h⟩
  · exact ⟨_, exec_live hl _, rfl, testBit_interruptMask_wIdr s v, irqLevel_wIdr⟩

end Sys2Proof.Machine
end

section
/-! SUPPORT. The two transfer registers of the descriptor units (`44_pdc.md` R173 to R178,
`45_pdc_half_duplex.md` R203): what PTSR shows, and what a PTCR write of several commands leaves of each channel. -/

namespace Sys2Proof.Machine

/-! ### PTSR -/

theorem testBit_ptsrWord_rxten {c : Params} (hw : c.wellFormed = true) (r t : Bool) :
    testBit (ptsrWord c.ptsrBits r t) c.ptsrBits.rxten = r := by
  obtain ⟨-, -, -, hne, -⟩ := (Params.wellFormed_iff c).1 hw
  simp [testBit_ptsrWord, hne.symm]

theorem testBit_ptsrWord_txten {c : Params} (hw : c.wellFormed = true) (r t : Bool) :
    testBit (ptsrWord c.ptsrBits r t) c.ptsrBits.txten = t := by
  obtain ⟨-, -, -, hne, -⟩ := (Params.wellFormed_iff c).1 hw
  simp [testBit_ptsrWord, hne]

theorem testBit_ptsrWord_other (b : PtsrBits) (r t : Bool) {p : BitPos} (hr : p ≠ b.rxten) (ht : p ≠ b.txten) :
    testBit (ptsrWord b r t) p = false := by
  simp [testBit_ptsrWord, hr.symm, ht.symm]

/-- PTSR of the UART is a read-only register at its PDC offset (R64, R70). -/
theorem readOnlyAt_ptsr {s : State} (hl : s.Live) (hw : s.cfg.wellFormed = true) :
    ReadOnlyAt s .uart (pdcOffset s.cfg.pdcOffsets .ptsr) .rPtsr :=
  readOnlyAt_of hl (readAt_pdc hw .ptsr) (writeAt_pdc hw .ptsr)

/-- So is PTSR of the half-duplex unit (R203). -/
theorem readOnlyAt_hdxPtsr {s : State} (hl : s.Live) (hw : s.cfg.wellFormed = true) :
    ReadOnlyAt s .hdx (pdcOffset s.cfg.pdcOffsets .ptsr) .hdxRPtsr :=
  readOnlyAt_of hl (readAt_hdx hw .ptsr) (writeAt_hdx hw .ptsr)

/-- Settles O15: the value read is `ptsrWord` of the unit's two enables, whose two bits are those enables. -/
theorem ptsrShowsTheTwoEnables : Obligations.PtsrShowsTheTwoEnables := by
  unfold Obligations.PtsrShowsTheTwoEnables
  intro s hl hw
  have hrx := testBit_ptsrWord_rxten hw
  have htx := testBit_ptsrWord_txten hw
  refine ⟨readOnlyAt_ptsr hl hw, readOnlyAt_hdxPtsr hl hw, ?_,
    _, exec_live hl _, hrx _ _, htx _ _, fun _ => testBit_ptsrWord_other _ _ _, fun hi => ?_⟩
  · exact ⟨_, exec_live hl _, hrx _ _, htx _ _, fun _ => testBit_ptsrWord_other _ _ _⟩
  · rwa [hrx, htx]

/-! ### PTCR -/

/-- Switching a channel to what it already is changes nothing. -/
theorem setArmed_self (d : Direction) (s : State) : setArmed d (s.channel d).transferEnabled s = s := by
  cases d <;> rfl

/-- Of two switches of one channel the later one counts. -/
theorem setArmed_setArmed (d : Direction) (a b : Bool) (s : State) :
    setArmed d b (setArmed d a s) = setArmed d b s := by
  cases d <;> rfl

/-- The enable of a channel, if asked for, and then its disable, if asked for: the disable takes precedence
(R173). -/
theorem setArmed_enable_then_disable (d : Direction) (on off : Bool) (s : State) :
    (if off then setArmed d false (if on then setArmed d true s else s)
      else if on then setArmed d true s else s) =
      setArmed d (if off then false else if on then true else (s.channel d).transferEnabled) s := by
  cases off <;> cases on
  case false.false => exact (setArmed_self d s).symm
  case false.true | true.false => rfl
  case true.true => exact setArmed_setArmed d true false s

/-- The commands of a PTCR write switch the receive channel, then the transmit channel (R173). -/
theorem ptcrFold_eq_setArmed (v : Word) (s : State) :
    (ptcrCommandsIn s.cfg v).foldl (fun s k => doPtcr k s) s =
      let on := fun k => testBit v (ptcrPos s.cfg.ptcrBits k)
      setArmed .tx
        (if on .txtdis then false else if on .txten then true else s.uart.txChannel.transferEnabled)
        (setArmed .rx
          (if on .rxtdis then false else if on .rxten then true else s.uart.rxChannel.transferEnabled) s) := by
  simp only [ptcrCommandsIn, List.foldl_filter, ptcrOrder, List.foldl_cons, List.foldl_nil, doPtcr,
    setArmed_enable_then_disable]
  rfl

/-- Whichever row a PTCR write decodes to, it runs as the row of the whole write (R79 (c)). -/
theorem exec_ptcrForm (v : Word) (s : State) : exec (ptcrForm s.cfg v) s = exec (.wPtcr v) s := by
  rcases ptcrForm_cases s.cfg v with ⟨k, hk, h⟩ | ⟨-, h⟩
  · have he : effect (.wPtcr v) s = uartAction .stateChanged (doPtcr k s) := by rw [effect, hk]; rfl
    rw [h, exec_eq_operate, exec_eq_operate, operate, operate, he]
    cases k <;> rfl
  · rw [h]

/-- PTCR of the UART is a write-only register at its PDC offset (R64, R70). -/
theorem writeOnlyAt_ptcr {s : State} (hl : s.Live) (hw : s.cfg.wellFormed = true) :
    WriteOnlyAt s .uart (pdcOffset s.cfg.pdcOffsets .ptcr) .wPtcr :=
  writeOnlyAt_of hl (writeAt_pdc hw .ptcr) (readAt_pdc hw .ptcr) fun v => exec_ptcrForm v s

/-- Settles O40: the commands come down to one switch of each channel, and STATE_CHANGED is not logged. -/
theorem ptcrWriteNetEffect : Obligations.PtcrWriteNetEffect := by
  unfold Obligations.PtcrWriteNetEffect
  intro s v hl
  refine ⟨writeOnlyAt_ptcr hl, ?_⟩
  rw [exec_live hl, effect, ptcrFold_eq_setArmed, uartAction_eq]
  rfl

end Sys2Proof.Machine
end

section
/-! SUPPORT. The half-duplex transfer control register (`45_pdc_half_duplex.md` R198 to R202): what a PTCR write of
several commands leaves of the two enables, and that it is fatal exactly for the dual enable. -/

namespace Sys2Proof.Machine

/-! ### The commands of one write -/

theorem dualEnable_iff {c : Params} {v : Word} :
    dualEnable c v = true ↔
      testBit v (ptcrPos c.ptcrBits .rxten) = true ∧ testBit v (ptcrPos c.ptcrBits .txten) = true :=
  Bool.and_eq_true_iff

/-- Any disable overwrites what the enables of the same write did (R198, R202). -/
theorem doHdxPtcr_of_disable {v : Word} {s : State}
    (h : testBit v (ptcrPos s.cfg.ptcrBits .rxtdis) = true ∨ testBit v (ptcrPos s.cfg.ptcrBits .txtdis) = true) :
    doHdxPtcr v s = doHdxDisable s := by
  refine (if_pos (Bool.or_eq_true_iff.2 h)).trans ?_
  split <;> split <;> rfl

/-- Without a disable and without dual enable the write is its one enable, or nothing (R198, R200, R201). -/
theorem doHdxPtcr_of_no_disable {v : Word} {s : State} (hd : dualEnable s.cfg v = false)
    (hr : testBit v (ptcrPos s.cfg.ptcrBits .rxtdis) = false)
    (ht : testBit v (ptcrPos s.cfg.ptcrBits .txtdis) = false) :
    doHdxPtcr v s =
      if testBit v (ptcrPos s.cfg.ptcrBits .rxten) = true then doHdxRxten s
      else if testBit v (ptcrPos s.cfg.ptcrBits .txten) = true then doHdxTxten s else s := by
  have hoff := Bool.eq_false_iff.1 (Bool.or_eq_false_iff.2 ⟨hr, ht⟩)
  by_cases hrx : testBit v (ptcrPos s.cfg.ptcrBits .rxten) = true
  · have htx := not_and.1 (mt dualEnable_iff.2 (Bool.eq_false_iff.1 hd)) hrx
    rw [if_pos hrx]
    exact (if_neg hoff).trans ((if_neg htx).trans (if_pos hrx))
  · rw [if_neg hrx]
    refine (if_neg hoff).trans ?_
    rw [show (if testBit v s.cfg.ptcrBits.rxten = true then doHdxRxten s else s) = s from if_neg hrx]
    rfl

/-! ### The row of the whole write -/

/-- The write with both enables is the violation (R199). -/
theorem effect_hdxWPtcr_of_dualEnable {v : Word} {s : State} (h : dualEnable s.cfg v = true) :
    effect (.hdxWPtcr v) s = dualEnableViolation v s :=
  if_pos h

/-- Every other write applies its commands, with the action STATE_CHANGED (R198). -/
theorem effect_hdxWPtcr_of_not_dualEnable {v : Word} {s : State} (h : dualEnable s.cfg v = false) :
    effect (.hdxWPtcr v) s = putAction .hdx .stateChanged (doHdxPtcr v s) :=
  if_neg (Bool.eq_false_iff.1 h)

/-- Without dual enable the next state of the write is given by the two enables its commands leave. -/
theorem exec_hdxWPtcr_of_enables {v : Word} {s : State} (hl : s.Live) (hd : dualEnable s.cfg v = false)
    {r t : Bool} (h : doHdxPtcr v s = s.setHdxEnables r t) :
    exec (.hdxWPtcr v) s = .next
      { s with
        hdx := { s.hdx with rxEnabled := r, txEnabled := t }
        history := s.history ++ [.action .hdx .stateChanged] } := by
  rw [exec_live hl, effect_hdxWPtcr_of_not_dualEnable hd, h]
  rfl

/-! ### The row a write decodes to -/

/-- A write whose one command is `k` has the bit of `k` set and no other command's. -/
theorem testBit_ptcrPos_of_single {c : Params} {v : Word} {k : PtcrCommand} (h : ptcrCommandsIn c v = [k])
    (l : PtcrCommand) : testBit v (ptcrPos c.ptcrBits l) = decide (l = k) := by
  rw [Bool.eq_iff_iff, ← mem_ptcrCommandsIn, h, List.mem_singleton, decide_eq_true_iff]

/-- The row of one command has the effect of the whole write that has this command alone (R200 to R202). -/
theorem effect_hdxPtcrInstr {v : Word} {s : State} {k : PtcrCommand} (h : ptcrCommandsIn s.cfg v = [k]) :
    effect (hdxPtcrInstr v k) s = putAction .hdx .stateChanged (doHdxPtcr v s) := by
  have hbit := testBit_ptcrPos_of_single h
  have hd := dualEnable_of_single h
  cases k
  case rxten | txten => rw [doHdxPtcr_of_no_disable hd (hbit _) (hbit _), hbit, hbit]; rfl
  case rxtdis => rw [doHdxPtcr_of_disable (.inl (hbit _))]; rfl
  case txtdis => rw [doHdxPtcr_of_disable (.inr (hbit _))]; rfl

/-- Whichever row a half-duplex PTCR write decodes to, it runs as the row of the whole write (R79 (d)). -/
theorem exec_hdxPtcrForm (v : Word) (s : State) : exec (hdxPtcrForm s.cfg v) s = exec (.hdxWPtcr v) s := by
  rw [exec_eq_operate, exec_eq_operate, operate, operate]
  rcases hdxPtcrForm_cases s.cfg v with ⟨hd, h⟩ | ⟨hd, ⟨k, hk, h⟩ | ⟨-, h⟩⟩
  · rw [h, effect_hdxWPtcr_of_dualEnable hd, effect]
  · rw [h, effect_hdxWPtcr_of_not_dualEnable hd, effect_hdxPtcrInstr hk]
  · rw [h]

/-- PTCR of the half-duplex unit is a write-only register at its PDC offset (R64, R70). -/
theorem writeOnlyAt_hdxPtcr {s : State} (hl : s.Live) (hw : s.cfg.wellFormed = true) :
    WriteOnlyAt s .hdx (pdcOffset s.cfg.pdcOffsets .ptcr) .hdxWPtcr :=
  writeOnlyAt_of hl (writeAt_hdx hw .ptcr) (readAt_hdx hw .ptcr) fun v => exec_hdxPtcrForm v s

/-- The two rows that can carry a dual enable both raise its violation (R199). -/
theorem exec_of_dualEnable {v : Word} {s : State} (hl : s.Live) (hd : dualEnable s.cfg v = true) {i : Instr}
    (hi : i ∈ [Instr.hdxWPtcr v, .hdxPtcrDualen v]) : exec i s = .next (dualEnableViolation v s) := by
  rw [exec_live hl]
  obtain rfl | hi := List.mem_cons.1 hi
  · rw [effect_hdxWPtcr_of_dualEnable hd]
  · rw [List.mem_singleton.1 hi, effect]

/-- Settles O46: the dual enable is checked first; without it a disable overwrites the enables, and with no disable
the write is its one enable, or nothing. -/
theorem halfDuplexPtcrTable : Obligations.HalfDuplexPtcrTable := by
  unfold Obligations.HalfDuplexPtcrTable
  intro s v hl on ends
  have hnot (h : ¬ (on .rxten = true ∧ on .txten = true)) : dualEnable s.cfg v = false :=
    Bool.eq_false_iff.2 (mt dualEnable_iff.1 h)
  refine ⟨writeOnlyAt_hdxPtcr hl, fun hr ht i => exec_of_dualEnable hl (dualEnable_iff.2 ⟨hr, ht⟩),
    fun hr ht hrd htd => ?_, fun hr ht hrd htd => ?_,
    fun h hdis => exec_hdxWPtcr_of_enables hl (hnot h) (doHdxPtcr_of_disable hdis), fun hr ht hrd htd => ?_⟩
  · have hd := hnot (by simp [ht])
    exact exec_hdxWPtcr_of_enables hl hd ((doHdxPtcr_of_no_disable hd hrd htd).trans (if_pos hr))
  · have hd := hnot (by simp [hr])
    have h := doHdxPtcr_of_no_disable hd hrd htd
    rw [if_neg (Bool.eq_false_iff.1 hr), if_pos ht] at h
    exact exec_hdxWPtcr_of_enables hl hd h
  · have hd := hnot (by simp [hr])
    have h := doHdxPtcr_of_no_disable hd hrd htd
    rw [if_neg (Bool.eq_false_iff.1 hr), if_neg (Bool.eq_false_iff.1 ht)] at h
    exact exec_hdxWPtcr_of_enables hl hd h

end Sys2Proof.Machine
end

section
/-! SUPPORT. The frame of every instruction (`47_operation_laws.md` R222): the table `Frame` holds of the effect of
each row. What an instruction keeps is read off this table. -/

namespace Sys2Proof.Machine

/-- A CR row changes the two enables and the six flags of R222, and puts out nothing. -/
theorem crRow_frame {i : Instr} {v : Word} (hi : i ∈ [Instr.wCr v, .crRstrx v, .crRsttx v, .crRxen v, .crRxdis v,
    .crTxen v, .crTxdis v, .crRststa v]) {s : State} :
    ∃ es, (effect i s).history = s.history ++ es ∧
      (effect i s).uart = { s.uart with
        status := (effect i s).uart.status
        rxEnabled := (effect i s).uart.rxEnabled
        txEnabled := (effect i s).uart.txEnabled } ∧
      StatusKeptBut s (effect i s) [.rxbuff, .txempty, .txrdy, .pare, .frame, .ovre] ∧
      (effect i s).hdx = s.hdx ∧ es = [] := by
  obtain ⟨l, hl, -⟩ := effect_cr hi s
  obtain ⟨r, x, w, hs⟩ := doCrFold_shape l s
  have hk := doCrFold_status_kept l s
  rw [← hl] at hk hs
  exact ⟨[], by rw [hs, List.append_nil], by rw [hs], hk, by rw [hs], rfl⟩

/-- A list of PTCR commands and its action: the two channel enables, and STATE_CHANGED (R173 to R178). -/
theorem doPtcrFold_frame (l : List PtcrCommand) (s t : State)
    (h : t = uartAction .stateChanged (l.foldl (fun s k => doPtcr k s) s)) :
    t.uart = { s.uart with
        rxChannel := { s.uart.rxChannel with transferEnabled := t.uart.rxChannel.transferEnabled }
        txChannel := { s.uart.txChannel with transferEnabled := t.uart.txChannel.transferEnabled } } ∧
      t.hdx = s.hdx ∧ t.history = s.history ++ [.action .uart .stateChanged] := by
  obtain ⟨r, x, hs⟩ := doPtcrFold_shape l s
  rw [hs] at h
  subst h
  exact ⟨rfl, rfl, rfl⟩

/-- A PDC write of the UART with a classified action changes what its store changes. -/
theorem uartAction_frame {a : Action} {s u : State} {P : UartDevice → Prop} (hu : P u.uart) (hh : u.hdx = s.hdx)
    (hist : u.history = s.history) :
    ∃ es, (uartAction a u).history = s.history ++ es ∧ P (uartAction a u).uart ∧
      (uartAction a u).hdx = s.hdx ∧ ActionOut es := by
  obtain ⟨es, he, ha⟩ := uartAction_out a u
  exact ⟨es, by rw [he, hist], by rwa [uartAction_uart], by rw [uartAction_hdx, hh], ha⟩

/-- A delivery of one byte is its arrival, any other is fatal (R116, R118). -/
theorem effect_rxDeliver_cases (bytes : List Byte) (s : State) :
    (∃ b, bytes = [b] ∧ effect (.rxDeliver bytes) s = arrive b s) ∨
      (bytes.length ≠ 1 ∧
        effect (.rxDeliver bytes) s = raiseViolation .uart (.badDeliverySize bytes.length) s) := by
  match bytes with
  | [b] => exact .inl ⟨b, rfl, rfl⟩
  | [] => exact .inr ⟨by simp, rfl⟩
  | _ :: _ :: _ => exact .inr ⟨by simp, rfl⟩

/-- Whatever it carries, a delivery changes the status, the holding byte and the fault flag of the UART at most. -/
theorem effect_rxDeliver_shape (bytes : List Byte) (s : State) :
    ∃ w d x h, effect (.rxDeliver bytes) s =
      { s with uart := { s.uart with status := w, rxHolding := d, fault := x }, history := h } := by
  rcases effect_rxDeliver_cases bytes s with ⟨b, -, he⟩ | ⟨-, he⟩ <;> rw [he]
  · obtain ⟨w, d, ha⟩ := arrive_shape b s
    exact ⟨w, d, s.uart.fault, s.history, ha⟩
  · exact ⟨s.uart.status, s.uart.rxHolding, true, _, rfl⟩

/-- The table of R222 holds of every instruction's effect. -/
theorem effect_frame (i : Instr) (s : State) :
    ∃ es, (effect i s).history = s.history ++ es ∧ Frame i s (effect i s) es := by
  cases i
  case rMr | rImr | rSr | rBrgr | rCidr | rExid | rFnr | rRpr | rRcr | rTpr | rTcr | rRnpr | rRncr | rTnpr | rTncr
    | rPtsr | hdxRRpr | hdxRTpr | hdxRRcr | hdxRTcr | hdxRRnpr | hdxRTnpr | hdxRRncr | hdxRTncr | hdxRPtsr =>
    exact ⟨_, rfl, rfl, rfl, _, rfl⟩
  case rRhr =>
    refine ⟨_, rfl, rfl, fun p hp => testBit_writeBit_ne _ _ (hp .rxrdy (by simp)), rfl, _, rfl⟩
  case wCr v | crRstrx v | crRsttx v | crRxen v | crRxdis v | crTxen v | crTxdis v | crRststa v =>
    exact crRow_frame (v := v) (by simp)
  case wMr v | wIer v | wIdr v | wBrgr v | wFnr v => exact ⟨[], (List.append_nil _).symm, rfl, rfl, rfl⟩
  case wThr v =>
    simp only [effect]
    split
    · exact ⟨[], (List.append_nil _).symm, rfl, rfl, .inl rfl⟩
    · exact ⟨_, rfl, rfl, rfl, .inr ⟨_, rfl⟩⟩
  case wRpr v | wRnpr v | wTpr v | wTnpr v => exact ⟨_, rfl, rfl, rfl, rfl⟩
  case wRcr v =>
    exact uartAction_frame (P := fun x => x = { s.uart with
      rxChannel := { s.uart.rxChannel with currentCount := x.rxChannel.currentCount } }) rfl rfl rfl
  case wRncr v =>
    exact uartAction_frame (P := fun x => x = { s.uart with
      rxChannel := { s.uart.rxChannel with nextCount := x.rxChannel.nextCount } }) rfl rfl rfl
  case wTcr v =>
    exact uartAction_frame (P := fun x => x = { s.uart with
      txChannel := { s.uart.txChannel with currentCount := x.txChannel.currentCount } }) rfl rfl rfl
  case wTncr v =>
    exact uartAction_frame (P := fun x => x = { s.uart with
      txChannel := { s.uart.txChannel with nextCount := x.txChannel.nextCount } }) rfl rfl rfl
  case wPtcr v =>
    obtain ⟨hu, hh, hist⟩ := doPtcrFold_frame (ptcrCommandsIn s.cfg v) s _ rfl
    exact ⟨_, hist, hu, hh, rfl⟩
  case ptcrRxten v | ptcrRxtdis v | ptcrTxten v | ptcrTxtdis v => exact ⟨_, rfl, rfl, rfl, rfl⟩
  case rxDeliver bytes =>
    match bytes with
    | [b] =>
      obtain ⟨w, d, h⟩ := arrive_shape b s
      have hk := arrive_status_kept b s
      refine ⟨[], ?_, ?_, hk, ?_, rfl⟩ <;> rw [effect, h]
      exact (List.append_nil _).symm
    | [] => exact ⟨_, rfl, rfl, rfl, _, rfl⟩
    | _ :: _ :: _ => exact ⟨_, rfl, rfl, rfl, _, rfl⟩
  case reset u => cases u <;> exact ⟨[], (List.append_nil _).symm, rfl, rfl, rfl⟩
  case hdxWRpr v | hdxWTpr v | hdxWRnpr v | hdxWTnpr v => exact ⟨_, rfl, rfl, rfl, rfl⟩
  case hdxWRcr v | hdxWTcr v | hdxWRncr v | hdxWTncr v => exact ⟨_, rfl, rfl, rfl, _, rfl⟩
  case hdxPtcrDualen v | hdxPtcrRxten v | hdxPtcrTxten v | hdxPtcrRxtdis v | hdxPtcrTxtdis v =>
    exact ⟨_, rfl, rfl, rfl, rfl⟩
  case hdxWPtcr v =>
    cases hd : dualEnable s.cfg v
    · obtain ⟨r, x, h⟩ := doHdxPtcr_shape v s
      rw [effect_hdxWPtcr_of_not_dualEnable hd, h]
      exact ⟨_, rfl, rfl, .inr ⟨rfl, rfl⟩⟩
    · rw [effect_hdxWPtcr_of_dualEnable hd]
      exact ⟨_, rfl, rfl, .inl ⟨rfl, rfl⟩⟩

/-- An instruction keeps the session's liveness, or it is one of the two violations an instruction can raise: a
delivery of other than one byte, a dual enable (R228). -/
theorem effect_session_kept_or_violation (i : Instr) (s : State) :
    (effect i s).sessionOver = s.sessionOver ∨
      (∃ bytes, i = .rxDeliver bytes ∧ bytes.length ≠ 1 ∧
        effect i s = raiseViolation .uart (.badDeliverySize bytes.length) s) ∨
      ∃ v, (i = .hdxPtcrDualen v ∨ (i = .hdxWPtcr v ∧ dualEnable s.cfg v = true)) ∧
        effect i s = raiseViolation .hdx (.halfDuplexDualEnable v) s := by
  obtain ⟨es, -, hF⟩ := effect_frame i s
  cases i
  case rxDeliver bytes =>
    rcases effect_rxDeliver_cases bytes s with ⟨b, -, h⟩ | ⟨hb, h⟩
    · obtain ⟨w, d, ha⟩ := arrive_shape b s
      exact .inl (by rw [h, ha]; rfl)
    · exact .inr (.inl ⟨bytes, rfl, hb, h⟩)
  case hdxPtcrDualen v => exact .inr (.inr ⟨v, .inl rfl, rfl⟩)
  case hdxWPtcr v =>
    cases hd : dualEnable s.cfg v
    · obtain ⟨r, x, h⟩ := doHdxPtcr_shape v s
      exact .inl (by rw [effect_hdxWPtcr_of_not_dualEnable hd, h]; rfl)
    · exact .inr (.inr ⟨v, .inr ⟨rfl, hd⟩, effect_hdxWPtcr_of_dualEnable hd⟩)
  case reset t => cases t <;> exact .inl rfl
  case rRhr => exact .inl rfl
  case wCr v | crRstrx v | crRsttx v | crRxen v | crRxdis v | crTxen v | crTxdis v | crRststa v =>
    obtain ⟨hu, -, hh, -⟩ := hF
    exact .inl (by rw [State.sessionOver, hu, hh]; rfl)
  all_goals exact .inl (by rw [State.sessionOver, hF.1, hF.2.1]; rfl)

/-- Settles O60: the parameters and the issued operations are no instruction's to change, and the table holds of
every effect. -/
theorem everyInstructionStaysInItsFrame : Obligations.EveryInstructionStaysInItsFrame := by
  unfold Obligations.EveryInstructionStaysInItsFrame
  intro s t i h
  obtain ⟨-, rfl⟩ := exec_next_iff.1 h
  exact ⟨effect_cfg i s, effect_pending i s, effect_frame i s⟩

end Sys2Proof.Machine
end

section
/-! SUPPORT. The machine invariant (`10_state.md` R14, R15, R32 to R35, `45_pdc_half_duplex.md` R205): which status
bits an instruction or an engine step can set or clear, which instructions write the mask, and what becomes of the
half-duplex enables. -/

namespace Sys2Proof.Machine

/-! ### Status bits that can be set -/

theorem testBit_reachableStatus (b : StatusBits) (p : BitPos) :
    testBit (reachableStatus b) p = true ↔ p = b.rxrdy ∨ p = b.txrdy ∨ p = b.ovre ∨ p = b.txempty := by
  simp [reachableStatus, testBit_maskOf]

/-- The four bits of R32 are named ones. -/
theorem reachableStatus_named {b : StatusBits} {p : BitPos} (h : testBit (reachableStatus b) p = true) :
    ∃ f, statusPos b f = p := by
  rcases (testBit_reachableStatus b p).1 h with rfl | rfl | rfl | rfl
  · exact ⟨.rxrdy, rfl⟩
  · exact ⟨.txrdy, rfl⟩
  · exact ⟨.ovre, rfl⟩
  · exact ⟨.txempty, rfl⟩

/-- Between `s` and `t` no status bit becomes 1 but those of R32. -/
def SetsOnlyReachable (s t : State) : Prop :=
  ∀ p, testBit t.uart.status p = true →
    testBit s.uart.status p = true ∨ testBit (reachableStatus s.cfg.statusBits) p = true

theorem SetsOnlyReachable.trans {s t u : State} (hc : t.cfg = s.cfg) (h : SetsOnlyReachable s t)
    (h' : SetsOnlyReachable t u) : SetsOnlyReachable s u := by
  intro p hp
  rcases h' p hp with ht | hr
  · exact h p ht
  · exact .inr (hc ▸ hr)

/-- A CR command sets TXEMPTY or TXRDY, if any bit (R92, R95). -/
theorem doCr_setsOnlyReachable (k : CrCommand) (s : State) : SetsOnlyReachable s (doCr k s) := by
  intro p h
  rw [testBit_doCr_status] at h
  cases k <;> dsimp only at h
  case rxen | rxdis | txdis => exact .inl h
  case rstrx | rststa =>
    split at h
    · cases h
    · exact .inl h
  case rsttx | txen =>
    split at h
    · next hp => exact .inr ((testBit_reachableStatus _ _).2 (by simp [hp]))
    · exact .inl h

theorem doCrFold_setsOnlyReachable (l : List CrCommand) (s : State) :
    SetsOnlyReachable s (l.foldl (fun s k => doCr k s) s) := by
  refine (foldl_keeps (P := fun x => x.cfg = s.cfg ∧ SetsOnlyReachable s x) l s ⟨rfl, fun _ => .inl⟩ ?_).2
  rintro x k ⟨hc, hx⟩
  exact ⟨(doCr_cfg k x).trans hc, hx.trans hc (doCr_setsOnlyReachable k x)⟩

/-- An arriving byte sets RXRDY or OVRE, if any bit (R117, R119). -/
theorem arrive_setsOnlyReachable (b : Byte) (s : State) : SetsOnlyReachable s (arrive b s) := by
  intro p h
  by_cases hp : p = s.cfg.statusBits.rxrdy ∨ p = s.cfg.statusBits.ovre
  · exact .inr ((testBit_reachableStatus _ _).2 (by tauto))
  · left
    rwa [arrive_status_kept b s p] at h
    intro f hf
    rcases List.mem_pair.1 hf with rfl | rfl
    · exact fun e => hp (.inl e.symm)
    · exact fun e => hp (.inr e.symm)

/-- No instruction sets a status bit but the four of R32. -/
theorem effect_setsOnlyReachable (i : Instr) (s : State) : SetsOnlyReachable s (effect i s) := by
  rcases effect_status_kept_or_writer i s with hk | ⟨v, hv⟩ | rfl | ⟨b, rfl⟩ | rfl
  · exact fun p h => .inl (hk ▸ h)
  · obtain ⟨l, hl⟩ := effect_eq_doCrFold_of_requestOf (hv s.cfg)
    rw [hl]
    exact doCrFold_setsOnlyReachable l s
  · intro p h
    rw [effect, returnValue_uart, writeFlag_status, testBit_writeBit] at h
    split at h
    · cases h
    · exact .inl h
  · exact arrive_setsOnlyReachable b s
  · intro p h
    rw [effect, resetUart_status, testBit_bitMask, decide_eq_true_iff] at h
    exact .inr ((testBit_reachableStatus _ _).2 (by simp [h]))

/-- So the two rules about the status are kept: the four bits are named ones (R14), and R32's own. -/
theorem SetsOnlyReachable.statusNamed {s t : State} (h : SetsOnlyReachable s t) (hc : t.cfg = s.cfg)
    (hs : s.StatusNamed) : t.StatusNamed := by
  rw [State.StatusNamed, named_iff] at hs ⊢
  rw [hc]
  intro p hp
  exact (h p hp).elim (hs p) reachableStatus_named

theorem SetsOnlyReachable.statusReachable {s t : State} (h : SetsOnlyReachable s t) (hc : t.cfg = s.cfg)
    (hs : s.StatusReachable) : t.StatusReachable := by
  rw [State.StatusReachable, and_not_eq_zero_iff] at hs ⊢
  rw [hc]
  intro hn p hp
  exact (h p hp).elim (hs hn p) id

/-! ### Flags that stay set -/

/-- A flag outside those that may change is kept: its position is no other flag's. -/
theorem flag_of_statusKeptBut {s t : State} (hw : s.cfg.wellFormed = true) (hc : t.cfg = s.cfg)
    {fs : List StatusFlag} (h : StatusKeptBut s t fs) {f : StatusFlag} (hf : f ∉ fs) : t.flag f = s.flag f := by
  rw [State.flag, State.flag, hc]
  exact h _ fun g hg he => hf ((statusPos_inj hw).1 he ▸ hg)

theorem flag_txempty_resetUart (s : State) : (resetUart s).flag .txempty = true := by
  simp [State.flag, statusPos, testBit_bitMask]

/-- The instructions that stand for a CR write of `v` are its rows (R79). -/
theorem crRow_of_requestOf {c : Params} {i : Instr} {v : Word} (h : requestOf c i = uartWrite .cr v) :
    i = .wCr v ∨ ∃ k, i = crInstr v k := by
  cases i
  case wCr w => cases h; exact .inl rfl
  case crRstrx w => cases h; exact .inr ⟨.rstrx, rfl⟩
  case crRsttx w => cases h; exact .inr ⟨.rsttx, rfl⟩
  case crRxen w => cases h; exact .inr ⟨.rxen, rfl⟩
  case crRxdis w => cases h; exact .inr ⟨.rxdis, rfl⟩
  case crTxen w => cases h; exact .inr ⟨.txen, rfl⟩
  case crTxdis w => cases h; exact .inr ⟨.txdis, rfl⟩
  case crRststa w => cases h; exact .inr ⟨.rststa, rfl⟩
  all_goals simp [requestOf, uartRead, uartWrite, pdcRead, pdcWrite, uartOffset, pdcOffset] at h

theorem effect_crInstr (v : Word) (k : CrCommand) (s : State) : effect (crInstr v k) s = doCr k s := by
  cases k <;> rfl

/-- The flags no instruction but RSTSTA and RESET clears: all but RXRDY and RXBUFF (R31). -/
theorem flag_effect_of_set {s : State} (hw : s.cfg.wellFormed = true) {i : Instr} (hi : i ≠ .reset .uart)
    {f : StatusFlag} (hf : f ≠ .rxrdy) (hf' : f ≠ .rxbuff) (h : s.flag f = true) :
    (effect i s).flag f = true ∨ ((f = .pare ∨ f = .frame ∨ f = .ovre) ∧
      ∃ v, i = .crRststa v ∨ (i = .wCr v ∧ testBit v s.cfg.crBits.rststa = true)) := by
  rcases effect_status_kept_or_writer i s with hk | ⟨v, hv⟩ | rfl | ⟨b, rfl⟩ | rfl
  · left; rwa [State.flag, hk, effect_cfg]
  · rcases crRow_of_requestOf (hv s.cfg) with rfl | ⟨k, rfl⟩
    · rcases flag_doCrWrite_kept_or_written hw v f with hk | ⟨hb, -⟩ | ⟨-, -, hb⟩ | ⟨-, -, hb⟩ | ⟨hfs, hb, -⟩
      · exact .inl (hk.trans h)
      · exact absurd hb hf'
      · exact .inl hb
      · exact .inl hb
      · exact .inr ⟨hfs, v, .inr ⟨rfl, hb⟩⟩
    · rw [effect_crInstr, flag_doCr hw]
      cases k
      case rststa =>
        by_cases hfs : f = .ovre ∨ f = .frame ∨ f = .pare
        · exact .inr ⟨by tauto, v, .inl rfl⟩
        · exact .inl (by simpa [hfs] using h)
      all_goals exact .inl (by simp [h, hf'])
  · rcases flag_rRhr_kept_or_cleared hw f with hk | ⟨hr, -⟩
    · exact .inl (hk.trans h)
    · exact absurd hr hf
  · rcases flag_arrive hw b f with hk | ⟨-, hs⟩
    · exact .inl (hk.trans h)
    · exact .inl hs
  · exact absurd rfl hi

/-! ### Engine steps -/

theorem writeFlagIf_cfg (f : StatusFlag) (b : Option Bool) (s : State) : (writeFlagIf f b s).cfg = s.cfg := by
  cases b <;> rfl

theorem writeFlagIf_status_kept (f : StatusFlag) (b : Option Bool) (s : State) :
    StatusKeptBut s (writeFlagIf f b s) [f] := by
  intro p hp
  cases b
  · rfl
  · exact testBit_writeBit_ne _ _ (hp f (by simp))

/-- The optional flag writes of an engine step change no other status bit (R215 (b)). -/
theorem applyEngineFlags_status_kept (g : EngineFlags) (s : State) :
    StatusKeptBut s (applyEngineFlags g s) [.endrx, .endtx, .txbufe, .rxbuff] := by
  intro p hp
  have keep (f : StatusFlag) (hf : f ∈ [StatusFlag.endrx, .endtx, .txbufe, .rxbuff]) (b : Option Bool) (u : State)
      (hu : u.cfg = s.cfg) : testBit (writeFlagIf f b u).uart.status p = testBit u.uart.status p :=
    writeFlagIf_status_kept f b u p (by simpa [hu] using hp f hf)
  rw [applyEngineFlags, keep, keep, keep, keep] <;> simp [writeFlagIf_cfg]

/-- An engine step changes no status bit but the four of R215 (b), and RXRDY by its read of RHR. -/
theorem engineEffect_status_kept (e : EngineStep) (s : State) :
    StatusKeptBut s (engineEffect e s) [.endrx, .endtx, .txbufe, .rxbuff, .rxrdy] := by
  intro p hp
  have keep (d : Direction) (g : EngineFlags) (f : DmaChannel → DmaChannel) :
      testBit (applyEngineFlags g (s.mapChannel d f)).uart.status p = testBit s.uart.status p := by
    rw [applyEngineFlags_status_kept g (s.mapChannel d f) p, mapChannel_status]
    intro f hf
    rw [mapChannel_cfg]
    exact hp f (by simp at hf ⊢; tauto)
  cases e with
  | rx d g consume =>
    cases consume
    · exact keep .rx g _
    · refine (testBit_writeBit_ne _ _ ?_).trans (keep .rx g _)
      obtain ⟨w, hw⟩ := applyEngineFlags_shape g (s.mapChannel .rx (storeDescriptor d))
      rw [hw]
      exact hp .rxrdy (by simp)
  | tx d g emit => cases emit <;> exact keep .tx g _

/-! ### The mask -/

/-- An instruction keeps the mask, or it is one of its writers: IER, IDR, RESET of the UART (R136). -/
theorem effect_mask_kept_or_writer (i : Instr) (s : State) :
    (effect i s).uart.interruptMask = s.uart.interruptMask ∨ (∃ v, i = .wIer v) ∨ (∃ v, i = .wIdr v) ∨
      i = .reset .uart := by
  obtain ⟨es, -, hF⟩ := effect_frame i s
  cases i
  case wIer v => exact .inr (.inl ⟨v, rfl⟩)
  case wIdr v => exact .inr (.inr (.inl ⟨v, rfl⟩))
  case reset t =>
    cases t
    · exact .inr (.inr (.inr rfl))
    · exact .inl rfl
  case rxDeliver bytes =>
    obtain ⟨w, d, x, h, he⟩ := effect_rxDeliver_shape bytes s
    exact .inl (by rw [he])
  all_goals exact .inl (by rw [hF.1])

/-- Every writer of the mask keeps it within its domain (R15, R131). -/
theorem maskInDomain_effect {s : State} (h : s.MaskInDomain) (i : Instr) : (effect i s).MaskInDomain := by
  rw [State.MaskInDomain, effect_cfg]
  rcases effect_mask_kept_or_writer i s with hk | ⟨v, rfl⟩ | ⟨v, rfl⟩ | rfl
  · rwa [hk]
  · rw [State.MaskInDomain, and_not_eq_zero_iff] at h
    rw [and_not_eq_zero_iff]
    intro p hp
    simp only [effect, ierOperand, testBit_or, testBit_and, Bool.or_eq_true, Bool.and_eq_true] at hp
    exact hp.elim (h p) And.right
  · rw [State.MaskInDomain, and_not_eq_zero_iff] at h
    rw [and_not_eq_zero_iff]
    intro p hp
    rw [testBit_interruptMask_wIdr, Bool.and_eq_true] at hp
    exact h p hp.1
  · exact BitVec.zero_and

/-! ### The interlock -/

/-- A half-duplex PTCR write without dual enable leaves at most one direction on, if it finds so (R198, R205). -/
theorem interlocked_doHdxPtcr {v : Word} {s : State} (hd : dualEnable s.cfg v = false) (h : s.Interlocked) :
    (doHdxPtcr v s).Interlocked := by
  cases hr : testBit v (ptcrPos s.cfg.ptcrBits .rxtdis)
  case true => rw [doHdxPtcr_of_disable (.inl hr)]; simp [doHdxDisable]
  cases ht : testBit v (ptcrPos s.cfg.ptcrBits .txtdis)
  case true => rw [doHdxPtcr_of_disable (.inr ht)]; simp [doHdxDisable]
  rw [doHdxPtcr_of_no_disable hd hr ht]
  split
  · simp [doHdxRxten]
  · split
    · simp [doHdxTxten]
    · exact h

/-- No instruction breaks the interlock: the commands set the two enables together, and nothing else sets one. -/
theorem interlocked_effect {s : State} (h : s.Interlocked) (i : Instr) : (effect i s).Interlocked := by
  obtain ⟨es, -, hF⟩ := effect_frame i s
  cases i
  case hdxWPtcr v =>
    cases hd : dualEnable s.cfg v
    · rw [effect_hdxWPtcr_of_not_dualEnable hd]
      exact interlocked_doHdxPtcr hd h
    · rwa [effect_hdxWPtcr_of_dualEnable hd]
  case hdxPtcrRxten v | hdxPtcrTxten v | hdxPtcrRxtdis v | hdxPtcrTxtdis v =>
    simp [effect, doHdxRxten, doHdxTxten, doHdxDisable]
  case reset t =>
    cases t
    · exact h
    · simp [effect]
  case rxDeliver bytes =>
    obtain ⟨w, d, x, es, he⟩ := effect_rxDeliver_shape bytes s
    rwa [he]
  case rRhr => exact h
  case wCr v | crRstrx v | crRsttx v | crRxen v | crRxdis v | crTxen v | crTxdis v | crRststa v =>
    obtain ⟨-, -, hh, -⟩ := hF
    rwa [State.Interlocked, hh]
  all_goals
    rw [State.Interlocked, hF.2.1]
    exact h

/-! ### The invariant -/

/-- TXEMPTY stays set: no instruction clears it, and RESET sets it (R34). -/
theorem txemptySet_effect {s : State} (hw : s.cfg.wellFormed = true) (h : s.TxemptySet) (i : Instr) :
    (effect i s).TxemptySet := by
  by_cases hi : i = .reset .uart
  · rw [hi]
    exact flag_txempty_resetUart s
  · refine (flag_effect_of_set hw hi (by decide) (by decide) h).resolve_right ?_
    rintro ⟨hf, -⟩
    simp at hf

theorem inv_effect {s : State} (h : s.Inv) (i : Instr) : (effect i s).Inv := by
  obtain ⟨hw, hn, hr, ht, hm, hi⟩ := h
  have hc := effect_cfg i s
  have hset := effect_setsOnlyReachable i s
  exact ⟨by rw [hc, hw], hset.statusNamed hc hn, hset.statusReachable hc hr, txemptySet_effect hw ht i,
    maskInDomain_effect hm i, interlocked_effect hi i⟩

/-- A violation changes a fault flag only, of which the invariant does not speak (R226). -/
theorem inv_raiseViolation {s : State} (h : s.Inv) (t : Target) (v : Violation) : (raiseViolation t v s).Inv := by
  obtain ⟨hw, hn, hr, ht, hm, hi⟩ := h
  cases t <;> exact ⟨hw, hn, hr, ht, hm, hi⟩

/-- A step of an external engine touches named flags only, and neither TXEMPTY nor the mask (R215). -/
theorem inv_engineEffect {s : State} (h : s.Inv) (hx : s.cfg.xferEngine ≠ .null) (e : EngineStep) :
    (engineEffect e s).Inv := by
  obtain ⟨hw, hn, -, ht, hm, hi⟩ := h
  have hc := engineEffect_cfg e s
  have hk := engineEffect_status_kept e s
  refine ⟨by rw [hc, hw], ?_, fun hx' => absurd (hc ▸ hx') hx,
    (flag_of_statusKeptBut hw hc hk (by decide)).trans ht, ?_, ?_⟩
  · rw [State.StatusNamed, named_iff] at hn ⊢
    rw [hc]
    intro p hp
    by_contra hf
    exact hf (hn p ((hk p fun f _ he => hf ⟨f, he⟩).symm.trans hp))
  · cases e with
    | rx d g c => obtain ⟨w, he⟩ := engineEffect_rx d g c s; rw [he]; exact hm
    | tx d g b => obtain ⟨w, he⟩ := engineEffect_tx d g b s; rw [he]; exact hm
  · rwa [State.Interlocked, engineEffect_hdx]

/-- What every instruction, every violation and every engine step keeps, a step of the machine keeps. -/
theorem step_keeps {P : State → Prop} (hp : ∀ s rest, P s → P { s with pending := rest })
    (hi : ∀ i s, P s → P (effect i s)) (hv : ∀ t v s, P s → P (raiseViolation t v s))
    (he : ∀ e s, s.cfg.xferEngine ≠ .null → P s → P (engineEffect e s)) {s t : State} (h : P s)
    (hs : step s = .next t) : P t := by
  obtain ⟨-, ⟨-, rfl⟩ | ⟨r, rest, i, -, -, hx⟩ | ⟨r, rest, v, -, -, rfl⟩ | ⟨e, rest, -, hx, -, rfl⟩⟩ :=
    step_next_cases hs
  · exact h
  · obtain ⟨-, rfl⟩ := exec_next_iff.1 hx
    exact hi i _ (hp s rest h)
  · exact hv _ _ _ (hp s rest h)
  · exact he e _ hx (hp s rest h)

/-- Settles O52: an instruction, a rejected operation and an engine step each keep the invariant. -/
theorem stepKeepsTheInvariant : Obligations.StepKeepsTheInvariant := by
  unfold Obligations.StepKeepsTheInvariant
  intro s t h hs
  exact step_keeps (fun s rest ⟨hw, hn, hr, ht, hm, hi⟩ => ⟨hw, hn, hr, ht, hm, hi⟩) (fun i s h => inv_effect h i)
    (fun t v s h => inv_raiseViolation h t v) (fun e s hx h => inv_engineEffect h hx e) h hs

/-- Settles O53: the one bit set at creation is TXEMPTY's. -/
theorem creationSatisfiesTheInvariant : Obligations.CreationSatisfiesTheInvariant := by
  unfold Obligations.CreationSatisfiesTheInvariant
  have created (c : Params) (hc : c.wellFormed = true) : (State.createdWith c).Inv := by
    have hbit (p : BitPos) (h : testBit (State.createdWith c).uart.status p = true) :
        c.statusBits.txempty = p := by
      simpa [State.createdWith, UartDevice.created, testBit_bitMask] using h
    refine ⟨hc, (named_iff _ _).2 fun p hp => ⟨.txempty, hbit p hp⟩, fun _ => ?_, ?_, BitVec.zero_and, ?_⟩
    · exact (and_not_eq_zero_iff _ _).2 fun p hp =>
        (testBit_reachableStatus _ _).2 (.inr (.inr (.inr (hbit p hp).symm)))
    · exact flag_txempty_resetUart (State.createdWith c)
    · simp [State.createdWith, HalfDuplexPdc.created]
  exact ⟨created, created _ (by decide)⟩

/-- Settles O48: no instruction breaks the interlock, and nothing else touches the two enables. -/
theorem interlockIsNeverBroken : Obligations.InterlockIsNeverBroken := by
  unfold Obligations.InterlockIsNeverBroken
  refine ⟨fun c => ?_, fun s t h => ?_, fun s t h hs => ?_⟩
  · simp [State.createdWith, HalfDuplexPdc.created]
  · obtain ⟨-, rfl⟩ := exec_next_iff.1 h
    simp [effect]
  · refine step_keeps (P := State.Interlocked) (fun _ _ h => h) (fun i s h => interlocked_effect h i)
      (fun t v s h => ?_) (fun e s _ h => ?_) h hs
    · rwa [State.Interlocked, raiseViolation_hdx]
    · rwa [State.Interlocked, engineEffect_hdx]

/-- Settles O56: TXEMPTY is among the flags that stay set, and a THR write leaves the whole UART as it was. -/
theorem txemptyIsAlwaysSet : Obligations.TxemptyIsAlwaysSet := by
  unfold Obligations.TxemptyIsAlwaysSet
  refine ⟨fun c => flag_txempty_resetUart (State.createdWith c), fun s t hw h hs => ?_, fun s t v h f => ?_⟩
  · refine (step_keeps (P := fun s => s.cfg.wellFormed = true ∧ s.TxemptySet) (fun _ _ h => h)
      (fun i s ⟨hw, h⟩ => ⟨by rwa [effect_cfg], txemptySet_effect hw h i⟩) (fun t v s h => ?_)
      (fun e s _ ⟨hw, h⟩ => ⟨by rwa [engineEffect_cfg], ?_⟩) ⟨hw, h⟩ hs).2
    · cases t <;> exact h
    · exact (flag_of_statusKeptBut hw (engineEffect_cfg e s) (engineEffect_status_kept e s) (by decide)).trans h
  · obtain ⟨-, rfl⟩ := exec_next_iff.1 h
    obtain ⟨es, -, hu, -⟩ := effect_frame (.wThr v) s
    rw [State.flag, hu, effect_cfg]
    rfl

/-- Settles O55: RSTSTA and RESET are the only writers that clear OVRE, and RESET is the only one that clears
TXRDY. -/
theorem txrdyAndOvreStay : Obligations.TxrdyAndOvreStay := by
  unfold Obligations.TxrdyAndOvreStay
  intro s t i hw he hi
  obtain ⟨-, rfl⟩ := exec_next_iff.1 he
  refine ⟨fun h => ?_, fun h hclear => ?_⟩
  · refine (flag_effect_of_set hw hi (by decide) (by decide) h).resolve_right ?_
    rintro ⟨hf, -⟩
    simp at hf
  · exact ((flag_effect_of_set hw hi (by decide) (by decide) h).resolve_left (by simp [hclear])).2

/-! ### Engine steps within their bounds -/

/-- The read of RHR of a receive step may clear RXRDY; no other engine step changes it (R215 (b)). -/
theorem flag_rxrdy_engineEffect {s : State} (hw : s.cfg.wellFormed = true) (e : EngineStep) :
    (engineEffect e s).flag .rxrdy = s.flag .rxrdy ∨
      (e.direction = .rx ∧ (engineEffect e s).flag .rxrdy = false) := by
  have keep (d : Direction) (g : EngineFlags) (f : DmaChannel → DmaChannel) :
      (applyEngineFlags g (s.mapChannel d f)).flag .rxrdy = s.flag .rxrdy := by
    rw [flag_applyEngineFlags (by rwa [mapChannel_cfg]) g (by decide), State.flag, mapChannel_status,
      mapChannel_cfg, State.flag]
  cases e with
  | rx d g consume =>
    cases consume
    · exact .inl (keep .rx g _)
    · exact .inr ⟨rfl, flag_writeFlag_self ..⟩
  | tx d g emit => cases emit <;> exact .inl (keep .tx g _)

/-- Settles O57: an armed channel's step is its effect, which writes the status, one descriptor and at most one
byte. -/
theorem engineStepsStayWithinTheirBounds : Obligations.EngineStepsStayWithinTheirBounds := by
  unfold Obligations.EngineStepsStayWithinTheirBounds
  intro s e rest hl hw hp hx
  have hstep : step s = engineStep e { s with pending := rest } := step_engine hl hp
  have hl' : ({ s with pending := rest } : State).sessionOver = false := hl
  have hch : ({ s with pending := rest } : State).channel e.direction = s.channel e.direction := by
    cases e.direction <;> rfl
  refine ⟨fun ha => ?_, fun ha => ⟨engineEffect e { s with pending := rest }, ?_, ?_⟩⟩
  · rw [hstep]
    simp [engineStep, hl', hx, hch, ha]
  · rw [hstep]
    simp [engineStep, hl', hx, hch, ha]
  · have hk := engineEffect_status_kept e { s with pending := rest }
    have hc := engineEffect_cfg e { s with pending := rest }
    have hflag (f : StatusFlag) (hf : f ∈ [StatusFlag.ovre, .frame, .pare, .txrdy, .txempty, .commtx, .commrx]) :
        (engineEffect e { s with pending := rest }).flag f = s.flag f := by
      refine flag_of_statusKeptBut (s := { s with pending := rest }) hw hc hk ?_
      revert hf
      cases f <;> decide
    have hr := (flag_rxrdy_engineEffect (s := { s with pending := rest }) hw e).resolve_left
    cases e with
    | rx d g c =>
      obtain ⟨w, he⟩ := engineEffect_rx d g c { s with pending := rest }
      rw [he] at hflag hr ⊢
      exact ⟨rfl, rfl, rfl, rfl, rfl, rfl, rfl, rfl, hflag, hr, fun _ => ⟨rfl, rfl⟩, nofun, rfl, rfl, rfl⟩
    | tx d g b =>
      obtain ⟨w, he⟩ := engineEffect_tx d g b { s with pending := rest }
      rw [he] at hflag hr ⊢
      refine ⟨rfl, rfl, rfl, rfl, rfl, rfl, rfl, rfl, hflag, hr, nofun, fun _ => ⟨rfl, b.toList, ?_, rfl⟩, rfl, rfl,
        rfl⟩
      cases b <;> simp

end Sys2Proof.Machine
end

section
/-! SUPPORT. What no operation depends on (`47_operation_laws.md` R222, R224, `43_uart_inert_id.md` R148,
`42_uart_irqmask.md` R136): the mask, the inert registers and the two CR enables are changed underneath an operation,
and the operation does the same. -/

namespace Sys2Proof.Machine

/-! ### Changing the control fields -/

/-- A change of the six fields of the UART that only their own registers read, each by a function of its own. -/
structure ControlChange where
  mode : Word → Word := id
  interruptMask : Word → Word := id
  baudDivisor : Word → Word := id
  frameNumber : Word → Word := id
  rxEnabled : Bool → Bool := id
  txEnabled : Bool → Bool := id

/-- The state with the six fields so changed. -/
def State.change (s : State) (g : ControlChange) : State :=
  { s with
    uart :=
      { s.uart with
        mode := g.mode s.uart.mode
        interruptMask := g.interruptMask s.uart.interruptMask
        baudDivisor := g.baudDivisor s.uart.baudDivisor
        frameNumber := g.frameNumber s.uart.frameNumber
        rxEnabled := g.rxEnabled s.uart.rxEnabled
        txEnabled := g.txEnabled s.uart.txEnabled } }

/-- The change leaves the two enables as they are. -/
def ControlChange.KeepsEnables (g : ControlChange) : Prop := g.rxEnabled = id ∧ g.txEnabled = id

@[simp] theorem change_cfg (s : State) (g : ControlChange) : (s.change g).cfg = s.cfg := rfl
@[simp] theorem change_status (s : State) (g : ControlChange) : (s.change g).uart.status = s.uart.status := rfl
@[simp] theorem change_rxChannel (s : State) (g : ControlChange) : (s.change g).uart.rxChannel = s.uart.rxChannel := rfl
@[simp] theorem change_txChannel (s : State) (g : ControlChange) : (s.change g).uart.txChannel = s.uart.txChannel := rfl
@[simp] theorem change_sessionOver (s : State) (g : ControlChange) : (s.change g).sessionOver = s.sessionOver := rfl

/-! ### The shared operations commute with a change -/

theorem raiseViolation_change (t : Target) (v : Violation) (s : State) (g : ControlChange) :
    raiseViolation t v (s.change g) = (raiseViolation t v s).change g := by
  cases t <;> rfl

theorem uartAction_change (a : Action) (s : State) (g : ControlChange) :
    uartAction a (s.change g) = (uartAction a s).change g := by
  rw [uartAction_eq, uartAction_eq]
  rfl

theorem mapChannel_change (s : State) (d : Direction) (f : DmaChannel → DmaChannel) (g : ControlChange) :
    (s.change g).mapChannel d f = (s.mapChannel d f).change g := by
  cases d <;> rfl

theorem doPtcrFold_change (l : List PtcrCommand) (s : State) (g : ControlChange) :
    l.foldl (fun s k => doPtcr k s) (s.change g) = (l.foldl (fun s k => doPtcr k s) s).change g :=
  List.foldl_hom (fun s : State => s.change g) fun _ k => by cases k <;> rfl

theorem doHdxPtcr_change (v : Word) (s : State) (g : ControlChange) :
    doHdxPtcr v (s.change g) = (doHdxPtcr v s).change g := by
  unfold doHdxPtcr
  rw [change_cfg]
  dsimp only
  split <;> split <;> split <;> rfl

/-- An arriving byte looks at the receiver's enable through the gate only (R122). -/
theorem arrive_change {s : State} {g : ControlChange} (hg : s.cfg.rxGate = false ∨ g.rxEnabled = id) (b : Byte) :
    arrive b (s.change g) = (arrive b s).change g := by
  have hgate : (s.cfg.rxGate && !(s.change g).uart.rxEnabled) = (s.cfg.rxGate && !s.uart.rxEnabled) := by
    rcases hg with h | h
    · rw [h]; rfl
    · simp [State.change, h]
  unfold arrive
  rw [change_cfg, hgate]
  split
  · rfl
  · rw [show (s.change g).flag .rxrdy = s.flag .rxrdy from rfl]
    split <;> rfl

theorem engineEffect_change (e : EngineStep) (s : State) (g : ControlChange) :
    engineEffect e (s.change g) = (engineEffect e s).change g := by
  have hf (f : StatusFlag) (b : Option Bool) (u : State) :
      writeFlagIf f b (u.change g) = (writeFlagIf f b u).change g := by cases b <;> rfl
  have ha (q : EngineFlags) (u : State) : applyEngineFlags q (u.change g) = (applyEngineFlags q u).change g := by
    simp only [applyEngineFlags, hf]
  cases e with
  | rx d q consume =>
    simp only [engineEffect, mapChannel_change, ha]
    cases consume <;> rfl
  | tx d q emit =>
    simp only [engineEffect, mapChannel_change, ha]
    cases emit <;> rfl

/-! ### The instructions -/

/-- The rows of the registers that hold one of the mask and the inert fields, and RESET of the UART. -/
def accessesControl : Instr → Bool
  | .rMr | .rImr | .rBrgr | .rFnr | .wMr _ | .wIer _ | .wIdr _ | .wBrgr _ | .wFnr _ | .reset .uart => true
  | _ => false

/-- A CR command keeps its effect under a change that leaves the two enables alone. -/
theorem doCr_change {g : ControlChange} (hg : g.KeepsEnables) (k : CrCommand) (s : State) :
    doCr k (s.change g) = (doCr k s).change g := by
  obtain ⟨hr, ht⟩ := hg
  cases k <;> simp [doCr, doRstrx, doRsttx, doRxen, doRxdis, doTxen, doTxdis, doRststa, State.change,
    State.writeFlag, hr, ht]

section
variable {g : ControlChange} {s : State}

/-- A THR write looks at the transmitter's enable through the gate only (R122). -/
theorem effect_wThr_change (hg : s.cfg.txGate = false ∨ g.txEnabled = id) (v : Word) :
    effect (.wThr v) (s.change g) = (effect (.wThr v) s).change g := by
  have hgate : (s.cfg.txGate && !(s.change g).uart.txEnabled) = (s.cfg.txGate && !s.uart.txEnabled) := by
    rcases hg with h | h
    · rw [h]; rfl
    · simp [State.change, h]
  simp only [effect, change_cfg, hgate]
  split <;> rfl

theorem effect_rxDeliver_change (hg : s.cfg.rxGate = false ∨ g.rxEnabled = id) (bytes : List Byte) :
    effect (.rxDeliver bytes) (s.change g) = (effect (.rxDeliver bytes) s).change g := by
  match bytes with
  | [b] => exact arrive_change hg b
  | [] | _ :: _ :: _ => rfl

/-- A row of CR does the same under a change that leaves the enables. -/
theorem effect_crRow_change {i : Instr} {v : Word} (hcr : requestOf s.cfg i = uartWrite .cr v)
    (hg : g.KeepsEnables) : effect i (s.change g) = (effect i s).change g := by
  rcases crRow_of_requestOf hcr with rfl | ⟨k, rfl⟩
  · exact List.foldl_hom (fun s : State => s.change g) fun x k => doCr_change hg k x
  · rw [effect_crInstr, effect_crInstr, doCr_change hg]

/-- An instruction that does not access the six fields itself does the same whatever they hold, and leaves them,
provided the gates do not look at a changed enable; a CR row, provided the enables are not changed. -/
theorem effect_change {i : Instr} (hi : accessesControl i = false)
    (hcr : g.KeepsEnables ∨ ∀ v, requestOf s.cfg i ≠ uartWrite .cr v)
    (hr : s.cfg.rxGate = false ∨ g.rxEnabled = id) (ht : s.cfg.txGate = false ∨ g.txEnabled = id) :
    effect i (s.change g) = (effect i s).change g := by
  cases i
  case rMr | rImr | rBrgr | rFnr | wMr v | wIer v | wIdr v | wBrgr v | wFnr v => cases hi
  case reset t =>
    cases t
    · cases hi
    · rfl
  case wCr v | crRstrx v | crRsttx v | crRxen v | crRxdis v | crTxen v | crTxdis v | crRststa v =>
    exact effect_crRow_change rfl (hcr.resolve_right fun h => h v rfl)
  case wThr v => exact effect_wThr_change ht v
  case rxDeliver bytes => exact effect_rxDeliver_change hr bytes
  case wRcr v | wRncr v | wTcr v | wTncr v =>
    simp only [effect, mapChannel_change, change_rxChannel, change_txChannel, change_cfg, uartAction_change]
  case wPtcr v =>
    simp only [effect]
    rw [change_cfg, doPtcrFold_change, uartAction_change]
  case hdxWPtcr v =>
    simp only [effect]
    rw [change_cfg, doHdxPtcr_change]
    split <;> rfl
  all_goals rfl

/-- So no proviso is left for a change that leaves the enables. -/
theorem effect_change_of_keepsEnables {i : Instr} (hi : accessesControl i = false) (hg : g.KeepsEnables) :
    effect i (s.change g) = (effect i s).change g :=
  effect_change hi (.inl hg) (.inr hg.1) (.inr hg.2)

end

/-! ### Disjoint operations -/

/-- Settles O59: a write of MR or BRGR is a change of a field the other operation neither reads nor writes. -/
theorem disjointOperationsCommute : Obligations.DisjointOperationsCommute := by
  unfold Obligations.DisjointOperationsCommute
  intro s v w b hl
  refine ⟨fun i hi => ?_, ?_⟩
  · have hc : accessesControl i = false := by
      simp only [List.mem_cons, List.not_mem_nil, or_false] at hi
      rcases hi with rfl | rfl | rfl | rfl | rfl | rfl | rfl | rfl | rfl <;> rfl
    have hlive : (effect i s).Live := by
      rcases effect_session_kept_or_violation i s with h | ⟨_, rfl, -⟩ | ⟨_, rfl | ⟨rfl, -⟩, -⟩
      · exact h.trans hl
      all_goals simp at hi
    exact ⟨_, _, _, _, exec_live hl _, exec_live (s := effect (.wMr v) s) hl _, exec_live hl _, exec_live hlive _,
      effect_change_of_keepsEnables (g := { mode := fun _ => v }) hc ⟨rfl, rfl⟩⟩
  · have hlive : (effect (.rxDeliver [b]) s).Live := by
      obtain ⟨w, d, h⟩ := arrive_shape b s
      exact (congrArg State.sessionOver h).trans hl
    exact ⟨_, _, _, _, exec_live hl _, exec_live (s := effect (.wBrgr v) s) hl _, exec_live hl _,
      exec_live hlive _, arrive_change (g := { baudDivisor := fun _ => v }) (.inr rfl) b⟩

/-! ### The mask and the inert registers -/

/-- The status after an instruction does not depend on the mask (R136). -/
theorem status_effect_of_mask (i : Instr) (s : State) (m : Word) :
    (effect i (s.change { interruptMask := fun _ => m })).uart.status = (effect i s).uart.status := by
  cases hi : accessesControl i
  · rw [effect_change_of_keepsEnables hi ⟨rfl, rfl⟩, change_status]
  · cases i
    case rMr | rImr | rBrgr | rFnr | wMr v | wIer v | wIdr v | wBrgr v | wFnr v => rfl
    case reset t => cases t <;> rfl
    all_goals cases hi

/-- Settles O31: the mask has three writers, and the status an instruction leaves is the same under any mask. -/
theorem onlyMaskWritesAndResetChangeTheMask : Obligations.OnlyMaskWritesAndResetChangeTheMask := by
  unfold Obligations.OnlyMaskWritesAndResetChangeTheMask
  refine ⟨fun s t i he hier hidr hres => ?_, fun s t he => ?_, fun s t i m he => ?_⟩
  · obtain ⟨-, rfl⟩ := exec_next_iff.1 he
    rcases effect_mask_kept_or_writer i s with h | ⟨v, h⟩ | ⟨v, h⟩ | h
    · exact h
    · exact absurd h (hier v)
    · exact absurd h (hidr v)
    · exact absurd h hres
  · obtain ⟨-, rfl⟩ := exec_next_iff.1 he
    rfl
  · obtain ⟨hl, rfl⟩ := exec_next_iff.1 he
    exact ⟨_, exec_live (s := s.change { interruptMask := fun _ => m }) hl i, status_effect_of_mask i s m⟩

/-- What an instruction does under other values of the inert registers: the same but for those registers, and for
the value a read of one of them returns (R148). -/
theorem effect_of_inert (i : Instr) (s : State) (a b c : Word) :
    ∃ a' b' c' h, effect i (s.change { mode := fun _ => a, baudDivisor := fun _ => b, frameNumber := fun _ => c }) =
        { (effect i s).change { mode := fun _ => a', baudDivisor := fun _ => b', frameNumber := fun _ => c' } with
          history := h } ∧
      (i ≠ .rMr → i ≠ .rBrgr → i ≠ .rFnr → h = (effect i s).history) := by
  cases hi : accessesControl i
  · exact ⟨a, b, c, _, effect_change_of_keepsEnables hi ⟨rfl, rfl⟩, fun _ _ _ => rfl⟩
  · cases i
    case rMr => exact ⟨a, b, c, _, rfl, fun h => absurd rfl h⟩
    case rBrgr => exact ⟨a, b, c, _, rfl, fun _ h => absurd rfl h⟩
    case rFnr => exact ⟨a, b, c, _, rfl, fun _ _ h => absurd rfl h⟩
    case rImr | wIer v | wIdr v => exact ⟨a, b, c, _, rfl, fun _ _ _ => rfl⟩
    case wMr v => exact ⟨v, b, c, _, rfl, fun _ _ _ => rfl⟩
    case wBrgr v => exact ⟨a, v, c, _, rfl, fun _ _ _ => rfl⟩
    case wFnr v => exact ⟨a, b, v, _, rfl, fun _ _ _ => rfl⟩
    case reset t =>
      cases t
      · exact ⟨0, 0, 0, _, rfl, fun _ _ _ => rfl⟩
      · cases hi
    all_goals cases hi

/-- The frame of an instruction leaves the inert registers it does not write (R148). -/
theorem effect_inert_kept {i : Instr} (hi : i ≠ .reset .uart) (s : State) :
    ((∀ v, i ≠ .wMr v) → (effect i s).uart.mode = s.uart.mode) ∧
    ((∀ v, i ≠ .wBrgr v) → (effect i s).uart.baudDivisor = s.uart.baudDivisor) ∧
    ((∀ v, i ≠ .wFnr v) → (effect i s).uart.frameNumber = s.uart.frameNumber) := by
  obtain ⟨es, -, hF⟩ := effect_frame i s
  cases i
  case wMr v => exact ⟨fun h => absurd rfl (h v), fun _ => rfl, fun _ => rfl⟩
  case wBrgr v => exact ⟨fun _ => rfl, fun h => absurd rfl (h v), fun _ => rfl⟩
  case wFnr v => exact ⟨fun _ => rfl, fun _ => rfl, fun h => absurd rfl (h v)⟩
  case reset t =>
    cases t
    · exact absurd rfl hi
    · exact ⟨fun _ => rfl, fun _ => rfl, fun _ => rfl⟩
  case rxDeliver bytes =>
    obtain ⟨w, d, x, h, he⟩ := effect_rxDeliver_shape bytes s
    rw [he]
    exact ⟨fun _ => rfl, fun _ => rfl, fun _ => rfl⟩
  all_goals
    rw [hF.1]
    exact ⟨fun _ => rfl, fun _ => rfl, fun _ => rfl⟩

/-- Settles O34: the frames leave the three registers, and a change of them underneath an instruction leaves its
other effect as it is. -/
theorem inertRegistersAreIndependent : Obligations.InertRegistersAreIndependent := by
  unfold Obligations.InertRegistersAreIndependent
  refine ⟨fun s t i he hi => ?_, fun s t he => ?_, fun s t i a b c he => ?_⟩
  · obtain ⟨-, rfl⟩ := exec_next_iff.1 he
    exact effect_inert_kept hi s
  · obtain ⟨-, rfl⟩ := exec_next_iff.1 he
    exact ⟨rfl, rfl, rfl⟩
  · obtain ⟨hl, rfl⟩ := exec_next_iff.1 he
    obtain ⟨a', b', c', h, heff, hout⟩ := effect_of_inert i s a b c
    refine ⟨_, exec_live (s := s.change { mode := fun _ => a, baudDivisor := fun _ => b, frameNumber := fun _ => c })
      hl i, ?_⟩
    rw [heff]
    exact ⟨rfl, rfl, hout⟩

/-! ### The two CR enables -/

/-- Both enables are given these values. -/
def enablesTo (r x : Bool) : ControlChange := { rxEnabled := fun _ => r, txEnabled := fun _ => x }

theorem sameButEnables_iff {s t : State} : SameButEnables s t ↔ ∃ r x, t = s.change (enablesTo r x) :=
  ⟨fun h => ⟨_, _, h⟩, by rintro ⟨r, x, rfl⟩; rfl⟩

/-- A CR command leaves two states that differ in the enables only differing in them only (R91 to R97). -/
theorem doCr_enablesTo (k : CrCommand) (s : State) (r x : Bool) :
    doCr k (s.change (enablesTo r x)) =
      (doCr k s).change (enablesTo ((crRxWrite k).getD r) ((crTxWrite k).getD x)) := by
  cases k <;> rfl

theorem doCrFold_enablesTo (l : List CrCommand) (s : State) (r x : Bool) :
    ∃ r' x', l.foldl (fun s k => doCr k s) (s.change (enablesTo r x)) =
      (l.foldl (fun s k => doCr k s) s).change (enablesTo r' x') := by
  induction l generalizing s r x with
  | nil => exact ⟨r, x, rfl⟩
  | cons k l ih =>
    rw [List.foldl_cons, List.foldl_cons, doCr_enablesTo]
    exact ih _ _ _

/-- With both gates false every instruction does (R224). -/
theorem effect_enablesTo {s : State} (hr : s.cfg.rxGate = false) (ht : s.cfg.txGate = false) (i : Instr)
    (r x : Bool) : ∃ r' x', effect i (s.change (enablesTo r x)) = (effect i s).change (enablesTo r' x') := by
  by_cases hcr : ∃ v, requestOf s.cfg i = uartWrite .cr v
  · obtain ⟨v, hv⟩ := hcr
    rcases crRow_of_requestOf hv with rfl | ⟨k, rfl⟩
    · exact doCrFold_enablesTo _ s r x
    · rw [effect_crInstr, effect_crInstr, doCr_enablesTo]
      exact ⟨_, _, rfl⟩
  cases hi : accessesControl i
  · exact ⟨r, x, effect_change hi (.inr fun v hv => hcr ⟨v, hv⟩) (.inl hr) (.inl ht)⟩
  · cases i
    case rMr | rImr | rBrgr | rFnr | wMr v | wIer v | wIdr v | wBrgr v | wFnr v => exact ⟨r, x, rfl⟩
    case reset t =>
      cases t
      · exact ⟨false, false, rfl⟩
      · exact ⟨r, x, rfl⟩
    all_goals cases hi

/-- Two outcomes that are next states which differ in the enables only, or the same stop. -/
def SameOutcome (a b : Result) : Prop :=
  (∃ s t, a = .next s ∧ b = .next t ∧ SameButEnables s t) ∨ (∃ f, a = .fault f ∧ b = .fault f) ∨
    ∃ f, a = .refused f ∧ b = .refused f

theorem perform_sameOutcome {s t : State} (hr : s.cfg.rxGate = false) (ht : s.cfg.txGate = false)
    (h : SameButEnables s t) (hl : s.Live) (q : Request) : SameOutcome (perform q s) (perform q t) := by
  obtain ⟨r, x, rfl⟩ := sameButEnables_iff.1 h
  have hl' : (s.change (enablesTo r x)).Live := hl
  cases hd : decode s.cfg q with
  | ok i =>
    rw [perform_ok hd, perform_ok (s := s.change (enablesTo r x)) hd, exec_live hl, exec_live hl']
    exact .inl ⟨_, _, rfl, rfl, sameButEnables_iff.2 (effect_enablesTo hr ht i r x)⟩
  | error v =>
    rw [perform_error hd, perform_error (s := s.change (enablesTo r x)) hd, operate_live hl, operate_live hl']
    exact .inl ⟨_, _, rfl, rfl, sameButEnables_iff.2 ⟨r, x, raiseViolation_change ..⟩⟩

theorem engineStep_sameOutcome {s t : State} (h : SameButEnables s t) (hl : s.Live) (e : EngineStep) :
    SameOutcome (engineStep e s) (engineStep e t) := by
  obtain ⟨r, x, rfl⟩ := sameButEnables_iff.1 h
  have hch : (s.change (enablesTo r x)).channel e.direction = s.channel e.direction := by
    cases e.direction <;> rfl
  simp only [engineStep, change_sessionOver, change_cfg, hch, hl]
  split
  · exact .inr (.inl ⟨_, rfl, rfl⟩)
  split
  · exact .inr (.inr ⟨_, rfl, rfl⟩)
  split
  · exact .inl ⟨_, _, rfl, rfl, sameButEnables_iff.2 ⟨r, x, engineEffect_change ..⟩⟩
  · exact .inr (.inr ⟨_, rfl, rfl⟩)

/-- One step of two states that differ in the enables only has the same outcome (R224). -/
theorem step_sameOutcome {s t : State} (hr : s.cfg.rxGate = false) (ht : s.cfg.txGate = false)
    (h : SameButEnables s t) : SameOutcome (step s) (step t) := by
  have hover : t.sessionOver = s.sessionOver := by rw [h]; rfl
  have hpend : t.pending = s.pending := by rw [h]
  cases hl : s.sessionOver
  case true =>
    rw [step_over hl, step_over (hover.trans hl)]
    exact .inr (.inl ⟨_, rfl, rfl⟩)
  cases hp : s.pending with
  | nil =>
    rw [step_idle hl hp, step_idle (hover.trans hl) (hpend.trans hp)]
    exact .inl ⟨_, _, rfl, rfl, h⟩
  | cons i rest =>
    have h' : SameButEnables { s with pending := rest } { t with pending := rest } := by
      rw [h]
    cases i with
    | op q =>
      rw [step_op hl hp, step_op (hover.trans hl) (hpend.trans hp)]
      exact perform_sameOutcome (s := { s with pending := rest }) hr ht h' hl q
    | engine e =>
      rw [step_engine hl hp, step_engine (hover.trans hl) (hpend.trans hp)]
      exact engineStep_sameOutcome h' hl e

theorem run_sameOutcome (k : Nat) {s t : State} (hr : s.cfg.rxGate = false) (ht : s.cfg.txGate = false)
    (h : SameButEnables s t) : SameOutcome (Host.Core.run core k s) (Host.Core.run core k t) := by
  induction k generalizing s t with
  | zero => exact .inl ⟨s, t, rfl, rfl, h⟩
  | succ k ih =>
    rcases step_sameOutcome hr ht h with ⟨s', t', hs, hu, h'⟩ | ⟨f, hs, hu⟩ | ⟨f, hs, hu⟩
    · rw [run_succ_next hs, run_succ_next hu]
      have hc := step_cfg hs
      exact ih (by rw [hc, hr]) (by rw [hc, ht]) h'
    · exact .inr (.inl ⟨f, run_succ_fault hs, run_succ_fault hu⟩)
    · exact .inr (.inr ⟨f, run_succ_refused hs, run_succ_refused hu⟩)

/-- Settles O58, by induction on the length of the run: two states that differ in the enables only step to such
states or to the same stop. -/
theorem crEnablesCannotBeObserved : Obligations.CrEnablesCannotBeObserved := by
  unfold Obligations.CrEnablesCannotBeObserved
  intro k s t hr ht h
  rcases run_sameOutcome k hr ht h with ⟨s', t', hs, hu, h'⟩ | ⟨f, hs, hu⟩ | ⟨f, hs, hu⟩ <;> rw [hs, hu]
  · refine ⟨fun u he => ?_, nofun, nofun⟩
    rw [← Host.Outcome.next.inj he]
    exact ⟨t', rfl, h'⟩
  · exact ⟨fun _ he => (nomatch he), fun _ he => he, fun _ he => (nomatch he)⟩
  · exact ⟨fun _ he => (nomatch he), fun _ he => (nomatch he), fun _ he => he⟩

end Sys2Proof.Machine
end

section
/-! SUPPORT. Which bus accesses are legal (`30_encoding.md` R63, R64, `20_memory.md` R43), for both units: the offsets
that can be read and written, and the checks in their order. -/

namespace Sys2Proof.Machine

/-! ### Registers with one direction -/

theorem readOfPdc_eq_none_iff (r : PdcReg) : readOfPdc r = none ↔ r = .ptcr := by
  cases r <;> simp [readOfPdc]

theorem readOfHdx_eq_none_iff (r : PdcReg) : readOfHdx r = none ↔ r = .ptcr := by
  cases r <;> simp [readOfHdx]

theorem writeOfPdc_eq_none_iff (c : Params) (v : Word) (r : PdcReg) : writeOfPdc c v r = none ↔ r = .ptsr := by
  cases r <;> simp [writeOfPdc]

theorem writeOfHdx_eq_none_iff (c : Params) (v : Word) (r : PdcReg) : writeOfHdx c v r = none ↔ r = .ptsr := by
  cases r <;> simp [writeOfHdx]

/-- Which UART registers can be written depends on neither the parameters nor the value. -/
theorem writeOfUart_isSome (c : Params) (v : Word) (r : UartReg) :
    (writeOfUart c v r).isSome = (writeOfUart defaultParams 0 r).isSome := by
  cases r <;> rfl

/-! ### The default map -/

/-- The readable offsets are those of the UART registers that can be read, and of the PDC's but PTCR. -/
theorem readableOffsets_eq :
    readableOffsets = (UartReg.all.filter fun r => (readOfUart r).isSome).map uartOffset ++
      (PdcReg.all.filter (· ≠ .ptcr)).map (pdcOffset defaultPdcOffsets) := by
  decide

/-- The writable offsets are those of the UART registers that can be written, and of the PDC's but PTSR. -/
theorem writableOffsets_eq :
    writableOffsets = (UartReg.all.filter fun r => (writeOfUart defaultParams 0 r).isSome).map uartOffset ++
      (PdcReg.all.filter (· ≠ .ptsr)).map (pdcOffset defaultPdcOffsets) := by
  decide

theorem mem_all_uartReg (r : UartReg) : r ∈ UartReg.all := by cases r <;> decide

theorem mem_all_pdcReg (r : PdcReg) : r ∈ PdcReg.all := by cases r <;> decide

theorem mem_readableOffsets_iff {off : Nat} :
    off ∈ readableOffsets ↔ (∃ r, (readOfUart r).isSome ∧ uartOffset r = off) ∨
      ∃ r, r ≠ .ptcr ∧ pdcOffset defaultPdcOffsets r = off := by
  simp [readableOffsets_eq, mem_all_uartReg, mem_all_pdcReg]

theorem mem_writableOffsets_iff {off : Nat} (c : Params) (v : Word) :
    off ∈ writableOffsets ↔ (∃ r, (writeOfUart c v r).isSome ∧ uartOffset r = off) ∨
      ∃ r, r ≠ .ptsr ∧ pdcOffset defaultPdcOffsets r = off := by
  simp [writableOffsets_eq, mem_all_uartReg, mem_all_pdcReg, writeOfUart_isSome c v]

section
variable {c : Params} (h : c.pdcOffsets = defaultPdcOffsets)
include h

/-- At the default offsets the register map needs no other parameter. -/
theorem pdcRegAt_default (r : PdcReg) : pdcRegAt c.pdcOffsets (pdcOffset defaultPdcOffsets r) = some r := by
  rw [h]
  exact pdcRegAt_offset (c := defaultParams) (by decide) r

theorem readAt_isSome_iff (off : Nat) : (readAt c .uart off).isSome ↔ off ∈ readableOffsets := by
  rw [mem_readableOffsets_iff]
  constructor
  · intro hs
    obtain ⟨i, hi⟩ := Option.isSome_iff_exists.1 hs
    rcases readAt_uart_cases hi with ⟨r, hr, hri⟩ | ⟨r, hr, hri⟩
    · exact .inl ⟨r, by simp [hri], hr⟩
    · refine .inr ⟨r, ?_, h ▸ hr⟩
      rintro rfl
      cases hri
  · rintro (⟨r, hr, rfl⟩ | ⟨r, hr, rfl⟩)
    · rwa [readAt_uart]
    · rw [readAt, uartRegAt_pdcOffset, pdcRegAt_default h]
      exact Option.isSome_iff_ne_none.2 (mt (readOfPdc_eq_none_iff r).1 hr)

theorem writeAt_isSome_iff (off : Nat) (v : Word) : (writeAt c .uart off v).isSome ↔ off ∈ writableOffsets := by
  rw [mem_writableOffsets_iff c v]
  constructor
  · intro hs
    obtain ⟨i, hi⟩ := Option.isSome_iff_exists.1 hs
    rcases writeAt_uart_cases hi with ⟨r, hr, hri⟩ | ⟨r, hr, hri⟩
    · exact .inl ⟨r, by simp [hri], hr⟩
    · refine .inr ⟨r, ?_, h ▸ hr⟩
      rintro rfl
      cases hri
  · rintro (⟨r, hr, rfl⟩ | ⟨r, hr, rfl⟩)
    · rwa [writeAt_uart]
    · rw [writeAt, uartRegAt_pdcOffset, pdcRegAt_default h]
      exact Option.isSome_iff_ne_none.2 (mt (writeOfPdc_eq_none_iff c v r).1 hr)

end

/-! ### One access -/

section
variable {s : State} {t : Target} {off : Nat} {v : Word} (hl : s.Live)
include hl

theorem rejects_read_of_none (h : readAt s.cfg t off = none) :
    Rejects s (.read t 4 off) (.illegalOffset .read off) :=
  rejects_of_decode hl (decode_read_none h)

theorem rejects_write_of_none (h : writeAt s.cfg t off v = none) :
    Rejects s (.write t 4 off v) (.illegalOffset .write off) :=
  rejects_of_decode hl (decode_write_none h)

theorem rejects_badSize {size : Nat} (h : size ≠ 4) :
    Rejects s (.read t size off) (.illegalWidth .read off size) ∧
      Rejects s (.write t size off v) (.illegalWidth .write off size) :=
  ⟨rejects_of_decode hl (decode_read_badSize h), rejects_of_decode hl (decode_write_badSize h)⟩

/-- A readable offset runs the instruction that stands for the read. -/
theorem runs_read_of_isSome (h : (readAt s.cfg t off).isSome) :
    ∃ i, requestOf s.cfg i = .read t 4 off ∧ step (issue (.read t 4 off) s) = exec i s := by
  obtain ⟨i, hi⟩ := Option.isSome_iff_exists.1 h
  exact ⟨i, requestOf_readAt hi, step_issue_ok hl (decode_read_ok.2 hi)⟩

theorem runs_write_of_isSome (h : (writeAt s.cfg t off v).isSome) :
    ∃ i, requestOf s.cfg i = .write t 4 off v ∧ step (issue (.write t 4 off v) s) = exec i s := by
  obtain ⟨i, hi⟩ := Option.isSome_iff_exists.1 h
  exact ⟨i, requestOf_writeAt hi, step_issue_ok hl (decode_write_ok.2 hi)⟩

end

/-- Settles O5: the two lists are the offsets at which the register map finds an instruction. -/
theorem busAccessChecksInOrder : Obligations.BusAccessChecksInOrder := by
  unfold Obligations.BusAccessChecksInOrder
  refine ⟨rfl, rfl, fun s size off v hc => ⟨fun ho => ⟨step_over ho, step_over ho⟩,
    fun hl hs => rejects_badSize hl hs, ?_, ?_, ?_, ?_⟩⟩ <;> rintro hl rfl hoff
  · exact rejects_read_of_none hl (Option.not_isSome_iff_eq_none.1 (mt (readAt_isSome_iff hc off).1 hoff))
  · exact rejects_write_of_none hl (Option.not_isSome_iff_eq_none.1 (mt (writeAt_isSome_iff hc off v).1 hoff))
  · exact runs_read_of_isSome hl ((readAt_isSome_iff hc off).2 hoff)
  · exact runs_write_of_isSome hl ((writeAt_isSome_iff hc off v).2 hoff)

/-- Settles O6: an offset of the half-duplex window holds the register the PDC map gives it, or none. -/
theorem halfDuplexAccessChecks : Obligations.HalfDuplexAccessChecks := by
  unfold Obligations.HalfDuplexAccessChecks
  intro s off v hl hw
  refine ⟨fun size hs => rejects_badSize hl hs, fun hno => ?_, ?_⟩
  · have hnone : pdcRegAt s.cfg.pdcOffsets off = none := by
      rcases pdcRegAt_cases s.cfg.pdcOffsets off with ⟨r, -, hr⟩ | ⟨h, -⟩
      · exact absurd hr (hno r)
      · exact h
    exact ⟨rejects_read_of_none hl (by rw [readAt, hnone]; rfl),
      rejects_write_of_none hl (by rw [writeAt, hnone]; rfl)⟩
  · rintro r rfl
    have hread := readAt_hdx hw r
    have hwrite := writeAt_hdx hw r v
    refine ⟨?_, ?_, fun hr => ?_, fun hr => ?_⟩
    · rintro rfl
      exact rejects_read_of_none hl hread
    · rintro rfl
      exact rejects_write_of_none hl hwrite
    · refine runs_read_of_isSome hl (Option.isSome_iff_ne_none.2 ?_)
      rwa [hread, Ne, readOfHdx_eq_none_iff]
    · refine runs_write_of_isSome hl (Option.isSome_iff_ne_none.2 ?_)
      rwa [hwrite, Ne, writeOfHdx_eq_none_iff]

/-- Settles O8: every register of either map stands at a multiple of 4. -/
theorem misalignedAccessIsIllegalOffset : Obligations.MisalignedAccessIsIllegalOffset := by
  unfold Obligations.MisalignedAccessIsIllegalOffset
  intro s t off v hl hoff
  refine ⟨rejects_read_of_none hl ?_, rejects_write_of_none hl ?_⟩
  · cases t <;> simp [readAt, uartRegAt_misaligned hoff, pdcRegAt_misaligned hoff]
  · cases t <;> simp [writeAt, uartRegAt_misaligned hoff, pdcRegAt_misaligned hoff]

/-- Settles O9: the register stands at the offset, and has no instruction in that direction. -/
theorem wrongDirectionIsIllegalOffset : Obligations.WrongDirectionIsIllegalOffset := by
  unfold Obligations.WrongDirectionIsIllegalOffset
  intro s v hl hw
  refine ⟨fun r hr => rejects_read_of_none hl ((readAt_uart _ r).trans ?_),
    rejects_read_of_none hl (readAt_pdc hw .ptcr),
    fun r hr => rejects_write_of_none hl ((writeAt_uart _ r v).trans ?_),
    rejects_write_of_none hl (writeAt_pdc hw .ptsr v)⟩ <;>
    simp only [List.mem_cons, List.not_mem_nil, or_false] at hr
  · rcases hr with rfl | rfl | rfl | rfl <;> rfl
  · rcases hr with rfl | rfl | rfl | rfl | rfl <;> rfl

end Sys2Proof.Machine
end

section
/-! SUPPORT. The fault state (`60_exceptions.md` R226 to R231, `47_operation_laws.md` R223): what a step does with the
operation issued next, and which operations end the session. -/

namespace Sys2Proof.Machine

/-! ### One step -/

/-- Settles O4: the three cases of a live step with an operation or nothing issued. -/
theorem stepRunsDecodedOperation : Obligations.StepRunsDecodedOperation := by
  unfold Obligations.StepRunsDecodedOperation
  intro s hl
  refine ⟨fun r rest i hp hd => ?_, fun r rest v hp hd => ?_, step_idle hl⟩
  · exact (step_op hl hp).trans (perform_ok hd)
  · have hl' : ({ s with pending := rest } : State).Live := hl
    rw [step_op hl hp, perform_error (s := { s with pending := rest }) hd, operate_live hl']

/-- Settles O12: the guard of the fault state stands before every step and every instruction. -/
theorem faultStateHasNoStep : Obligations.FaultStateHasNoStep := by
  unfold Obligations.FaultStateHasNoStep
  exact ⟨fun s ho => ⟨step_over ho, exec_over ho, fun rest => step_over (s := { s with pending := rest }) ho⟩,
    fun _ => rfl⟩

/-- Settles O13: an operation is decoded and run or rejected, and either completes. -/
theorem everyOperationCompletes : Obligations.EveryOperationCompletes := by
  unfold Obligations.EveryOperationCompletes
  intro s hl
  have hexec (i : Instr) : ∃ t, exec i s = .next t ∧ t.pending = s.pending ∧ t.cfg = s.cfg :=
    ⟨_, exec_live hl i, effect_pending i s, effect_cfg i s⟩
  refine ⟨hexec, fun r => ?_⟩
  cases hd : decode s.cfg r with
  | ok i =>
    rw [step_issue_ok hl hd]
    exact hexec i
  | error v => exact ⟨_, rejects_of_decode hl hd, raiseViolation_pending .., raiseViolation_cfg ..⟩

/-! ### What ends the session -/

/-- The operations R228 lists. -/
def EndsSession (c : Params) (r : Request) : Prop :=
  (∃ u size off, r = .read u size off ∧ (size ≠ 4 ∨ readAt c u off = none)) ∨
  (∃ u size off v, r = .write u size off v ∧ (size ≠ 4 ∨ writeAt c u off v = none)) ∨
  (∃ bytes, r = .deliver bytes ∧ bytes.length ≠ 1) ∨
  (∃ v, r = pdcWrite c .hdx .ptcr v ∧ dualEnable c v = true)

/-- An operation decoding rejects is a bus access of another width, or at an offset with no register (R63). -/
theorem endsSession_of_rejected {c : Params} {r : Request} {v : Violation} (h : decode c r = .error v) :
    EndsSession c r := by
  rcases decode_cases c r with ⟨t, size, off, rfl, ⟨hs, -⟩ | ⟨-, hr, -⟩ | ⟨i, -, -, hd⟩⟩ |
    ⟨t, size, off, w, rfl, ⟨hs, -⟩ | ⟨-, hr, -⟩ | ⟨i, -, -, hd⟩⟩ | ⟨bytes, rfl, hd⟩ | ⟨t, rfl, hd⟩
  · exact .inl ⟨t, size, off, rfl, .inl hs⟩
  · exact .inl ⟨t, size, off, rfl, .inr hr⟩
  · rw [hd] at h; cases h
  · exact .inr (.inl ⟨t, size, off, w, rfl, .inl hs⟩)
  · exact .inr (.inl ⟨t, size, off, w, rfl, .inr hr⟩)
  · rw [hd] at h; cases h
  · rw [hd] at h; cases h
  · rw [hd] at h; cases h

/-- The dual-enable row is decoded from a write with both enables only (R199). -/
theorem dualEnable_of_decode {c : Params} {r : Request} {v : Word} (h : decode c r = .ok (.hdxPtcrDualen v)) :
    dualEnable c v = true := by
  rcases decode_ok_cases h with ⟨t, off, -, hr⟩ | ⟨t, off, w, -, hw⟩ | ⟨bytes, -, hi⟩ | ⟨t, -, hi⟩
  · exact readAt_wellFormed hr
  · exact writeAt_wellFormed hw
  · cases hi
  · cases hi

/-- If an operation ends the session, it is one of R228's list, and all it does is raise its unit's violation. -/
theorem step_issue_over {s t : State} {r : Request} (hl : s.Live) (h : step (issue r s) = .next t)
    (ho : t.sessionOver = true) : EndsSession s.cfg r ∧ ∃ v, t = raiseViolation r.target v s := by
  cases hd : decode s.cfg r with
  | error v =>
    rw [rejects_of_decode hl hd] at h
    cases h
    exact ⟨endsSession_of_rejected hd, v, rfl⟩
  | ok i =>
    rw [step_issue_ok hl hd] at h
    obtain ⟨-, rfl⟩ := exec_next_iff.1 h
    obtain rfl := requestOf_decode hd
    rcases effect_session_kept_or_violation i s with hk | ⟨bytes, rfl, hb, he⟩ | ⟨v, rfl | ⟨rfl, hv⟩, he⟩
    · rw [hk, hl] at ho
      cases ho
    · exact ⟨.inr (.inr (.inl ⟨bytes, rfl, hb⟩)), _, he⟩
    · exact ⟨.inr (.inr (.inr ⟨v, rfl, dualEnable_of_decode hd⟩)), _, he⟩
    · exact ⟨.inr (.inr (.inr ⟨v, rfl, hv⟩)), _, he⟩

theorem live_iff (s : State) : s.Live ↔ s.uart.fault = false ∧ s.hdx.fault = false :=
  Bool.or_eq_false_iff

/-- Settles O10: an operation that ends the session does what `raiseViolation` does, which is one flag and one
report. -/
theorem violationHasNoOtherEffect : Obligations.ViolationHasNoOtherEffect := by
  unfold Obligations.ViolationHasNoOtherEffect
  intro s t r hl h ho
  obtain ⟨-, v, rfl⟩ := step_issue_over hl h ho
  obtain ⟨hu, hh⟩ := (live_iff s).1 hl
  refine ⟨raiseViolation_cfg .., raiseViolation_pending .., ?_, ?_, ⟨v, raiseViolation_history ..⟩, ?_,
    step_over ho⟩
  · rw [raiseViolation_uart, hu, Bool.false_or]
  · rw [raiseViolation_hdx, hh, Bool.false_or]
  · rw [irqLevel, raiseViolation_uart, irqLevel]

/-- Settles O11: each listed operation is rejected by the check its rule names, and no other raises a violation. -/
theorem violationCauses : Obligations.ViolationCauses := by
  unfold Obligations.ViolationCauses
  intro s hl hw
  refine ⟨fun t size off hs => rejects_of_decode hl (decode_read_badSize hs),
    fun t size off v hs => rejects_of_decode hl (decode_write_badSize hs), fun t off => rejects_read_of_none hl,
    fun t off v => rejects_write_of_none hl, fun bytes hb => ?_, fun v hv => ?_,
    fun r t h ho => (step_issue_over hl h ho).1⟩
  · have he := (effect_rxDeliver_cases bytes s).resolve_left (by rintro ⟨b, rfl, -⟩; exact hb rfl)
    rw [Rejects, step_issue_ok (i := .rxDeliver bytes) hl rfl, exec_live hl, he.2]
    rfl
  · have hd : decode s.cfg (pdcWrite s.cfg .hdx .ptcr v) = .ok (.hdxPtcrDualen v) :=
      decode_pdcWrite_hdx hw (congrArg some (hdxPtcrForm_of_dualEnable hv))
    rw [Rejects, step_issue_ok hl hd, exec_live hl]
    rfl

end Sys2Proof.Machine
end

section
/-! SUPPORT. The registers of the UART (`40_uart_control.md` to `43_uart_inert_id.md`): the plain reads, the data
path with closed gates, the CR write of none and of all commands, the laws of two mask writes, the interrupt line, the
inert and identification registers. -/

namespace Sys2Proof.Machine

/-! ### Reads and the inert registers -/

/-- Settles O14: each row returns its field, and `zextCount` is the zero-extension. -/
theorem plainReadsReturnTheirRegister : Obligations.PlainReadsReturnTheirRegister := by
  unfold Obligations.PlainReadsReturnTheirRegister
  intro s hl
  have h := exec_live hl
  exact ⟨h _, h _, h _, h _, h _, h _, h _, h _, h _, h _, h _, h _, h _, h _, h _⟩

/-- Settles O33: the row stores the value in its field, which the read of that register returns. -/
theorem inertWritesStoreTheWholeWord : Obligations.InertWritesStoreTheWholeWord := by
  unfold Obligations.InertWritesStoreTheWholeWord
  intro s v hl
  exact ⟨⟨exec_live hl _, exec_live (s := effect (.wMr v) s) hl _⟩,
    ⟨exec_live hl _, exec_live (s := effect (.wBrgr v) s) hl _⟩,
    exec_live hl _, exec_live (s := effect (.wFnr v) s) hl _⟩

/-- Settles O35: no step changes the parameters, and both registers read one of them. -/
theorem identificationIsConstant : Obligations.IdentificationIsConstant := by
  unfold Obligations.IdentificationIsConstant
  refine ⟨fun s t => step_cfg, fun s hl => ?_⟩
  have hl' : (resetUart s).Live := hl
  exact ⟨readOnlyAt_of hl (readAt_uart s.cfg .cidr) (writeAt_uart s.cfg .cidr),
    readOnlyAt_of hl (readAt_uart s.cfg .exid) (writeAt_uart s.cfg .exid), exec_live hl _, exec_live hl _,
    _, exec_live hl _, exec_live hl' _, exec_live hl' _⟩

/-! ### The data path -/

/-- Settles O21: a delivery that is no single byte is the violation alone. -/
theorem badDeliverySizeIsFatal : Obligations.BadDeliverySizeIsFatal := by
  unfold Obligations.BadDeliverySizeIsFatal
  intro s bytes hl hb
  obtain ⟨b, rfl, -⟩ | ⟨-, he⟩ := effect_rxDeliver_cases bytes s
  · exact absurd rfl hb
  · rw [exec_live hl, he]
    rfl

/-- Settles O22: the size is checked first, and a closed gate leaves the state as it is. -/
theorem gatesDropSilently : Obligations.GatesDropSilently := by
  unfold Obligations.GatesDropSilently
  refine fun s hl => ⟨fun hg hr => ⟨fun b => ?_, fun bytes => badDeliverySizeIsFatal s bytes hl⟩,
    fun hg ht v => ?_, rfl⟩
  · exact (exec_live hl _).trans (congrArg _ (if_pos (by simp [hg, hr])))
  · exact (exec_live hl _).trans (congrArg _ (if_pos (by simp [hg, ht])))

/-! ### The control register -/

/-- A value outside CR's defined bits issues no command (R67). -/
theorem crCommandsIn_of_undefined {c : Params} {v : Word} (h : v &&& crDefined c.crBits = 0) :
    crCommandsIn c v = [] := by
  refine List.eq_nil_iff_forall_not_mem.2 fun k hk => ?_
  have hbit := (eq_zero_iff_testBit _).1 h (crPos c.crBits k)
  have hdef : crPos c.crBits k ∈ CrCommand.all.map (crPos c.crBits) :=
    List.mem_map_of_mem (by cases k <;> decide)
  simp [testBit_and, mem_crCommandsIn.1 hk, crDefined, testBit_maskOf, hdef] at hbit

theorem testBit_allOnes (p : BitPos) : testBit 0xFFFFFFFF#32 p = true := by
  revert p
  decide

/-- Settles O26: no command changes nothing, and with all seven bits set every command writes its enables and
flags. -/
theorem crWriteOfNoneAndOfAll : Obligations.CrWriteOfNoneAndOfAll := by
  unfold Obligations.CrWriteOfNoneAndOfAll
  intro s hl hw
  refine ⟨fun v hv => ?_, doCrWrite 0xFFFFFFFF#32 s, exec_live hl _, ?_, ?_⟩
  · rw [exec_live hl, effect, doCrWrite, crCommandsIn_of_undefined hv]
    rfl
  · have h := doCrWrite_frame 0xFFFFFFFF#32 s
    rw [rxEnabled_doCrWrite, txEnabled_doCrWrite] at h
    simpa only [testBit_allOnes, if_true] using h
  · obtain ⟨hf, hp⟩ := statusBecomes_doCrWrite hw 0xFFFFFFFF#32
    refine ⟨fun f => (hf f).trans ?_, hp⟩
    cases f <;> simp only [crWriteFlags, testBit_allOnes, if_true]

/-- Settles O27: what the frame of the CR rows does not list is kept, RXRDY among it. -/
theorem crCommandsLeaveTheRest : Obligations.CrCommandsLeaveTheRest := by
  unfold Obligations.CrCommandsLeaveTheRest
  intro s t i v hi hw he
  obtain ⟨-, rfl⟩ := exec_next_iff.1 he
  obtain ⟨es, hist, hu, hk, hh, rfl⟩ := crRow_frame hi (s := s)
  rw [List.append_nil] at hist
  have hr : (effect i s).flag .rxrdy = s.flag .rxrdy :=
    flag_of_statusKeptBut hw (effect_cfg i s) hk (by decide)
  rw [hu]
  exact ⟨rfl, rfl, rfl, rfl, rfl, hr, rfl, rfl, hh, hist⟩

/-- Settles O28: whichever row is decoded runs as the row of the whole write, for each of the three registers. -/
theorem commandRowsArePartsOfTheirWrite : Obligations.CommandRowsArePartsOfTheirWrite := by
  unfold Obligations.CommandRowsArePartsOfTheirWrite
  exact fun s v => ⟨exec_crForm v s, exec_ptcrForm v s, exec_hdxPtcrForm v s⟩

/-! ### The interrupt mask -/

/-- The state with another mask. -/
def State.withMask (s : State) (m : Word) : State := { s with uart := { s.uart with interruptMask := m } }

theorem exec_wIdr {s : State} (hl : s.Live) (m v : Word) :
    exec (.wIdr v) (s.withMask m) = .next (s.withMask (m &&& ~~~ v)) :=
  exec_live (s := s.withMask m) hl _

theorem exec_wIer {s : State} (hl : s.Live) (m v : Word) :
    exec (.wIer v) (s.withMask m) = .next (s.withMask (m ||| ierOperand s.cfg v)) :=
  exec_live (s := s.withMask m) hl _

/-- With the defect IER takes the bits of the domain that are not in the value (R131 (a)). -/
theorem ierOperand_defect {c : Params} (h : c.ierComplementDefect = true) (v : Word) :
    ierOperand c v = ~~~ v &&& c.imrDomain := by
  simp [ierOperand, h]

section
variable (m a b d : Word)

/-- Clearing in two steps clears the union. -/
theorem and_not_and_not : m &&& ~~~ a &&& ~~~ b = m &&& ~~~ (a ||| b) := by
  rw [BitVec.not_or, BitVec.and_assoc]

/-- Setting in two steps sets the union. -/
theorem or_and_or_and : m ||| a &&& d ||| b &&& d = m ||| (a ||| b) &&& d := by
  refine word_ext fun p => ?_
  simp only [testBit_or, testBit_and]
  cases testBit d p <;> simp [Bool.or_assoc]

/-- Clearing what was just set undoes it. -/
theorem or_and_and_not : (m ||| a &&& d) &&& ~~~ a = m &&& ~~~ a := by
  refine word_ext fun p => ?_
  simp only [testBit_or, testBit_and, testBit_not]
  cases testBit a p <;> simp

variable {m d} in
/-- Within the domain, setting what was just cleared leaves what setting alone leaves. -/
theorem and_not_or_and (h : m &&& ~~~ d = 0) : m &&& ~~~ a ||| a &&& d = m ||| a &&& d := by
  refine word_ext fun p => ?_
  have hp := (and_not_eq_zero_iff _ _).1 h p
  simp only [testBit_or, testBit_and, testBit_not]
  cases ha : testBit a p
  · simp
  · cases hm : testBit m p
    · rfl
    · simp [hp hm]

end

variable {m a b d : Word} in
/-- On a bit set in both values and the domain the later of a setting and a clearing counts. -/
theorem set_clear_ne_clear_set (h : a &&& b &&& d ≠ 0) : (m ||| a &&& d) &&& ~~~ b ≠ m &&& ~~~ b ||| a &&& d := by
  rw [Ne, eq_zero_iff_testBit, not_forall] at h
  obtain ⟨p, hp⟩ := h
  simp only [testBit_and, Bool.not_eq_false, Bool.and_eq_true] at hp
  obtain ⟨⟨ha, hb⟩, hd⟩ := hp
  intro he
  have := congrArg (testBit · p) he
  simp [testBit_or, testBit_and, testBit_not, ha, hb, hd] at this

/-- Two instructions in a row that leave the masks `m` and `w`. -/
theorem two_mask_writes {s : State} {i j : Instr} {m w w' : Word} (hi : exec i s = .next (s.withMask m))
    (hj : exec j (s.withMask m) = .next (s.withMask w)) (hw : w = w') :
    ∃ u t, exec i s = .next u ∧ exec j u = .next t ∧
      t = { s with uart := { s.uart with interruptMask := w' } } :=
  ⟨_, _, hi, hj, by rw [hw]; rfl⟩

/-- Settles O30: each write is a clearing or a setting of the mask, and the laws are those of the two. -/
theorem maskWriteLaws : Obligations.MaskWriteLaws := by
  unfold Obligations.MaskWriteLaws
  intro s m1 m2 hl M D both one
  have hclear := exec_wIdr hl
  refine ⟨two_mask_writes (hclear M m1) (hclear _ m2) (and_not_and_not ..), ?_, ⟨_, hclear M _, rfl⟩,
    two_mask_writes (hclear M m1) (hclear _ m1) ?_, ⟨_, hclear M m1, rfl⟩, fun hdef => ?_, fun hdef => ?_⟩
  · exact two_mask_writes (hclear M m2) (hclear _ m1) (by rw [and_not_and_not, BitVec.or_comm])
  · rw [and_not_and_not, BitVec.or_self]
  · have hset (m v : Word) : exec (.wIer v) (s.withMask m) = .next (s.withMask (m ||| v &&& D)) := by
      rw [exec_wIer hl, ierOperand_default hdef]
    refine ⟨two_mask_writes (hset M m1) (hset _ m2) (or_and_or_and ..), ⟨_, hset M _, rfl⟩,
      two_mask_writes (hset M m1) (hset _ m1) (by rw [or_and_or_and, BitVec.or_self]), ⟨_, hset M m1, rfl⟩,
      fun hm => ⟨two_mask_writes (hset M m1) (hclear _ m1) (or_and_and_not ..),
        two_mask_writes (hclear M m1) (hset _ m1) (and_not_or_and _ hm)⟩, fun hne a b c d ha hb hc hd => ?_⟩
    obtain rfl := Host.Outcome.next.inj ((hset M m1).symm.trans ha)
    obtain rfl := Host.Outcome.next.inj ((hclear M m2).symm.trans hc)
    obtain rfl := Host.Outcome.next.inj ((hclear _ m2).symm.trans hb)
    obtain rfl := Host.Outcome.next.inj ((hset _ m1).symm.trans hd)
    exact set_clear_ne_clear_set hne
  · have hset (m v : Word) : exec (.wIer v) (s.withMask m) = .next (s.withMask (m ||| ~~~ v &&& D)) := by
      rw [exec_wIer hl, ierOperand_defect hdef]
    exact ⟨two_mask_writes (hset M m1) (hset _ m2) (by rw [or_and_or_and, BitVec.not_and]), ⟨_, hset M _, rfl⟩,
      two_mask_writes (hset M m1) (hset _ m1) (by rw [or_and_or_and, BitVec.or_self]), ⟨_, hset M m1, rfl⟩⟩

/-! ### The interrupt line -/

/-- Settles O32: the line is the latch, which is high exactly when a bit is set in both words. -/
theorem irqIsHighIffAnEnabledFlagIsSet : Obligations.IrqIsHighIffAnEnabledFlagIsSet := by
  unfold Obligations.IrqIsHighIffAnEnabledFlagIsSet
  refine fun s => ⟨bne_iff_ne, fun hn => ?_⟩
  rw [irqLevel, latch_iff]
  constructor
  · rintro ⟨p, hs, hm⟩
    obtain ⟨f, rfl⟩ := (named_iff _ _).1 hn p hs
    exact ⟨f, hs, hm⟩
  · rintro ⟨f, hs, hm⟩
    exact ⟨_, hs, hm⟩

end Sys2Proof.Machine
end

section
/-! SUPPORT. The descriptor units (`44_pdc.md`, `45_pdc_half_duplex.md`, `46_pdc_actions.md`) row by row: what each
write stores, the action it puts out, and that no access of them reaches the interrupt line. -/

namespace Sys2Proof.Machine

/-! ### Classifying a count -/

theorem classifyCount_eq (d : Direction) (armed : Bool) (n : Count) :
    classifyCount d armed n = if armed = false then .none else if n = 0 then stopAction d else startAction d := by
  cases armed <;> rfl

section
variable {c : Params} (d : Direction) (armed : Bool) (n : Count)

theorem nextCountAction_of_none (h : c.pdcNextCountAction = .none) : nextCountAction c d armed n = .none := by
  rw [nextCountAction, h]

theorem nextCountAction_of_stateChanged (h : c.pdcNextCountAction = .stateChanged) :
    nextCountAction c d armed n = .stateChanged := by
  rw [nextCountAction, h]

theorem nextCountAction_of_startStop (h : c.pdcNextCountAction = .startStop) :
    nextCountAction c d armed n = classifyCount d armed n := by
  rw [nextCountAction, h]

end

/-- The events of a current-count write: a START or STOP is logged with the null engine (R159, R163, R213). -/
theorem classifyCount_events (c : Params) (d : Direction) (armed : Bool) (n : Count) :
    Event.action .uart (classifyCount d armed n) ::
        (if (classifyCount d armed n).isTransfer = true ∧ c.xferEngine = .null then [.log (classifyCount d armed n)]
          else []) =
      if armed = false then [.action .uart .none]
      else if n = 0 then .action .uart (stopAction d) :: (if c.xferEngine = .null then [.log (stopAction d)] else [])
      else .action .uart (startAction d) :: (if c.xferEngine = .null then [.log (startAction d)] else []) := by
  have hstop : (stopAction d).isTransfer = true := by cases d <;> rfl
  have hstart : (startAction d).isTransfer = true := by cases d <;> rfl
  rw [classifyCount_eq]
  cases armed
  · rfl
  · simp only [Bool.true_eq_false, if_false]
    split
    · simp [hstop]
    · simp [hstart]

/-! ### The full-duplex unit -/

/-- Settles O36: the row stores the value, and NONE is no transfer action, so nothing is logged. -/
theorem pointerWritesStoreAndReturnNone : Obligations.PointerWritesStoreAndReturnNone := by
  unfold Obligations.PointerWritesStoreAndReturnNone
  intro s v hl
  exact ⟨exec_live hl _, exec_live hl _, exec_live hl _, exec_live hl _⟩

/-- Settles O37: both directions store the count and put out the events of its classification. -/
theorem countWritesStoreAndClassify : Obligations.CountWritesStoreAndClassify := by
  unfold Obligations.CountWritesStoreAndClassify
  intro s v hl c logged rx tx
  have hrx := classifyCount_events s.cfg .rx rx.transferEnabled c
  have htx := classifyCount_events s.cfg .tx tx.transferEnabled c
  constructor
  · rw [exec_live hl, effect, uartAction_eq]
    exact congrArg (fun es => Host.Outcome.next { s with
      uart := { s.uart with rxChannel := { rx with currentCount := c } }, history := s.history ++ es }) hrx
  · rw [exec_live hl, effect, uartAction_eq]
    exact congrArg (fun es => Host.Outcome.next { s with
      uart := { s.uart with txChannel := { tx with currentCount := c } }, history := s.history ++ es }) htx

/-- An action of the UART adds one action to its stream, whatever is logged. -/
theorem actionsOf_uartAction (a : Action) (s : State) :
    actionsOf .uart (uartAction a s).history = actionsOf .uart s.history ++ [a] := by
  rw [uartAction_history, actionsOf, List.filterMap_append]
  split <;> rfl

/-- What a next-count write of the UART puts out follows the parameter (R167, R171). -/
theorem nextCount_out {s u : State} (hu : u.history = s.history) (d : Direction) (armed : Bool) (n : Count) :
    let a := nextCountAction s.cfg d armed n
    actionsOf .uart (uartAction a u).history = actionsOf .uart s.history ++ [a] ∧
      (s.cfg.pdcNextCountAction = .none →
        a = .none ∧ (uartAction a u).history = s.history ++ [.action .uart .none]) ∧
      (s.cfg.pdcNextCountAction = .stateChanged → a = .stateChanged) ∧
      (s.cfg.pdcNextCountAction = .startStop →
        a = if armed = false then .none else if n = 0 then stopAction d else startAction d) := by
  intro a
  refine ⟨by rw [actionsOf_uartAction, hu], fun h => ?_, nextCountAction_of_stateChanged d armed n,
    fun h => (nextCountAction_of_startStop d armed n h).trans (classifyCount_eq ..)⟩
  have ha : a = .none := nextCountAction_of_none d armed n h
  refine ⟨ha, ?_⟩
  rw [ha, uartAction_history, hu]
  rfl

/-- Settles O38: both directions store the count and put out the action of the parameter. -/
theorem nextCountWritesFollowTheParameter : Obligations.NextCountWritesFollowTheParameter := by
  unfold Obligations.NextCountWritesFollowTheParameter
  intro s v hl c rx tx
  have hrx := nextCount_out (s := s) (u := s.mapChannel .rx fun ch => { ch with nextCount := c }) rfl .rx
    rx.transferEnabled c
  have htx := nextCount_out (s := s) (u := s.mapChannel .tx fun ch => { ch with nextCount := c }) rfl .tx
    tx.transferEnabled c
  refine ⟨⟨_, _, exec_live hl _, ?_, hrx⟩, _, _, exec_live hl _, ?_, htx⟩ <;> rw [effect, uartAction_eq] <;> rfl

/-- Settles O39: each command sets one enable, and STATE_CHANGED is not logged. -/
theorem ptcrCommandsSwitchTheirChannel : Obligations.PtcrCommandsSwitchTheirChannel := by
  unfold Obligations.PtcrCommandsSwitchTheirChannel
  intro s v hl
  exact ⟨exec_live hl _, exec_live hl _, exec_live hl _, exec_live hl _⟩

/-! ### The interrupt line and the descriptor fields -/

/-- A PDC offset is no UART register's. -/
theorem pdcOffset_ne_uartOffset (o : PdcOffsets) (r : PdcReg) (q : UartReg) : pdcOffset o r ≠ uartOffset q := by
  intro h
  have hq := uartRegAt_offset q
  rw [← h, uartRegAt_pdcOffset] at hq
  cases hq

/-- A bus access of either unit at a PDC offset. -/
def IsPdcAccess (c : Params) (r : Request) : Prop :=
  (∃ p u size, r = .read u size (pdcOffset c.pdcOffsets p)) ∨
    ∃ p u size v, r = .write u size (pdcOffset c.pdcOffsets p) v

theorem not_isPdcAccess_uartRead (c : Params) (q : UartReg) : ¬ IsPdcAccess c (uartRead q) := by
  rintro (⟨p, u, size, h⟩ | ⟨p, u, size, v, h⟩)
  · injection h with _ _ h
    exact pdcOffset_ne_uartOffset _ p q h.symm
  · cases h

theorem not_isPdcAccess_uartWrite (c : Params) (q : UartReg) (w : Word) : ¬ IsPdcAccess c (uartWrite q w) := by
  rintro (⟨p, u, size, h⟩ | ⟨p, u, size, v, h⟩)
  · cases h
  · injection h with _ _ h _
    exact pdcOffset_ne_uartOffset _ p q h.symm

theorem not_isPdcAccess_deliver (c : Params) (bytes : List Byte) : ¬ IsPdcAccess c (.deliver bytes) := by
  rintro (⟨p, u, size, h⟩ | ⟨p, u, size, v, h⟩) <;> cases h

theorem not_isPdcAccess_reset (c : Params) (t : Target) : ¬ IsPdcAccess c (.reset t) := by
  rintro (⟨p, u, size, h⟩ | ⟨p, u, size, v, h⟩) <;> cases h

/-- An instruction at a PDC offset is no writer of the status or the mask: those are other operations (R31, R136). -/
theorem effect_interrupt_kept_of_pdc {i : Instr} {s : State} (h : IsPdcAccess s.cfg (requestOf s.cfg i)) :
    (effect i s).uart.status = s.uart.status ∧ (effect i s).uart.interruptMask = s.uart.interruptMask := by
  constructor
  · rcases effect_status_kept_or_writer i s with hk | ⟨v, hv⟩ | rfl | ⟨b, rfl⟩ | rfl
    · exact hk
    · exact absurd (hv s.cfg ▸ h) (not_isPdcAccess_uartWrite _ .cr v)
    · exact absurd h (not_isPdcAccess_uartRead _ .rhr)
    · exact absurd h (not_isPdcAccess_deliver _ _)
    · exact absurd h (not_isPdcAccess_reset _ _)
  · rcases effect_mask_kept_or_writer i s with hk | ⟨v, rfl⟩ | ⟨v, rfl⟩ | rfl
    · exact hk
    · exact absurd h (not_isPdcAccess_uartWrite _ .ier v)
    · exact absurd h (not_isPdcAccess_uartWrite _ .idr v)
    · exact absurd h (not_isPdcAccess_reset _ _)

/-- A PDC access is run or rejected, and either keeps the status and the mask (R212). -/
theorem step_interrupt_kept_of_pdc {s t : State} {r : Request} (h : IsPdcAccess s.cfg r)
    (hs : step (issue r s) = .next t) :
    t.uart.status = s.uart.status ∧ t.uart.interruptMask = s.uart.interruptMask := by
  have hl : s.Live := (step_next_cases hs).1
  cases hd : decode s.cfg r with
  | ok i =>
    rw [step_issue_ok hl hd] at hs
    obtain ⟨-, rfl⟩ := exec_next_iff.1 hs
    exact effect_interrupt_kept_of_pdc (requestOf_decode hd ▸ h)
  | error v =>
    rw [rejects_of_decode hl hd] at hs
    obtain rfl := Host.Outcome.next.inj hs
    rw [raiseViolation_uart]
    exact ⟨rfl, rfl⟩

/-- Settles O41: a PDC access is no writer of the status or the mask, and the line is a function of the two. -/
theorem pdcAccessesLeaveTheInterruptLevel : Obligations.PdcAccessesLeaveTheInterruptLevel := by
  unfold Obligations.PdcAccessesLeaveTheInterruptLevel
  rintro s t r u size v - h
  obtain ⟨hst, hm⟩ : t.uart.status = s.uart.status ∧ t.uart.interruptMask = s.uart.interruptMask := by
    rcases h with h | h
    · exact step_interrupt_kept_of_pdc (.inl ⟨r, u, size, rfl⟩) h
    · exact step_interrupt_kept_of_pdc (.inr ⟨r, u, size, v, rfl⟩) h
  exact ⟨hst, hm, by rw [irqLevel, hst, hm, irqLevel]⟩

/-- Settles O42: the frame of every instruction leaves the descriptor fields but the one it writes, and the null
engine has no step. -/
theorem descriptorsChangeOnlyByTheirOwnWrite : Obligations.DescriptorsChangeOnlyByTheirOwnWrite := by
  unfold Obligations.DescriptorsChangeOnlyByTheirOwnWrite
  refine ⟨fun s t i he hi => ?_, fun s e rest hl hn hp => ?_⟩
  · obtain ⟨-, rfl⟩ := exec_next_iff.1 he
    obtain ⟨es, -, hF⟩ := effect_frame i s
    cases i
    case reset t =>
      cases t
      · exact absurd rfl hi
      · simp [effect]
    case rxDeliver bytes =>
      obtain ⟨w, d, x, h, he⟩ := effect_rxDeliver_shape bytes s
      simp [he]
    all_goals
      rw [hF.1]
      simp
  · have hl' : ({ s with pending := rest } : State).sessionOver = false := hl
    rw [step_engine hl hp]
    simp [engineStep, hl', hn]

/-! ### The half-duplex unit -/

/-- Settles O43: each row returns its field, and `zextCount` is the zero-extension. -/
theorem halfDuplexReadsReturnTheSharedField : Obligations.HalfDuplexReadsReturnTheSharedField := by
  unfold Obligations.HalfDuplexReadsReturnTheSharedField
  intro s hl
  have h := exec_live hl
  exact ⟨h _, h _, h _, h _, h _, h _, h _, h _⟩

/-- A count reads back as the low half of the value written (R74). -/
theorem zextCount_trunc16 (v : Word) : zextCount (trunc16 v) = v &&& 0xFFFF#32 := by
  apply BitVec.eq_of_toNat_eq
  simp [zextCount, trunc16, Nat.and_two_pow_sub_one_eq_mod _ 16]
  omega

theorem forall_mem_pair {a b : Instr} {p : Instr → Prop} : (∀ i, i ∈ [a, b] → p i) ↔ p a ∧ p b := by
  simp

/-- Both reads in a live state return the value, if each of them does in effect. -/
theorem exec_both_reads (t : State) (hl : t.Live) {i j : Instr} {w : Word}
    (hi : effect i t = returnValue .hdx w t) (hj : effect j t = returnValue .hdx w t) :
    ∀ k, k ∈ [i, j] → exec k t = .next (returnValue .hdx w t) :=
  forall_mem_pair.2 ⟨by rw [exec_live hl, hi], by rw [exec_live hl, hj]⟩

/-- Settles O44: both names of a field write it and read it, a count its low half. -/
theorem halfDuplexNamesShareStorage : Obligations.HalfDuplexNamesShareStorage := by
  unfold Obligations.HalfDuplexNamesShareStorage
  intro s v hl
  have hc (t : State) : returnValue .hdx (zextCount (trunc16 v)) t = returnValue .hdx (v &&& 0xFFFF#32) t := by
    rw [zextCount_trunc16]
  simp only [forall_mem_pair (p := fun i => ∃ t, exec i s = .next t ∧ _)]
  exact ⟨⟨⟨_, exec_live hl _, rfl, exec_both_reads (effect (.hdxWRpr v) s) hl rfl rfl⟩,
      _, exec_live hl _, rfl, exec_both_reads (effect (.hdxWTpr v) s) hl rfl rfl⟩,
    ⟨⟨_, exec_live hl _, rfl, exec_both_reads (effect (.hdxWRnpr v) s) hl rfl rfl⟩,
      _, exec_live hl _, rfl, exec_both_reads (effect (.hdxWTnpr v) s) hl rfl rfl⟩,
    ⟨⟨_, exec_live hl _, rfl, exec_both_reads (effect (.hdxWRcr v) s) hl (hc _) (hc _)⟩,
      _, exec_live hl _, rfl, exec_both_reads (effect (.hdxWTcr v) s) hl (hc _) (hc _)⟩,
    ⟨_, exec_live hl _, rfl, exec_both_reads (effect (.hdxWRncr v) s) hl (hc _) (hc _)⟩,
    _, exec_live hl _, rfl, exec_both_reads (effect (.hdxWTncr v) s) hl (hc _) (hc _)⟩

/-- Settles O45: the row takes the enable of its own direction, and the parameter decides for a next count. -/
theorem halfDuplexCountWritesClassify : Obligations.HalfDuplexCountWritesClassify := by
  unfold Obligations.HalfDuplexCountWritesClassify
  intro s v hl c h rxA txA next
  have hnext (d : Direction) (armed : Bool) : nextCountAction s.cfg d armed c = next (classifyCount d armed c) := by
    cases hp : s.cfg.pdcNextCountAction
    · simp [next, hp, nextCountAction_of_none d armed c hp]
    · simp [next, hp, nextCountAction_of_stateChanged d armed c hp]
    · simp [next, hp, nextCountAction_of_startStop d armed c hp]
  have hrx : classifyCount .rx h.rxEnabled c = rxA := classifyCount_eq ..
  have htx : classifyCount .tx h.txEnabled c = txA := classifyCount_eq ..
  rw [← hrx, ← htx, ← hnext, ← hnext]
  exact ⟨exec_live hl _, exec_live hl _, exec_live hl _, exec_live hl _⟩

/-- Settles O47: each command sets both enables at once. -/
theorem halfDuplexPtcrCommands : Obligations.HalfDuplexPtcrCommands := by
  unfold Obligations.HalfDuplexPtcrCommands
  intro s v hl
  exact ⟨exec_live hl _, exec_live hl _, exec_live hl _, exec_live hl _⟩

/-! ### Reset and creation -/

/-- Settles O49: the mask is cleared, so the latch is low. -/
theorem resetPutsTheUnitInItsResetState : Obligations.ResetPutsTheUnitInItsResetState := by
  unfold Obligations.ResetPutsTheUnitInItsResetState
  intro s hl
  exact ⟨rfl, _, exec_live hl _, rfl, (irqLevel_eq_false_iff _).2 BitVec.and_zero⟩

/-- Settles O50: the reset state depends on the parameters and the fault flag alone, which is clear in a live state. -/
theorem resetIsIdempotent : Obligations.ResetIsIdempotent := by
  unfold Obligations.ResetIsIdempotent
  intro s s' hl hl' hc
  obtain ⟨hu, hh⟩ := (live_iff s).1 hl
  obtain ⟨hu', hh'⟩ := (live_iff s').1 hl'
  refine ⟨⟨_, _, exec_live hl _, exec_live hl' _, exec_live (s := resetUart s) hl _, ?_, rfl, rfl, rfl⟩,
    _, _, exec_live hl _, exec_live hl' _, exec_live (s := resetHdx s) hl _, ?_, rfl⟩
  · simp only [effect, resetUart, hu, hu', hc]
  · simp only [effect, resetHdx, hh, hh']

/-- Settles O51: each field of the created state is a literal, and the default position of TXEMPTY is 9. -/
theorem creationValues : Obligations.CreationValues := by
  unfold Obligations.CreationValues
  intro c s
  refine ⟨rfl, rfl, rfl, rfl, rfl, rfl, rfl, rfl, rfl, rfl, rfl, rfl,
    (irqLevel_eq_false_iff _).2 BitVec.and_zero, rfl, by decide⟩

end Sys2Proof.Machine
end
